-- ==== Sys2Proof/Word.lean ====
section
/-! DEFINITION. The word types of the hardware (spec/00_scope.md R6, R7). Signed readings `s8`, `s16`, `s32` of R8 are
`BitVec.toInt`; `sext_N` and `zext_N` are `BitVec.signExtend N` and `BitVec.setWidth N`. -/

namespace Sys2Proof

/-- A pixel, a counter, a register or a command word (R6: 32 bits). -/
abbrev Word := BitVec 32

/-- A 16-bit working lane of the color transform (R6). -/
abbrev Half := BitVec 16

/-- A channel, a multiplier or a byte of memory (R6: 8 bits). -/
abbrev Byte := BitVec 8

/-- The size of the one address space, `2^AW` bytes with `AW = 32` (R5, R50). -/
abbrev addressSpace : Nat := 2 ^ 32

end Sys2Proof
end

