-- ==== Sys2Proof/Config.lean ====
section
/-! DEFINITION. The implementation parameters of spec/00_scope.md R5 and the platform's memory map (spec/20_memory.md R64,
spec/93_implementation_defined.md U13), as plain data. They are fixed for an instance (R21): no step writes them. -/

namespace Sys2Proof

/-- A range of byte addresses `base .. base + size - 1`. -/
structure Range where
  base : Nat
  size : Nat
  deriving DecidableEq, Repr

/-- What the platform says of a range that is not plain memory. -/
inductive RegionKind where
  /-- No memory is behind these addresses (R64, U4). -/
  | absent
  /-- Device registers, or memory whose reads have side effects (R63, U6). -/
  | device
  /-- The register window of another instance of the block (R52, R212). -/
  | window
  deriving DecidableEq, Repr

/-- One line of the platform's memory map. Addresses that no line names are plain memory. -/
structure Region where
  range : Range
  kind  : RegionKind
  deriving DecidableEq, Repr

/-- The parameters of R5, by the names of its table. `extra` lists `EXTRA(0) .. EXTRA(PMAX)`; `capOps` is the three implemented
bits of `CAP_OPS` (R29 hard-wires the others to zero); `map` is the platform's memory map (R64). -/
structure Config where
  vpix    : Nat
  chunk   : Nat
  nfix    : Nat
  abase   : Nat
  extra   : List Nat
  pmax    : Nat
  ndist   : Nat
  capOps  : BitVec 3
  regBase : Nat
  map     : List Region
  deriving DecidableEq, Repr

/-- The suggested values of R5. PRESUMED, log entry 3: the spec marks them as general knowledge; no claim about every state
depends on them. DESIGN CHOICE, log entry 4: `REG_BASE` and the empty memory map, which the spec leaves to the platform. -/
def Config.suggested : Config where
  vpix    := 4
  chunk   := 16
  nfix    := 256
  abase   := 280
  extra   := [0, 2, 4, 8, 16, 32, 64, 128, 256, 512, 1024, 2048]
  pmax    := 11
  ndist   := 40
  capOps  := 0x7#3
  regBase := 0xF0000000
  map     := []

/-- `CBOUND`, the exclusive bound that the caller keeps on every counter (R5, R59). It is a premise of claims; no rule makes the
block look at it (R169). -/
def counterBound : Nat := 2 ^ 28

end Sys2Proof
end

