-- ==== Sys2Proof/Syntax.lean ====
section
/-! DEFINITION. The commands of the block, one constructor per row of spec/opcode_table.json (spec/30_encoding.md R85). -/

namespace Sys2Proof

/-- A command. `SUBG` and `HADD` carry no immediate (format Z, R82); `CTRANS` carries the multiplier set `G2R`, `G2B`, `R2B`
(format M, R83, R84), in the order in which R86 and R91 list them. The operand registers are fixed by the command (R81). -/
inductive Instr where
  /-- Subtract-green transform (R120). -/
  | subg
  /-- Color transform (R135). -/
  | ctrans (g2r g2b r2b : Byte)
  /-- Histogram accumulate (R160). -/
  | hadd
  deriving DecidableEq, Repr

end Sys2Proof
end

