-- ==== Sys2Proof/WellFormed.lean ====
section
/-! DEFINITION. What makes a command well-formed for a given capability register (spec/30_encoding.md R89) and an assembler
operand legal (R91). Every value of every multiplier field is legal (spec/42_color_transform.md R149), so a command has no other
check. -/

namespace Sys2Proof

/-- The bit of `CAP` that says the command is implemented (spec/10_state.md R29, R89). -/
def Instr.capBit : Instr → Nat
  | .subg => 0
  | .ctrans _ _ _ => 1
  | .hadd => 2

/-- A command is well-formed for the capability bits `cap` when its own bit is 1 (R89). -/
def Instr.wellFormed (cap : BitVec 3) (i : Instr) : Bool :=
  cap.getLsbD i.capBit

/-- How an operand of `ctrans` is spelled (R91). -/
inductive AsmOperand where
  /-- A signed decimal. -/
  | decimal (v : Int)
  /-- A byte in hexadecimal. -/
  | hex (v : Nat)
  deriving DecidableEq, Repr

/-- The legal operands: `-128 .. 127` in decimal, `0x00 .. 0xFF` in hexadecimal (R91). -/
def AsmOperand.wellFormed : AsmOperand → Bool
  | .decimal v => decide (-128 ≤ v) && decide (v ≤ 127)
  | .hex v => decide (v ≤ 255)

end Sys2Proof
end

