-- ==== Sys2Proof/Decode.lean ====
section
/-! DEFINITION. The decoder of spec/30_encoding.md R86, total on 32-bit words, and the encoder written from R82, R83 and R85.
A command is one 32-bit word, the data of a register write (R80), so there is no byte order and no length to find (R90). -/

namespace Sys2Proof

/-- Why a word is ILLEGAL (R88, R89). -/
inductive Illegal where
  /-- `OPC` is none of 1, 2, 3 (R85). -/
  | reservedOpcode
  /-- `OPC` is 1 or 3, format Z, and `ARG` is not zero (R82, R88). -/
  | argNotZero
  /-- The command's bit in `CAP` is 0 (R89). -/
  | notImplemented
  deriving DecidableEq, Repr

/-- What the decoder answers: a command, or ILLEGAL with its reason. -/
inductive Decoded where
  | command (i : Instr)
  | illegal (r : Illegal)
  deriving DecidableEq, Repr

/-- `OPC = w[7:0]` (R81). -/
def opcOf (w : Word) : Byte := w.extractLsb' 0 8

/-- `G2R = w[15:8]` (R84). -/
def g2rOf (w : Word) : Byte := w.extractLsb' 8 8

/-- `G2B = w[23:16]` (R84). -/
def g2bOf (w : Word) : Byte := w.extractLsb' 16 8

/-- `R2B = w[31:24]` (R84). -/
def r2bOf (w : Word) : Byte := w.extractLsb' 24 8

/-- The decoder of R86, line by line; the last line names why the word is ILLEGAL. -/
def decodeWord (w : Word) : Decoded :=
  if w = 0x00000001#32 then .command .subg
  else if opcOf w = 0x02#8 then .command (.ctrans (g2rOf w) (g2bOf w) (r2bOf w))
  else if w = 0x00000003#32 then .command .hadd
  else if opcOf w = 0x01#8 ∨ opcOf w = 0x03#8 then .illegal .argNotZero
  else .illegal .reservedOpcode

/-- The decoder of a block whose capability bits are `cap` (R89). -/
def decodeCommand (cap : BitVec 3) (w : Word) : Decoded :=
  match decodeWord w with
  | .command i => if i.wellFormed cap then .command i else .illegal .notImplemented
  | .illegal r => .illegal r

/-- The command word of a command, from the formats of R82 and R83 and the opcodes of R85 (R91 spells the same words). -/
def encode : Instr → Word
  | .subg => 0#24 ++ 0x01#8
  | .ctrans g2r g2b r2b => r2b ++ g2b ++ g2r ++ 0x02#8
  | .hadd => 0#24 ++ 0x03#8

/-- The host's reading of the decoder: the word's bits as spec/opcode_table.json numbers them, bits above `nbits` zero. A number
that does not fit one 32-bit command word is none (R90). -/
def decodeTableWord (nbits w : Nat) : Option Instr :=
  if w % 2 ^ nbits < addressSpace then
    match decodeWord (BitVec.ofNat 32 (w % 2 ^ nbits)) with
    | .command i => some i
    | .illegal _ => none
  else none

end Sys2Proof
end

