-- ==== Sys2Proof/Machine/HostProgram.lean ====
section
/-! DEFINITION. The host's side as plain data: registers of the window, host actions, the events that move the machine, and the
pseudo-instructions of spec/30_encoding.md R92. -/

namespace Sys2Proof.Machine

/-- The registers of the window (spec/10_state.md R28). -/
inductive Reg where
  | cap | status | cmd | a0 | a1 | a2 | n
  deriving DecidableEq, Repr

/-- The four operand registers, which `wr` writes (R22, R92). -/
inductive OperandReg where
  | a0 | a1 | a2 | n
  deriving DecidableEq, Repr

/-- The width of a bus access: 1, 2 or 4 bytes (spec/20_memory.md R54 speaks of byte and 16-bit reads). -/
inductive Width where
  | w8 | w16 | w32
  deriving DecidableEq, Repr

/-- What the host does, in program order (R92). The first six are the lines of R92; the last two are bus accesses of any width at
any address, of which the register and memory lines are the named 32-bit cases (R28, R54). -/
inductive HostAction where
  /-- `wr REG, v` -/
  | wr (r : OperandReg) (v : Word)
  /-- `rd REG` -/
  | rd (r : Reg)
  /-- `subg`, `ctrans ...`, `hadd`: the write of a word to `CMD` -/
  | command (w : Word)
  /-- `wait` -/
  | wait
  /-- `mw addr, v` -/
  | mw (addr v : Word)
  /-- `mr addr` -/
  | mr (addr : Word)
  /-- a bus write of the low bytes of `v` -/
  | busWrite (addr : Word) (width : Width) (v : Word)
  /-- a bus read -/
  | busRead (addr : Word) (width : Width)
  deriving DecidableEq, Repr

/-- What happens next: a host action, a turn of the block, or the platform's reset (spec/70_reset_and_hazards.md R220). The order
of the events is the schedule, and every schedule is a list (log entry 1). -/
inductive Event where
  /-- The host carries out its next action. -/
  | host (a : HostAction)
  /-- The block performs the write of element `k` of the command in flight (spec/20_memory.md R66). -/
  | element (k : Nat)
  /-- The block performs everything left and retires the command (spec/40_common_execution.md R100). -/
  | finish
  /-- The platform asserts reset. -/
  | reset
  deriving DecidableEq, Repr

/-- `subg.run base, n` (R92). -/
def subgRun (base n : Word) : List HostAction :=
  [.wr .a0 base, .wr .n n, .command (encode .subg), .wait]

/-- `ctrans.run base, n, g2r, g2b, r2b` (R92). -/
def ctransRun (base n : Word) (g2r g2b r2b : Byte) : List HostAction :=
  [.wr .a0 base, .wr .n n, .command (encode (.ctrans g2r g2b r2b)), .wait]

/-- `hadd.run a, b, out` (R92). -/
def haddRun (a b out : Word) : List HostAction :=
  [.wr .a0 a, .wr .a1 b, .wr .a2 out, .command (encode .hadd), .wait]

end Sys2Proof.Machine
end

