-- ==== Sys2Proof/Machine/State.lean ====
section
/-! DEFINITION. The state of the machine (spec/10_state.md), as plain data, the reasons a step can stop, and the state after reset
(R37). -/

namespace Sys2Proof.Machine

/-- The fault causes of the hardware (spec/60_exceptions.md R192). Raising one is an effect of the block, a next state; it is not
a stop of the model. -/
inductive Cause where
  | illegalCmd | misaligned | negCount | addrRange | badPal | palMismatch
  deriving DecidableEq, Repr

/-- The model stops because the machine has no defined next state. -/
inductive Fault where
  /-- U4: an access where the platform has no memory, or past the top of the address space. Raised by a command whose footprint
  has such an address, by `HADD` when one of its records has one (R228), and by a host access to one. Safe: the hardware goes on in a way the spec does not give. -/
  | noMemory
  deriving DecidableEq, Repr

/-- The model refuses an action that the spec tells a model to refuse. Every one is safe: the hardware does something that the spec
leaves undefined. -/
inductive Refusal where
  /-- An instruction that has no meaning yet, by its mnemonic. Raised by `exec` only. Safe. -/
  | notModelled (mnemonic : String)
  /-- U3: `HADD` whose `out` record overlaps an input without being it. Raised by `HADD`. Safe. -/
  | partialOverlap
  /-- U5: a host access to memory that the command in flight owns. Raised by host memory accesses. Safe. -/
  | dataRace
  /-- U6: a command footprint that meets a register window or a device, and U4: a record of `HADD` that does (R228). Raised by the three
  commands. Safe. -/
  | notPlainMemory
  /-- U9: a window access that is not 32 bits wide and aligned. Raised by host accesses. Safe. -/
  | windowAccess
  /-- U6: a host access to a device or to another instance's window. Raised by host accesses. Safe. -/
  | deviceAccess
  deriving DecidableEq, Repr

/-- The stored bits of `STATUS` (R31); the hardwired zero bits have no storage. -/
structure Status where
  busy  : Bool
  done  : Bool
  fault : Bool
  cause : BitVec 4
  deriving DecidableEq, Repr

/-- The ranges a command reads and the ranges it writes (spec/20_memory.md R62). -/
structure Footprint where
  reads  : List Range
  writes : List Range
  deriving DecidableEq, Repr

/-- System memory: the listed bytes, by rising address, none of them equal to what an unlisted byte reads as (`Memory.wf`). -/
abbrev Memory := List Host.Cell

/-- The state (R20). `cfg` is the configuration (R21), never written. `prog` is the progress set (R36): `none` while no command is
in flight, otherwise the numbers of the elements already written, in rising order. `events` is what is still to happen, the
host's program among it; `seen` is what the host's reads have returned; `held` is the memory the host has handed over (R230). -/
structure State where
  cfg    : Config
  cap    : BitVec 3
  status : Status
  cmd    : Word
  a0     : Word
  a1     : Word
  a2     : Word
  n      : Word
  prog   : Option (List Nat)
  mem    : Memory
  events : List Event
  seen   : List Word
  held   : Footprint
  deriving DecidableEq, Repr

/-- `STATUS = 0`: not busy, nothing completed, no fault (R37). -/
def Status.zero : Status := { busy := false, done := false, fault := false, cause := 0#4 }

/-- No memory handed over. -/
def Footprint.empty : Footprint := { reads := [], writes := [] }

/-- The machine right after reset (R37), with the suggested parameters (log entry 3), no memory byte written (R222, log entry 5) and no
host program loaded (log entry 2). -/
def State.reset : State where
  cfg    := Config.suggested
  cap    := Config.suggested.capOps
  status := Status.zero
  cmd    := 0x00000000#32
  a0     := 0x00000000#32
  a1     := 0x00000000#32
  a2     := 0x00000000#32
  n      := 0x00000000#32
  prog   := Option.none
  mem    := []
  events := []
  seen   := []
  held   := Footprint.empty

end Sys2Proof.Machine
end

