-- ==== Sys2Proof/Machine/Flags.lean ====
section
/-! DEFINITION. The status register: its word, and what issue, completion, a fault and reset do to it (spec/10_state.md R27, R30 to
R32; spec/60_exceptions.md R192, R195). There is no other flag (R27). -/

namespace Sys2Proof.Machine

/-- The cause code (R192). -/
def Cause.code : Cause → BitVec 4
  | .illegalCmd  => 1#4
  | .misaligned  => 2#4
  | .negCount    => 3#4
  | .addrRange   => 4#4
  | .badPal      => 5#4
  | .palMismatch => 6#4

/-- One bit as a bit vector. -/
def bit (b : Bool) : BitVec 1 := BitVec.ofBool b

/-- What a read of `STATUS` returns (R31): bit 0 `BUSY`, bit 1 `DONE`, bit 2 `FAULT`, bit 3 zero, bits 7:4 `CAUSE`, the rest zero. -/
def Status.word (x : Status) : Word := 0#24 ++ x.cause ++ 0#1 ++ bit x.fault ++ bit x.done ++ bit x.busy

/-- Issue (R30): `BUSY <- 1`, `DONE <- 0`. -/
def Status.issue (x : Status) : Status := { x with busy := true, done := false }

/-- Completion (R32): `BUSY <- 0`, `DONE <- 1`. -/
def Status.complete (x : Status) : Status := { x with busy := false, done := true }

/-- Fault (R32, R195): `BUSY <- 0`, `FAULT <- 1`, `CAUSE <- c`. -/
def Status.raise (x : Status) (c : Cause) : Status := { x with busy := false, fault := true, cause := c.code }

/-- The legal combinations of the bits (R31): idle, busy, completed with no fault recorded and `CAUSE = 0`; or faulted, with the code of
a cause. -/
def Status.legal (x : Status) : Bool :=
  if x.fault then !x.busy && !x.done && decide (1 ≤ x.cause.toNat) && decide (x.cause.toNat ≤ 6)
  else decide (x.cause = 0#4) && !(x.busy && x.done)

end Sys2Proof.Machine
end

