-- ==== Sys2Proof/Machine/Operands.lean ====
section
/-! DEFINITION. Channels, lanes and packed primitives (spec/00_scope.md R8 to R11), the forms of effective address
(spec/40_common_execution.md R115) and the layout of a histogram record (spec/20_memory.md R58, R59). -/

namespace Sys2Proof.Machine

/-! ### Channels and lanes -/

/-- `A(p) = p[31:24]` (R9). -/
def alpha (p : Word) : Byte := p.extractLsb' 24 8

/-- `R(p) = p[23:16]` (R9). -/
def red (p : Word) : Byte := p.extractLsb' 16 8

/-- `G(p) = p[15:8]` (R9). -/
def green (p : Word) : Byte := p.extractLsb' 8 8

/-- `B(p) = p[7:0]` (R9). -/
def blue (p : Word) : Byte := p.extractLsb' 0 8

/-- `pix(a, r, g, b) = {a, r, g, b}` (R9). -/
def pix (a r g b : Byte) : Word := a ++ r ++ g ++ b

/-- `byte(v, k) = v[8k+7 : 8k]` (R10). -/
def byteOf (v : Word) (k : Nat) : Byte := v.extractLsb' (8 * k) 8

/-- `lane16(v, k) = v[16k+15 : 16k]` (R10). -/
def lane16 (v : Word) (k : Nat) : Half := v.extractLsb' (16 * k) 16

/-! ### Packed primitives (R11) -/

/-- Four byte subtractions modulo 256, no borrow between lanes. -/
def sub8x4 (x y : Word) : Word :=
  (byteOf x 3 - byteOf y 3) ++ (byteOf x 2 - byteOf y 2) ++ (byteOf x 1 - byteOf y 1) ++ (byteOf x 0 - byteOf y 0)

/-- Four byte additions modulo 256, no carry between lanes. -/
def add8x4 (x y : Word) : Word :=
  (byteOf x 3 + byteOf y 3) ++ (byteOf x 2 + byteOf y 2) ++ (byteOf x 1 + byteOf y 1) ++ (byteOf x 0 + byteOf y 0)

/-- `x >>a k = floor(x / 2^k)` on exact integers (R8): `Int` division by a positive number floors. -/
def shiftFloor (x : Int) (k : Nat) : Int := x / 2 ^ k

/-- The upper half of the exact signed product (R11). -/
def mulhi16 (a b : Half) : Half := BitVec.ofInt 16 (shiftFloor (a.toInt * b.toInt) 16)

/-- `mulhi16` on both lanes (R11). -/
def mulhi16x2 (x y : Word) : Word := mulhi16 (lane16 x 1) (lane16 y 1) ++ mulhi16 (lane16 x 0) (lane16 y 0)

/-- A left shift inside each 16-bit lane (R11). -/
def shl16x2 (x : Word) (k : Nat) : Word := (lane16 x 1 <<< k) ++ (lane16 x 0 <<< k)

/-- Addition modulo `2^32` (R11). -/
def add32 (a b : Word) : Word := a + b

/-! ### Pixel operands -/

/-- The pixel count `s32(x[N])` (spec/10_state.md R22). -/
def pixelCount (s : State) : Int := s.n.toInt

/-- The byte address of pixel `i`: `x[A0] + 4*i`, in unbounded integers (R55, R115). -/
def pixelAddr (s : State) (i : Nat) : Nat := s.a0.toNat + 4 * i

/-! ### Histogram records -/

/-- The five counter arrays of a record (R58). -/
inductive Part where
  | lit | red | blue | alpha | dist
  deriving DecidableEq, Repr

/-- A counter position: an array and an index in it (R59). -/
abbrev Position := Part × Nat

/-- `EXTRA(p)` (R5). -/
def extraOf (c : Config) (p : Nat) : Nat := c.extra.getD p 0

/-- `LITLEN(p) = ABASE + EXTRA(p)` (R5). -/
def litLen (c : Config) (p : Nat) : Nat := c.abase + extraOf c p

/-- `LITCAP = ABASE + EXTRA(PMAX)` (R5). -/
def litCap (c : Config) : Nat := c.abase + extraOf c c.pmax

/-- `HWORDS = 1 + LITCAP + 3*NFIX + NDIST` (R5). -/
def hwords (c : Config) : Nat := 1 + litCap c + 3 * c.nfix + c.ndist

/-- The word index of a position in its record (R58). -/
def wordIndex (c : Config) : Position → Nat
  | (.lit, i)   => 1 + i
  | (.red, i)   => 1 + litCap c + i
  | (.blue, i)  => 1 + litCap c + c.nfix + i
  | (.alpha, i) => 1 + litCap c + 2 * c.nfix + i
  | (.dist, i)  => 1 + litCap c + 3 * c.nfix + i

/-- The byte address of word `k` of the record at `h` (R58). -/
def recordAddr (h : Word) (k : Nat) : Nat := h.toNat + 4 * k

/-- `addr(H, e)` (R59). -/
def counterAddr (c : Config) (h : Word) (e : Position) : Nat := recordAddr h (wordIndex c e)

/-- The positions of one array, indices `0 .. len - 1`. -/
def arrayPositions (x : Part) (len : Nat) : List Position := (List.range len).map fun i => (x, i)

/-- `DOM(p)` (R59). -/
def counterDomain (c : Config) (p : Nat) : List Position :=
  arrayPositions .lit (litLen c p) ++ arrayPositions .red c.nfix ++ arrayPositions .blue c.nfix ++
    arrayPositions .alpha c.nfix ++ arrayPositions .dist c.ndist

/-- The constraints of R5 and R28 on the parameters: `VPIX >= 1`, `CHUNK >= 1`, `NFIX` a multiple of `CHUNK`, `ABASE >= NFIX`, one
length of the extra region for each `p` in `0 .. PMAX`, `PMAX` a 32-bit value, `REG_BASE` a multiple of `0x20` inside the address
space. That the live literal array never passes its capacity is DEDUCED from R58 (log entry 13). -/
def configOk (c : Config) : Bool :=
  decide (1 ≤ c.vpix) && decide (1 ≤ c.chunk) && decide (c.nfix % c.chunk = 0) && decide (c.nfix ≤ c.abase) &&
    decide (c.extra.length = c.pmax + 1) && decide (c.pmax < addressSpace) &&
    (List.range (c.pmax + 1)).all (fun p => decide (litLen c p ≤ litCap c)) &&
    decide (c.regBase % 0x20 = 0) && decide (c.regBase + 0x20 ≤ addressSpace)

end Sys2Proof.Machine
end

