-- ==== Sys2Proof/Machine/Ops.lean ====
section
/-! DEFINITION. The named operations that every command shares: memory, address ranges, the progress set, taking a fault, reset, and
the life of a command from its checks to its retirement (spec/40_common_execution.md R100 to R102). -/

namespace Sys2Proof.Machine

/-! ### Memory (spec/20_memory.md R50, R53) -/

/-- What a byte that nothing has written reads as. The spec leaves power-up memory open (R222). DESIGN CHOICE, log entry 5. -/
def unlistedByte : Byte := 0x00#8

/-- The byte at address `a`. -/
def Memory.get : Memory → Nat → Byte
  | [], _ => unlistedByte
  | (b, v) :: m, a => if a = b then v else Memory.get m a

/-- Memory with byte `v` at address `a`, in the canonical form. -/
def Memory.set : Memory → Nat → Byte → Memory
  | [], a, v => if v = unlistedByte then [] else [(a, v)]
  | (b, w) :: m, a, v =>
    if a < b then (if v = unlistedByte then (b, w) :: m else (a, v) :: (b, w) :: m)
    else if a = b then (if v = unlistedByte then m else (a, v) :: m)
    else (b, w) :: Memory.set m a v

/-- The canonical form above a bound: addresses from `lo` on, rising, inside the address space, no byte equal to what an unlisted byte
reads as. -/
def Memory.wfFrom : Nat → Memory → Bool
  | _, [] => true
  | lo, (b, v) :: m => decide (lo ≤ b) && decide (b < addressSpace) && decide (v ≠ unlistedByte) && Memory.wfFrom (b + 1) m

/-- The canonical form of a memory. -/
def Memory.wf (m : Memory) : Bool := Memory.wfFrom 0 m

/-- `MemRead(a, 4)`, little-endian (R53). -/
def Memory.read32 (m : Memory) (a : Nat) : Word :=
  m.get (a + 3) ++ m.get (a + 2) ++ m.get (a + 1) ++ m.get a

/-- `MemWrite(a, 4, v)`, little-endian (R53). -/
def Memory.write32 (m : Memory) (a : Nat) (v : Word) : Memory :=
  (((m.set a (byteOf v 0)).set (a + 1) (byteOf v 1)).set (a + 2) (byteOf v 2)).set (a + 3) (byteOf v 3)

/-- The number of bytes of an access. -/
def Width.bytes : Width → Nat
  | .w8 => 1
  | .w16 => 2
  | .w32 => 4

/-- What a host read of some width returns, zero-extended to a word (R54). -/
def Memory.readWidth (m : Memory) (a : Nat) : Width → Word
  | .w8 => (m.get a).setWidth 32
  | .w16 => (m.get (a + 1) ++ m.get a).setWidth 32
  | .w32 => m.read32 a

/-- A host write of the low bytes of `v` (R53). -/
def Memory.writeWidth (m : Memory) (a : Nat) (v : Word) : Width → Memory
  | .w8 => m.set a (byteOf v 0)
  | .w16 => (m.set a (byteOf v 0)).set (a + 1) (byteOf v 1)
  | .w32 => m.write32 a v

/-! ### Ranges and the memory map (R51, R52, R63, R64) -/

/-- The range holds address `x`. -/
def rangeHolds (r : Range) (x : Nat) : Bool := decide (r.base ≤ x) && decide (x < r.base + r.size)

/-- The two ranges share a byte. -/
def rangesMeet (r q : Range) : Bool :=
  decide (0 < r.size) && decide (0 < q.size) && decide (r.base < q.base + q.size) && decide (q.base < r.base + r.size)

/-- Some range of the list shares a byte with `q`. -/
def meetsAny (rs : List Range) (q : Range) : Bool := rs.any fun r => rangesMeet r q

/-- The block's own register window (spec/10_state.md R28). -/
def ownWindow (c : Config) : Range := { base := c.regBase, size := 0x20 }

/-- A range meets a line of the memory map of this kind. -/
def meetsKind (c : Config) (k : RegionKind) (q : Range) : Bool :=
  c.map.any fun g => decide (g.kind = k) && rangesMeet g.range q

/-- There is no memory behind some byte of the range: a hole of the map, or an address past the top (R64, U4). -/
def isAbsent (c : Config) (q : Range) : Bool :=
  meetsKind c .absent q || (decide (0 < q.size) && decide (addressSpace < q.base + q.size))

/-- Some byte of the range is a register of this or another block, or a device (R52, R63, U6). -/
def isWindowOrDevice (c : Config) (q : Range) : Bool :=
  rangesMeet (ownWindow c) q || meetsKind c .window q || meetsKind c .device q

/-! ### The progress set (R36) -/

/-- Adds an element number, keeping the numbers in rising order. -/
def progInsert : List Nat → Nat → List Nat
  | [], k => [k]
  | j :: js, k => if k < j then k :: j :: js else if k = j then j :: js else j :: progInsert js k

/-- The elements already written; none while no command is in flight. -/
def performed (s : State) : List Nat := s.prog.getD []

/-! ### Taking a fault, and the one way out of it -/

/-- `raise Fault(c)` (spec/60_exceptions.md R195): only `STATUS` changes, and the command is no longer in flight. -/
def raiseFault (c : Cause) (s : State) : State := { s with status := s.status.raise c, prog := none }

/-- Reset (spec/70_reset_and_hazards.md R220, R221, R223): every register takes its value of R37; the command in flight is abandoned
where it stands; memory, the host's program and what the host has read stay. The only exit from FAULTED (R197). -/
def resetBlock (s : State) : State :=
  { s with cap := s.cfg.capOps, status := Status.zero, cmd := 0#32, a0 := 0#32, a1 := 0#32, a2 := 0#32, n := 0#32,
           prog := none, held := Footprint.empty }

/-! ### The life of a command -/

/-- What the checks of a command answer (R102): go on, take a fault, or stop the model where the spec leaves the command undefined. -/
inductive Verdict where
  | go
  | trap (c : Cause)
  | stuck (f : Fault)
  | refuse (r : Refusal)
  deriving DecidableEq, Repr

/-- A command read in a state: the outcome of its checks, the numbers of its elements (pixel indices, or the word indices of counter
positions), the address each element is written to, the value it gets from the memory, and its footprint. -/
structure Plan where
  verdict : Verdict
  domain  : List Nat
  addr    : Nat → Nat
  value   : Memory → Nat → Word
  foot    : Footprint

/-- Whether ranges are all plain memory, and if not how the model stops (U4, U6). -/
def memoryVerdict (c : Config) (rs : List Range) : Verdict :=
  if rs.any (isAbsent c) then .stuck .noMemory
  else if rs.any (isWindowOrDevice c) then .refuse .notPlainMemory
  else .go

/-- The elements not yet written. -/
def Plan.remaining (p : Plan) (s : State) : List Nat := p.domain.filter fun k => !(performed s).contains k

/-- The writes of some elements, every value taken from the memory `m0` at the start (R66: each element from its own words, read
before written). -/
def Plan.writeAll (p : Plan) (m0 : Memory) (ks : List Nat) (m : Memory) : Memory :=
  ks.foldl (fun m k => m.write32 (p.addr k) (p.value m0 k)) m

/-- Perform and retire (R100, R32): all remaining writes, then `BUSY <- 0`, `DONE <- 1`. -/
def Plan.completed (p : Plan) (s : State) : State :=
  { s with mem := p.writeAll s.mem (p.remaining s) s.mem, status := s.status.complete, prog := none }

/-- A command from its checks to its retirement. -/
def Plan.run (p : Plan) (s : State) : Host.Outcome State Fault Refusal :=
  match p.verdict with
  | .go => .next (p.completed s)
  | .trap c => .next (raiseFault c s)
  | .stuck f => .fault f
  | .refuse r => .refused r

/-- The write of element `k` alone (R61, R66). A number that names no remaining element changes nothing (log entry 18). -/
def Plan.elementDone (p : Plan) (k : Nat) (s : State) : State :=
  if k ∈ p.remaining s then
    { s with mem := s.mem.write32 (p.addr k) (p.value s.mem k), prog := some (progInsert (performed s) k) }
  else s

/-- One turn of the block spent on element `k`: the checks come first (R100). -/
def Plan.element (p : Plan) (k : Nat) (s : State) : Host.Outcome State Fault Refusal :=
  match p.verdict with
  | .go => .next (p.elementDone k s)
  | .trap c => .next (raiseFault c s)
  | .stuck f => .fault f
  | .refuse r => .refused r

/-! ### Pixel commands (R101) and the split into vector groups and tail (R105) -/

/-- The checks of a pixel command on its registers (R101, R102). -/
def pixelTrap (s : State) : Option Cause :=
  if s.a0.toNat % 4 ≠ 0 then some .misaligned
  else if pixelCount s < 0 then some .negCount
  else if (s.a0.toNat : Int) + 4 * pixelCount s > 2 ^ 32 then some .addrRange
  else none

/-- The pixel buffer (R55, R62); no range when the count is 0. -/
def pixelBuffer (s : State) : List Range :=
  if pixelCount s ≤ 0 then [] else [{ base := s.a0.toNat, size := 4 * (pixelCount s).toNat }]

/-- `pixel_command(F)` (R101). -/
def pixelPlan (F : Word → Word) (s : State) : Plan where
  verdict := match pixelTrap s with
    | some c => .trap c
    | none => memoryVerdict s.cfg (pixelBuffer s)
  domain := List.range (pixelCount s).toNat
  addr := pixelAddr s
  value m i := F (m.read32 (pixelAddr s i))
  foot := match pixelTrap s with
    | some _ => Footprint.empty
    | none => { reads := pixelBuffer s, writes := pixelBuffer s }

/-- The `len` words from address `a` on. -/
def readWords (m : Memory) (a len : Nat) : List Word := (List.range len).map fun j => m.read32 (a + 4 * j)

/-- The writes of consecutive words from address `a` on. -/
def writeWords : Memory → Nat → List Word → Memory
  | m, _, [] => m
  | m, a, v :: vs => writeWords (m.write32 a v) (a + 4) vs

/-- The vector path on whole groups, then the tail path pixel by pixel (R105): group `k` is read, transformed by `G` and written; the
`n mod VPIX` last pixels go through `F` one at a time. -/
def vectorWalk (G : List Word → List Word) (F : Word → Word) (vpix a n : Nat) (m : Memory) : Memory :=
  let grouped := (List.range (n / vpix)).foldl
    (fun m k => writeWords m (a + 4 * (k * vpix)) (G (readWords m (a + 4 * (k * vpix)) vpix))) m
  (List.range (n % vpix)).foldl
    (fun m j => m.write32 (a + 4 * (n / vpix * vpix + j)) (F (m.read32 (a + 4 * (n / vpix * vpix + j))))) grouped

end Sys2Proof.Machine
end

