-- ==== Sys2Proof/Machine/Ctrans.lean ====
section
/-! DEFINITION. `CTRANS`, the color transform: the multiply-shift pipeline stage by stage (spec/42_color_transform.md R136 to R143),
which the document makes normative, and the closed form (R144), which the tail path computes. -/

namespace Sys2Proof.Machine

/-- Step 1, the multiplier lane `M16(m)` (R136): sign-extend, shift left 8, arithmetic shift right 5. -/
def m16 (m : Byte) : Half := ((m.signExtend 16) <<< 8).sshiftRight 5

/-- The multiplier vector `MRB` (R137): green to red in lane 1, green to blue in lane 0. -/
def mrb (g2r g2b : Byte) : Word := m16 g2r ++ m16 g2b

/-- The multiplier vector `MB2` (R137): red to blue in lane 1, zero in lane 0. -/
def mb2 (r2b : Byte) : Word := m16 r2b ++ 0x0000#16

/-- Step 2, `Ap` (R138): alpha and green kept in their lanes. -/
def ctAp (p : Word) : Word := p &&& 0xFF00FF00#32

/-- Step 2, `C` (R138): green in both lanes. -/
def ctC (p : Word) : Word := lane16 (ctAp p) 0 ++ lane16 (ctAp p) 0

/-- Step 3, `D` (R139): the green products. -/
def ctD (g2r g2b : Byte) (p : Word) : Word := mulhi16x2 (ctC p) (mrb g2r g2b)

/-- Step 4, `E` (R140): red and blue shifted left 8 in their lanes. -/
def ctE (p : Word) : Word := shl16x2 p 8

/-- Step 4, `F` (R140): the red product. -/
def ctF (r2b : Byte) (p : Word) : Word := mulhi16x2 (ctE p) (mb2 r2b)

/-- Step 4, `Gs` (R140): the logical right shift by 16 of the whole word. -/
def ctGs (r2b : Byte) (p : Word) : Word := ctF r2b p >>> 16

/-- Step 5, `H` (R141): the sum of the two residuals, byte lanes. -/
def ctH (g2r g2b r2b : Byte) (p : Word) : Word := add8x4 (ctGs r2b p) (ctD g2r g2b p)

/-- Step 5, `I` (R142): the mask. -/
def ctI (g2r g2b r2b : Byte) (p : Word) : Word := ctH g2r g2b r2b p &&& 0x00FF00FF#32

/-- Step 6, `CT[G2R,G2B,R2B]` (R143). -/
def ct (g2r g2b r2b : Byte) (p : Word) : Word := sub8x4 p (ctI g2r g2b r2b p)

/-- The vector path on one group: the stages on every pixel of the group (R138 to R143). -/
def ctGroup (g2r g2b r2b : Byte) (V : List Word) : List Word := V.map (ct g2r g2b r2b)

/-- `delta(m, c) = (s8(m) * s8(c)) >>a 5` (R144). -/
def delta (m c : Byte) : Int := shiftFloor (m.toInt * c.toInt) 5

/-- The closed form of R144, which the tail path may compute (R145). -/
def ctClosed (g2r g2b r2b : Byte) (p : Word) : Word :=
  pix (alpha p)
    (BitVec.ofInt 8 ((red p).toNat - delta g2r (green p)))
    (green p)
    (BitVec.ofInt 8 ((blue p).toNat - delta g2b (green p) - delta r2b (red p)))

/-- The inverse of `CT` (R150): red first, then blue with the recovered red. A derived property; the block has no command for it. -/
def ctInverse (g2r g2b r2b : Byte) (q : Word) : Word :=
  let r : Byte := BitVec.ofInt 8 ((red q).toNat + delta g2r (green q))
  pix (alpha q) r (green q) (BitVec.ofInt 8 ((blue q).toNat + delta g2b (green q) + delta r2b r))

/-- `CTRANS` read in a state (R135). -/
def ctransPlan (g2r g2b r2b : Byte) (s : State) : Plan := pixelPlan (ct g2r g2b r2b) s

/-- `CTRANS` (R135): `pixel_command(CT[G2R,G2B,R2B])`. -/
def execCtrans (g2r g2b r2b : Byte) (s : State) : Host.Outcome State Fault Refusal := (ctransPlan g2r g2b r2b s).run s

end Sys2Proof.Machine
end

