-- ==== Sys2Proof/Machine/Hadd.lean ====
section
/-! DEFINITION. `HADD`, the histogram accumulator (spec/43_histogram_accumulate.md): the whole command by R168, and beside it the walk of
chunked and one-at-a-time adders of R164 to R167, which must give the same memory (R171). -/

namespace Sys2Proof.Machine

/-- The checks of `HADD` on its registers (R168): alignment of the three bases, then their range. -/
def haddTrap (s : State) : Option Cause :=
  if s.a0.toNat % 4 ≠ 0 ∨ s.a1.toNat % 4 ≠ 0 ∨ s.a2.toNat % 4 ≠ 0 then some .misaligned
  else if s.a0.toNat + 4 * hwords s.cfg > addressSpace ∨ s.a1.toNat + 4 * hwords s.cfg > addressSpace ∨
      s.a2.toNat + 4 * hwords s.cfg > addressSpace then some .addrRange
  else none

/-- The palette word of record `a` (R162). -/
def palA (s : State) : Word := s.mem.read32 s.a0.toNat

/-- The palette word of record `b` (R162). -/
def palB (s : State) : Word := s.mem.read32 s.a1.toNat

/-- The palette checks (R162), words read as unsigned (R173 (j)). -/
def palTrap (s : State) : Option Cause :=
  if s.cfg.pmax < (palA s).toNat ∨ s.cfg.pmax < (palB s).toNat then some .badPal
  else if palA s ≠ palB s then some .palMismatch
  else none

/-- The palette-size parameter `p` (R162). -/
def palette (s : State) : Nat := (palA s).toNat

/-- The ranges of the live counters of the record at `h` (R58, R59): the live literal array, then the four other arrays, which lie side by
side. -/
def liveRanges (c : Config) (p : Nat) (h : Word) : List Range :=
  [{ base := recordAddr h 1, size := 4 * litLen c p },
   { base := recordAddr h (1 + litCap c), size := 4 * (3 * c.nfix + c.ndist) }]

/-- The two palette words (R62). -/
def palRanges (s : State) : List Range := [{ base := s.a0.toNat, size := 4 }, { base := s.a1.toNat, size := 4 }]

/-- What `HADD` reads beyond the palette words (R62). -/
def haddReads (s : State) : List Range := liveRanges s.cfg (palette s) s.a0 ++ liveRanges s.cfg (palette s) s.a1

/-- What `HADD` writes (R62). -/
def haddWrites (s : State) : List Range := liveRanges s.cfg (palette s) s.a2

/-- The three records, whole: `HWORDS` words from each base (R58). -/
def recordRanges (s : State) : List Range :=
  [{ base := s.a0.toNat, size := 4 * hwords s.cfg }, { base := s.a1.toNat, size := 4 * hwords s.cfg },
   { base := s.a2.toNat, size := 4 * hwords s.cfg }]

/-- Two records of the layout of R58 overlap without being the same record (R72). -/
def partialOverlap (c : Config) (h k : Word) : Bool :=
  decide (h ≠ k) && rangesMeet { base := h.toNat, size := 4 * hwords c } { base := k.toNat, size := 4 * hwords c }

/-- All checks of `HADD` in their order (R102, R162), then the conditions the block does not see: the overlap of records (R72, U3), and
plain memory under all `HWORDS` words of each record, those the command does not touch among them (R228; U4, U6; log entry 10). Their
place after the faults is DEDUCED (log entry 9). -/
def haddVerdict (s : State) : Verdict :=
  match haddTrap s with
  | some c => .trap c
  | none =>
    match memoryVerdict s.cfg (palRanges s) with
    | .go =>
      match palTrap s with
      | some c => .trap c
      | none =>
        if partialOverlap s.cfg s.a2 s.a0 || partialOverlap s.cfg s.a2 s.a1 then .refuse .partialOverlap
        else memoryVerdict s.cfg (recordRanges s)
    | v => v

/-- The footprint of `HADD` (R62): nothing if a register check fails, the palette words alone if a palette check fails. -/
def haddFoot (s : State) : Footprint :=
  match haddTrap s with
  | some _ => Footprint.empty
  | none =>
    match palTrap s with
    | some _ => { reads := palRanges s, writes := [] }
    | none => { reads := palRanges s ++ haddReads s, writes := haddWrites s }

/-- `HADD` read in a state (R168). Element `k` is word `k` of the record (log entry 7). -/
def haddPlan (s : State) : Plan where
  verdict := haddVerdict s
  domain := (counterDomain s.cfg (palette s)).map (wordIndex s.cfg)
  addr := recordAddr s.a2
  value m k := add32 (m.read32 (recordAddr s.a0 k)) (m.read32 (recordAddr s.a1 k))
  foot := haddFoot s

/-- `HADD` (R160, R168). -/
def execHadd (s : State) : Host.Outcome State Fault Refusal := (haddPlan s).run s

/-! ### The two cases and their adders (R163 to R167) -/

/-- The alias classification (R163): which record accumulates, and which is the other input. -/
inductive AliasCase where
  | nonAliased
  | aliased (acc other : Word)
  deriving DecidableEq, Repr

/-- R163, by equality of the base addresses and nothing else. -/
def aliasCase (a b out : Word) : AliasCase :=
  if out = b then .aliased b a
  else if out = a then .aliased a b
  else .nonAliased

/-- The sum one adder forms for word `k` of the record: `add32(a, b)` in the case of R164, `add32(acc, other)` in the case of R165. -/
def adderSum (x : AliasCase) (a b : Word) (m : Memory) (k : Nat) : Word :=
  match x with
  | .nonAliased => add32 (m.read32 (recordAddr a k)) (m.read32 (recordAddr b k))
  | .aliased acc other => add32 (m.read32 (recordAddr acc k)) (m.read32 (recordAddr other k))

/-- One chunk (R164, R165): `len` adders side by side on the words from `k` on; all sums are formed, then written. -/
def chunkStep (x : AliasCase) (a b out : Word) (len : Nat) (m : Memory) (k : Nat) : Memory :=
  writeWords m (recordAddr out k) ((List.range len).map fun j => adderSum x a b m (k + j))

/-- One counter at a time (R166, R167). -/
def scalarStep (x : AliasCase) (a b out : Word) (m : Memory) (k : Nat) : Memory :=
  m.write32 (recordAddr out k) (adderSum x a b m k)

/-- The word index at which each chunk of the fixed array that begins at word `start` begins (R164). -/
def chunkStarts (c : Config) (start : Nat) : List Nat := (List.range (c.nfix / c.chunk)).map fun k => start + k * c.chunk

/-- The accumulator as R164 to R167 describe it: the literal prefix and the three channel arrays in chunks, the literal suffix and the
distance array one counter at a time, in this order, every access on the memory as it then stands. -/
def haddWalk (c : Config) (p : Nat) (a b out : Word) (m : Memory) : Memory :=
  let x := aliasCase a b out
  let chunks := chunkStarts c (wordIndex c (.lit, 0)) ++ chunkStarts c (wordIndex c (.red, 0)) ++
    chunkStarts c (wordIndex c (.blue, 0)) ++ chunkStarts c (wordIndex c (.alpha, 0))
  let suffix := (List.range (litLen c p - c.nfix)).map fun i => wordIndex c (.lit, c.nfix + i)
  let dist := (List.range c.ndist).map fun i => wordIndex c (.dist, i)
  (suffix ++ dist).foldl (scalarStep x a b out) (chunks.foldl (chunkStep x a b out c.chunk) m)

end Sys2Proof.Machine
end

