-- ==== Sys2Proof/Machine/Subg.lean ====
section
/-! DEFINITION. `SUBG`, the subtract-green transform (spec/41_subtract_green.md). -/

namespace Sys2Proof.Machine

/-- The per-pixel function `SG` (R121). -/
def sg (p : Word) : Word := pix (alpha p) (red p - green p) (green p) (blue p - green p)

/-- The vector temporary `T[j]` (R122): green at the red and blue byte positions, zero elsewhere. -/
def greenSpread (p : Word) : Word := 0x00#8 ++ green p ++ 0x00#8 ++ green p

/-- The vector path on one group (R122). -/
def sgGroup (V : List Word) : List Word := V.map fun p => sub8x4 p (greenSpread p)

/-- The inverse of `SG` (R128), a derived property; the block has no command for it. -/
def sgInverse (q : Word) : Word := pix (alpha q) (red q + green q) (green q) (blue q + green q)

/-- `SUBG` read in a state (R120). -/
def subgPlan (s : State) : Plan := pixelPlan sg s

/-- `SUBG` (R120): `pixel_command(SG)`. -/
def execSubg (s : State) : Host.Outcome State Fault Refusal := (subgPlan s).run s

end Sys2Proof.Machine
end

