-- ==== Sys2Proof/Machine/Dispatch.lean ====
section
/-! DEFINITION. One arm per command, one call of its meaning (spec/40_common_execution.md R101). -/

namespace Sys2Proof.Machine

/-- The command in flight, from its checks to its retirement (R101). -/
def exec (i : Instr) (s : State) : Host.Outcome State Fault Refusal :=
  match i with
  | .subg => Sys2Proof.Machine.execSubg s
  | .ctrans g2r g2b r2b => Sys2Proof.Machine.execCtrans g2r g2b r2b s
  | .hadd => Sys2Proof.Machine.execHadd s

end Sys2Proof.Machine
end

