-- ==== Sys2Proof/Machine/Block.lean ====
section
/-! DEFINITION. The block: issue of a command word (spec/10_state.md R30), and its turns while a command is in flight
(spec/40_common_execution.md R100, spec/20_memory.md R66). -/

namespace Sys2Proof.Machine

/-- A command read in a state. -/
def planOf (i : Instr) (s : State) : Plan :=
  match i with
  | .subg => subgPlan s
  | .ctrans g2r g2b r2b => ctransPlan g2r g2b r2b s
  | .hadd => haddPlan s

/-- The footprint of a command word in a state (spec/20_memory.md R62); an illegal command touches no memory (R88). -/
def footprintOf (w : Word) (s : State) : Footprint :=
  match decodeCommand s.cap w with
  | .command i => (planOf i s).foot
  | .illegal _ => Footprint.empty

/-- The host hands over a footprint, beside whatever it has not yet taken back (spec/70_reset_and_hazards.md R230; log entry 8). -/
def Footprint.join (f g : Footprint) : Footprint := { reads := f.reads ++ g.reads, writes := f.writes ++ g.writes }

/-- A write of `w` to `CMD` (R30): an issue while `BUSY = 0` and `FAULT = 0`, dropped otherwise. -/
def writeCmd (w : Word) (s : State) : State :=
  if s.status.busy || s.status.fault then s
  else { s with cmd := w, status := s.status.issue, prog := some [], held := s.held.join (footprintOf w s) }

/-- The block runs the command in flight to its retirement (R101): an illegal word faults before anything else (R88). -/
def blockFinish (s : State) : Host.Outcome State Fault Refusal :=
  match decodeCommand s.cap s.cmd with
  | .command i => exec i s
  | .illegal _ => .next (raiseFault .illegalCmd s)

/-- The block spends one turn on element `k` of the command in flight (R66). -/
def blockElement (k : Nat) (s : State) : Host.Outcome State Fault Refusal :=
  match decodeCommand s.cap s.cmd with
  | .command i => (planOf i s).element k s
  | .illegal _ => .next (raiseFault .illegalCmd s)

end Sys2Proof.Machine
end

