-- ==== Sys2Proof/Machine/Bus.lean ====
section
/-! DEFINITION. The host's accesses: the register window (spec/10_state.md R23, R28 to R31), memory (spec/20_memory.md R54, R67, R73), and
the host actions of spec/30_encoding.md R92. -/

namespace Sys2Proof.Machine

/-! ### The register window -/

/-- The offset of a register (R28). -/
def Reg.offset : Reg → Nat
  | .cap    => 0x00
  | .status => 0x04
  | .cmd    => 0x08
  | .a0     => 0x0C
  | .a1     => 0x10
  | .a2     => 0x14
  | .n      => 0x18

/-- The register at an offset; `0x1C` is reserved (R28). -/
def regAt (offset : Nat) : Option Reg :=
  if offset = 0x00 then some .cap
  else if offset = 0x04 then some .status
  else if offset = 0x08 then some .cmd
  else if offset = 0x0C then some .a0
  else if offset = 0x10 then some .a1
  else if offset = 0x14 then some .a2
  else if offset = 0x18 then some .n
  else none

/-- An operand register as a register of the window. -/
def OperandReg.reg : OperandReg → Reg
  | .a0 => .a0
  | .a1 => .a1
  | .a2 => .a2
  | .n => .n

/-- What a read of `CAP` returns: the three implemented bits, bits 31:3 zero (R29). -/
def capWord (s : State) : Word := 0#29 ++ s.cap

/-- What a read of a register returns (R23, R29 to R31). -/
def readReg (r : Reg) (s : State) : Word :=
  match r with
  | .cap => capWord s
  | .status => s.status.word
  | .cmd => s.cmd
  | .a0 => s.a0
  | .a1 => s.a1
  | .a2 => s.a2
  | .n => s.n

/-- What a read of an aligned offset of the window returns; the reserved word reads as zero (R28). -/
def readWindow (offset : Nat) (s : State) : Word :=
  match regAt offset with
  | some r => readReg r s
  | none => 0#32

/-- A write to a register: dropped for the read-only ones (R28); operand registers only while `BUSY = 0` (R23); `CMD` by R30. -/
def writeReg (r : Reg) (v : Word) (s : State) : State :=
  match r with
  | .cap => s
  | .status => s
  | .cmd => writeCmd v s
  | .a0 => if s.status.busy then s else { s with a0 := v }
  | .a1 => if s.status.busy then s else { s with a1 := v }
  | .a2 => if s.status.busy then s else { s with a2 := v }
  | .n => if s.status.busy then s else { s with n := v }

/-- A write to an aligned offset of the window; the reserved word drops it (R28). -/
def writeWindow (offset : Nat) (v : Word) (s : State) : State :=
  match regAt offset with
  | some r => writeReg r v s
  | none => s

/-- The byte address of a register. -/
def regAddr (r : Reg) (s : State) : Nat := s.cfg.regBase + r.offset

/-- The host has read `STATUS`: if it read `BUSY = 0` it takes back all it had handed over (R67 (b), R230). Nothing of the block changes
(R31). -/
def observeStatus (s : State) : State := if s.status.busy then s else { s with held := Footprint.empty }

/-- The host notes what a read returned. -/
def note (v : Word) (s : State) : State := { s with seen := s.seen ++ [v] }

/-! ### Bus accesses -/

/-- Where an access goes. -/
inductive Target where
  /-- An aligned 32-bit access to the block's window, at this offset. -/
  | register (offset : Nat)
  /-- Plain memory. -/
  | memory
  | stuck (f : Fault)
  | refuse (r : Refusal)
  deriving DecidableEq, Repr

/-- Routes an access of `size` bytes at `a`: the own window takes aligned 32-bit accesses only (R28, U9); other windows and devices are
refused (U6); an address with no memory is a stop (U4). -/
def route (c : Config) (a size : Nat) : Target :=
  if rangesMeet (ownWindow c) { base := a, size := size } then
    (if size = 4 ∧ a % 4 = 0 then .register (a - c.regBase) else .refuse .windowAccess)
  else if isAbsent c { base := a, size := size } then .stuck .noMemory
  else if isWindowOrDevice c { base := a, size := size } then .refuse .deviceAccess
  else .memory

/-- A host read conflicts with the command in flight when it meets its write set (R213, R230). -/
def readRaces (s : State) (a size : Nat) : Bool := meetsAny s.held.writes { base := a, size := size }

/-- A host write conflicts when it meets the footprint (R213, R230). -/
def writeRaces (s : State) (a size : Nat) : Bool :=
  meetsAny s.held.reads { base := a, size := size } || meetsAny s.held.writes { base := a, size := size }

/-- A host write of the low bytes of `v` at address `a`. -/
def hostWrite (a : Nat) (w : Width) (v : Word) (s : State) : Host.Outcome State Fault Refusal :=
  match route s.cfg a w.bytes with
  | .register offset => .next (writeWindow offset v s)
  | .memory =>
    if writeRaces s a w.bytes then .refused .dataRace else .next { s with mem := s.mem.writeWidth a v w }
  | .stuck f => .fault f
  | .refuse r => .refused r

/-- A host read at address `a`. Only a read of `STATUS` tells the host that a command has retired (R67 (b)). -/
def hostRead (a : Nat) (w : Width) (s : State) : Host.Outcome State Fault Refusal :=
  match route s.cfg a w.bytes with
  | .register offset =>
    .next (note (readWindow offset s) (if regAt offset = some .status then observeStatus s else s))
  | .memory =>
    if readRaces s a w.bytes then .refused .dataRace else .next (note (s.mem.readWidth a w) s)
  | .stuck f => .fault f
  | .refuse r => .refused r

/-- A host action (R92). `wait` here is its last look at `STATUS`, the one that reads `BUSY = 0`; `Step` keeps the host waiting before
that. -/
def hostAct (a : HostAction) (s : State) : Host.Outcome State Fault Refusal :=
  match a with
  | .wr r v => hostWrite (regAddr r.reg s) .w32 v s
  | .rd r => hostRead (regAddr r s) .w32 s
  | .command w => hostWrite (regAddr .cmd s) .w32 w s
  | .wait => hostRead (regAddr .status s) .w32 s
  | .mw addr v => hostWrite addr.toNat .w32 v s
  | .mr addr => hostRead addr.toNat .w32 s
  | .busWrite addr w v => hostWrite addr.toNat w v s
  | .busRead addr w => hostRead addr.toNat w s

/-- What one event does. While the block is busy, a waiting host reads `BUSY = 1` and waits on, and the block has its turn (R92, R110):
the `wait` stays the next event. A turn of an idle block does nothing (spec/60_exceptions.md R209). -/
def handle (e : Event) (s : State) : Host.Outcome State Fault Refusal :=
  match e with
  | .host .wait => if s.status.busy then blockFinish { s with events := .host .wait :: s.events } else hostAct .wait s
  | .host a => hostAct a s
  | .element k => if s.status.busy then blockElement k s else .next s
  | .finish => if s.status.busy then blockFinish s else .next s
  | .reset => .next (resetBlock s)

end Sys2Proof.Machine
end

