-- ==== Sys2Proof/Machine/Step.lean ====
section
/-! DEFINITION. One step of the machine: the next event, or, with no event left, the block's own turn (spec/40_common_execution.md R110:
a busy block retires; spec/70_reset_and_hazards.md R220: an idle block stays idle). -/

namespace Sys2Proof.Machine

/-- One step. -/
def step (s : State) : Host.Outcome State Fault Refusal :=
  match s.events with
  | [] => if s.status.busy then blockFinish s else .next s
  | e :: rest => handle e { s with events := rest }

/-- The state in which the block's next turn runs the command word `w`: `w` has just been issued (R30) on a block that is neither busy nor
faulted, and the block's turn comes first. The block fetches nothing (R26), so this stands for the host's write to `CMD` (log
entry 2). -/
def State.withFetchWord (s : State) (nbits w : Nat) : State :=
  writeCmd (BitVec.ofNat 32 (w % 2 ^ nbits)) { s with events := .finish :: s.events, status := Status.zero }

end Sys2Proof.Machine
end

