-- ==== Sys2Proof/Machine/Assembler.lean ====
section
/-! DEFINITION. The assembler of spec/30_encoding.md R91: from a line of text to a command line, and from a command line to its word. Text is
a list of characters. -/

/-- The number an operand spells (R91). -/
def Sys2Proof.AsmOperand.value : Sys2Proof.AsmOperand → Int
  | .decimal v => v
  | .hex v => v

namespace Sys2Proof.Machine

/-- A command line (R91). -/
inductive AsmLine where
  | subg
  | ctrans (g2r g2b r2b : AsmOperand)
  | hadd
  deriving DecidableEq, Repr

/-- The 8-bit field of an operand: its value modulo 256 (R91). -/
def asmField (x : AsmOperand) : Byte := BitVec.ofInt 8 x.value

/-- The word of a command line; none when an operand is out of range (R91). -/
def assemble : AsmLine → Option Word
  | .subg => some (encode .subg)
  | .ctrans x y z =>
    if x.wellFormed && y.wellFormed && z.wellFormed then
      some (encode (.ctrans (asmField x) (asmField y) (asmField z)))
    else none
  | .hadd => some (encode .hadd)

/-! ### Reading a line -/

/-- A blank between the parts of a line. -/
def isBlank (c : Char) : Bool := c = ' ' || c = '\t'

/-- The text without blanks at its two ends. -/
def trimBlanks (t : List Char) : List Char := ((t.dropWhile isBlank).reverse.dropWhile isBlank).reverse

/-- `;` starts a comment (R91). -/
def stripComment (t : List Char) : List Char := t.takeWhile (· ≠ ';')

/-- The digit a character stands for in base `base`; hexadecimal letters in either case. -/
def digitOf (base : Nat) (c : Char) : Option Nat :=
  let n := c.toNat
  let d := if 48 ≤ n ∧ n ≤ 57 then some (n - 48)
    else if 97 ≤ n ∧ n ≤ 102 then some (n - 87)
    else if 65 ≤ n ∧ n ≤ 70 then some (n - 55)
    else none
  d.filter (· < base)

/-- A number without a sign, at least one digit. -/
def readNat (base : Nat) : List Char → Option Nat
  | [] => none
  | c :: t => (c :: t).foldl (fun acc c => acc.bind fun n => (digitOf base c).map fun d => n * base + d) (some 0)

/-- An operand: `0x` and hexadecimal digits, or a decimal with an optional `-` (R91). -/
def readOperand : List Char → Option AsmOperand
  | '0' :: 'x' :: t => (readNat 16 t).map .hex
  | '-' :: t => (readNat 10 t).map fun n => .decimal (-(n : Int))
  | t => (readNat 10 t).map fun n => .decimal n

/-- The pieces of a text between commas. -/
def splitCommas : List Char → List (List Char)
  | [] => [[]]
  | c :: t =>
    if c = ',' then [] :: splitCommas t
    else match splitCommas t with
      | [] => [[c]]
      | p :: ps => (c :: p) :: ps

/-- A line of text as a command line: mnemonic in lower or upper case, operands separated by commas, comment dropped (R91). DESIGN CHOICE,
log entry 20: R91 says "lower or upper case"; a mnemonic that mixes the two is taken as well. -/
def readLine (t : List Char) : Option AsmLine :=
  let body := trimBlanks (stripComment t)
  let mnemonic := (body.takeWhile fun c => !isBlank c).map Char.toLower
  let operands := trimBlanks (body.dropWhile fun c => !isBlank c)
  if mnemonic = ['s', 'u', 'b', 'g'] ∧ operands = [] then some .subg
  else if mnemonic = ['h', 'a', 'd', 'd'] ∧ operands = [] then some .hadd
  else if mnemonic = ['c', 't', 'r', 'a', 'n', 's'] then
    match (splitCommas operands).map fun p => readOperand (trimBlanks p) with
    | [some x, some y, some z] => some (.ctrans x y z)
    | _ => none
  else none

/-- A line of text as a command word. -/
def assembleText (t : List Char) : Option Word := (readLine t).bind assemble

end Sys2Proof.Machine
end

