-- ==== Sys2Proof/Safety.lean ====
section
/-! DEFINITION. What claims are stated in: the outcome of a step as data, plain memory (spec/20_memory.md R51, R64), a command in flight, and
the invariants of the machine. -/

namespace Sys2Proof.Machine

/-- The next state, where there is one. -/
def nextOf (o : Host.Outcome State Fault Refusal) : Option State :=
  match o with
  | .next s => some s
  | .fault _ => none
  | .refused _ => none

/-- The refusal, where there is one. -/
def refusalOf (o : Host.Outcome State Fault Refusal) : Option Refusal :=
  match o with
  | .next _ => none
  | .fault _ => none
  | .refused r => some r

/-- The stop with a fault, where there is one. -/
def faultOf (o : Host.Outcome State Fault Refusal) : Option Fault :=
  match o with
  | .next _ => none
  | .fault f => some f
  | .refused _ => none

/-- `k` steps, stopping at the first fault or refusal: `Host.Core.run` of the machine, at its own types. -/
def runSteps (k : Nat) (s : State) : Host.Outcome State Fault Refusal := Host.Core.run Sys2Proof.core k s

/-- Byte `x` is plain memory: inside the address space, outside the block's window, on no line of the memory map. -/
def plainAt (c : Config) (x : Nat) : Prop :=
  x < addressSpace ∧ ¬ (c.regBase ≤ x ∧ x < c.regBase + 0x20) ∧
    ∀ g ∈ c.map, ¬ (g.range.base ≤ x ∧ x < g.range.base + g.range.size)

/-- Byte `x` lies in a hole of the memory map: the platform has no memory there (U4). -/
def holeAt (c : Config) (x : Nat) : Prop :=
  ∃ g ∈ c.map, g.kind = .absent ∧ g.range.base ≤ x ∧ x < g.range.base + g.range.size

/-- Byte `x` is a register of this or another instance, or a device (U6). -/
def windowOrDeviceAt (c : Config) (x : Nat) : Prop :=
  (c.regBase ≤ x ∧ x < c.regBase + 0x20) ∨
    ∃ g ∈ c.map, g.kind ≠ .absent ∧ g.range.base ≤ x ∧ x < g.range.base + g.range.size

/-- The command `i` is in flight: the block is busy and `CMD` holds a word of `i`. -/
def inFlight (i : Instr) (s : State) : Prop :=
  s.status.busy = true ∧ decodeCommand s.cap s.cmd = .command i

/-- The bytes that the writes of a plan touch. -/
def writesByte (p : Plan) (x : Nat) : Prop := ∃ k ∈ p.domain, p.addr k ≤ x ∧ x < p.addr k + 4

/-- Some range of the list holds address `x`. -/
def inRanges (rs : List Range) (x : Nat) : Prop := ∃ r ∈ rs, r.base ≤ x ∧ x < r.base + r.size

/-- What the host guarantees for a pixel command in a state (spec/70_reset_and_hazards.md R228): an aligned base, a count that is not
negative, a buffer inside the address space and in plain memory. -/
def pixelContract (s : State) : Prop :=
  s.a0.toNat % 4 = 0 ∧ 0 ≤ s.n.toInt ∧ s.a0.toNat + 4 * s.n.toNat ≤ 2 ^ 32 ∧
    ∀ x, s.a0.toNat ≤ x → x < s.a0.toNat + 4 * s.n.toNat → plainAt s.cfg x

/-- A byte of one of the three records of `HADD`, of `HWORDS` words each (R58, R228). -/
def recordByte (s : State) (x : Nat) : Prop :=
  ∃ h, (h = s.a0 ∨ h = s.a1 ∨ h = s.a2) ∧ h.toNat ≤ x ∧ x < h.toNat + 4 * hwords s.cfg

/-- What the host guarantees for `HADD` (R228): aligned bases, records inside the address space, equal legal palette words, `out` the same
record as an input or disjoint from it, and all `HWORDS` words of each record in plain memory. The bound on the counters is left out:
without it the sum still has a value (R169, U2). -/
def histogramContract (s : State) : Prop :=
  (s.a0.toNat % 4 = 0 ∧ s.a1.toNat % 4 = 0 ∧ s.a2.toNat % 4 = 0) ∧
    (s.a0.toNat + 4 * hwords s.cfg ≤ 2 ^ 32 ∧ s.a1.toNat + 4 * hwords s.cfg ≤ 2 ^ 32 ∧ s.a2.toNat + 4 * hwords s.cfg ≤ 2 ^ 32) ∧
    ((s.mem.read32 s.a0.toNat).toNat ≤ s.cfg.pmax ∧ s.mem.read32 s.a1.toNat = s.mem.read32 s.a0.toNat) ∧
    (∀ h, h = s.a0 ∨ h = s.a1 →
      s.a2 = h ∨ s.a2.toNat + 4 * hwords s.cfg ≤ h.toNat ∨ h.toNat + 4 * hwords s.cfg ≤ s.a2.toNat) ∧
    ∀ x, recordByte s x → plainAt s.cfg x

/-- The preconditions of a command that one host can break by what it puts in the registers and in memory (R228). -/
def contractKept (i : Instr) (s : State) : Prop :=
  match i with
  | .subg => pixelContract s
  | .ctrans _ _ _ => pixelContract s
  | .hadd => histogramContract s

/-- A byte of one of the two palette words that `HADD` reads (R62). -/
def paletteByte (s : State) (x : Nat) : Prop :=
  ∃ h, (h = s.a0 ∨ h = s.a1) ∧ h.toNat ≤ x ∧ x < h.toNat + 4

/-- The state in which `HADD` on the records `a`, `b`, `out` has just been issued (R30), on the memory of `s`. -/
def accumulating (a b out : Word) (s : State) : State :=
  { s with a0 := a, a1 := b, a2 := out, status := Status.zero.issue, cmd := encode .hadd, prog := some [] }

/-- Two records share no byte (R72). -/
def recordsDisjoint (c : Config) (h k : Word) : Prop :=
  h.toNat + 4 * hwords c ≤ k.toNat ∨ k.toNat + 4 * hwords c ≤ h.toNat

/-- Everything but memory, `STATUS` and the progress set is as before: what every command leaves alone (spec/10_state.md R23,
spec/40_common_execution.md R103). -/
def sameBesidesResult (s t : State) : Prop :=
  t.cfg = s.cfg ∧ t.cap = s.cap ∧ t.cmd = s.cmd ∧ t.a0 = s.a0 ∧ t.a1 = s.a1 ∧ t.a2 = s.a2 ∧ t.n = s.n ∧
    t.events = s.events ∧ t.seen = s.seen ∧ t.held = s.held

/-- The invariant of the machine: legal parameters, memory in canonical form, a legal combination of the status bits (R31), the constant
`CAP` (R29), a progress set exactly while a command is in flight, listed in rising order (R36). -/
structure MachineInv (s : State) : Prop where
  config  : configOk s.cfg = true
  memory  : s.mem.wf = true
  status  : s.status.legal = true
  cap     : s.cap = s.cfg.capOps
  flight  : s.prog.isSome = s.status.busy
  rising  : (performed s).Pairwise (· < ·)

/-- The progress of the command in flight: its footprint is among the memory the host has handed over (R230), elements are written only
after the checks have passed, and only elements of its index domain (R36). -/
structure ProgressOk (s : State) : Prop where
  reads  : s.status.busy = true → ∀ r ∈ (footprintOf s.cmd s).reads, r ∈ s.held.reads
  writes : s.status.busy = true → ∀ r ∈ (footprintOf s.cmd s).writes, r ∈ s.held.writes
  passed : ∀ i, inFlight i s → performed s ≠ [] → (planOf i s).verdict = .go
  domain : ∀ i, inFlight i s → ∀ k ∈ performed s, k ∈ (planOf i s).domain
  none   : ∀ r, s.status.busy = true → decodeCommand s.cap s.cmd = .illegal r → performed s = []

end Sys2Proof.Machine
end

