-- ==== Sys2Proof/Certificates/Slice0/Obligations.lean ====
section
/-! DEFINITION. The statements for the provers, each with the rules of spec/ it rests on. -/

open Sys2Proof Sys2Proof.Machine

/-! ### Encoding and decoding (spec/30_encoding.md) -/

/-- spec/95_test_vectors.md T1: a few command words and what they decode to. -/
def Obligations.SampleWordsDecodeAsListed : Prop :=
  decodeWord 0x00000001#32 = .command .subg ∧
  decodeWord 0x00000003#32 = .command .hadd ∧
  decodeWord 0x12345602#32 = .command (.ctrans 0x56#8 0x34#8 0x12#8) ∧
  decodeWord 0xFFFFFF02#32 = .command (.ctrans 0xFF#8 0xFF#8 0xFF#8) ∧
  decodeWord 0x00000000#32 = .illegal .reservedOpcode ∧
  decodeWord 0x80000001#32 = .illegal .argNotZero ∧
  decodeWord 0x00000103#32 = .illegal .argNotZero ∧
  decodeWord 0x00000004#32 = .illegal .reservedOpcode ∧
  decodeWord 0xFFFFFFFF#32 = .illegal .reservedOpcode

/-- R82, R83, R86, R89: a word decodes to a command exactly when the command is implemented and the word is its encoding; so decoding
undoes encoding, every bit of a multiplier survives, and no other word is a command. -/
def Obligations.DecodeInvertsEncode : Prop :=
  ∀ (cap : BitVec 3) (w : Word) (i : Instr),
    decodeCommand cap w = .command i ↔ (i.wellFormed cap = true ∧ encode i = w)

/-- R85: the rows of the opcode map by match and mask, the multiplier fields of format M, the reserved opcodes, the all-zero word. -/
def Obligations.OpcodeMapRowsByMaskAndMatch : Prop :=
  ∀ w : Word,
    (decodeWord w = .command .subg ↔ w &&& 0xFFFFFFFF#32 = 0x00000001#32) ∧
    ((∃ g2r g2b r2b, decodeWord w = .command (.ctrans g2r g2b r2b)) ↔ w &&& 0x000000FF#32 = 0x00000002#32) ∧
    (w &&& 0x000000FF#32 = 0x00000002#32 →
      decodeWord w = .command (.ctrans (w.extractLsb' 8 8) (w.extractLsb' 16 8) (w.extractLsb' 24 8))) ∧
    (decodeWord w = .command .hadd ↔ w &&& 0xFFFFFFFF#32 = 0x00000003#32) ∧
    (w.extractLsb' 0 8 ≠ 0x01#8 → w.extractLsb' 0 8 ≠ 0x02#8 → w.extractLsb' 0 8 ≠ 0x03#8 →
      ∃ r, decodeWord w = .illegal r) ∧
    (∃ r, decodeWord 0#32 = .illegal r)

/-- R89: a command whose bit in `CAP_OPS` is 0 decodes to ILLEGAL; with `CAP = 0x7` the case does not arise. -/
def Obligations.ClearedCapabilityBitMakesACommandIllegal : Prop :=
  (∀ (cap : BitVec 3) (w : Word) (i : Instr), decodeWord w = .command i →
    (cap.getLsbD (match i with | .subg => 0 | .ctrans _ _ _ => 1 | .hadd => 2) = false →
      decodeCommand cap w = .illegal .notImplemented) ∧
    (cap.getLsbD (match i with | .subg => 0 | .ctrans _ _ _ => 1 | .hadd => 2) = true →
      decodeCommand cap w = .command i)) ∧
  (∀ w : Word, decodeCommand 0x7#3 w = decodeWord w)

/-- R88: the illegal words are those with a reserved `OPC` and those of format Z with a non-zero `ARG`; such a word is accepted by the
issue step and then retired with `ILLEGAL_CMD`, whatever the operand registers and the memory hold, and changes neither. -/
def Obligations.IllegalWordIsIssuedThenFaults : Prop :=
  (∀ w : Word, (∃ r, decodeWord w = .illegal r) ↔
    ((w.extractLsb' 0 8 ≠ 0x01#8 ∧ w.extractLsb' 0 8 ≠ 0x02#8 ∧ w.extractLsb' 0 8 ≠ 0x03#8) ∨
      ((w.extractLsb' 0 8 = 0x01#8 ∨ w.extractLsb' 0 8 = 0x03#8) ∧ w.extractLsb' 8 24 ≠ 0#24))) ∧
  (∀ (s : State) (w : Word) (r : Illegal), decodeWord w = .illegal r → s.status.busy = false → s.status.fault = false →
    (writeCmd w s).cmd = w ∧ (writeCmd w s).status.busy = true ∧
    blockFinish (writeCmd w s) = .next { writeCmd w s with
      status := { busy := false, done := false, fault := true, cause := 1#4 }, prog := none })

/-- R91: `ctrans g2r, g2b, r2b` assembles to `(r2b mod 256)*2^24 + (g2b mod 256)*2^16 + (g2r mod 256)*2^8 + 0x02` for operands in range,
in decimal or hexadecimal, and to nothing for operands out of range; `subg` and `hadd` assemble to their words; each spelling that
assembles decodes to its command. -/
def Obligations.AssembledWordsFollowTheFormula : Prop :=
  assemble .subg = some 0x00000001#32 ∧ assemble .hadd = some 0x00000003#32 ∧
  (∀ x y z : AsmOperand, x.wellFormed = true → y.wellFormed = true → z.wellFormed = true →
    ∃ w, assemble (.ctrans x y z) = some w ∧
      (w.toNat : Int) = (z.value % 256) * 2 ^ 24 + (y.value % 256) * 2 ^ 16 + (x.value % 256) * 2 ^ 8 + 0x02 ∧
      decodeWord w = .command (.ctrans (BitVec.ofInt 8 x.value) (BitVec.ofInt 8 y.value) (BitVec.ofInt 8 z.value))) ∧
  (∀ x y z : AsmOperand, ¬ (x.wellFormed = true ∧ y.wellFormed = true ∧ z.wellFormed = true) →
    assemble (.ctrans x y z) = none)

/-! ### Steps, issue and the register window (spec/10_state.md) -/

/-- R100, R101: with command `i` in flight, three events run its meaning: the block's own `finish`; an empty list of events, with
which only the block moves (log entry 1, DESIGN CHOICE); and a waiting host, which waits on (log entry 15, DESIGN CHOICE). -/
def Obligations.StepRunsTheCommandInFlight : Prop :=
  ∀ (s : State) (i : Instr) (rest : List Event), inFlight i s →
    (s.events = [] → step s = exec i s) ∧
    (s.events = .finish :: rest → step s = exec i { s with events := rest }) ∧
    (s.events = .host .wait :: rest → step s = exec i s)

/-- Log entry 2, R30: a placed command word is in flight, and the very next step runs it. -/
def Obligations.PlacedWordRunsAtTheNextStep : Prop :=
  ∀ (s : State) (w : Nat) (i : Instr), decodeCommand s.cap (BitVec.ofNat 32 (w % 2 ^ 32)) = .command i →
    inFlight i (s.withFetchWord 32 w) ∧
    step (s.withFetchWord 32 w) = exec i { s.withFetchWord 32 w with events := s.events } ∧
    (s.withFetchWord 32 w).mem = s.mem ∧ (s.withFetchWord 32 w).a0 = s.a0 ∧ (s.withFetchWord 32 w).a1 = s.a1 ∧
    (s.withFetchWord 32 w).a2 = s.a2 ∧ (s.withFetchWord 32 w).n = s.n

/-- R16, R209, R220: a block that is not busy starts nothing by itself. That the machine stays as it is with an empty list of events
is log entry 1, and that a turn offered to an idle block only uses up the turn is log entry 18 (both DESIGN CHOICE). -/
def Obligations.IdleBlockStartsNothing : Prop :=
  ∀ (s : State) (rest : List Event) (k : Nat), s.status.busy = false →
    (s.events = [] → step s = .next s) ∧
    (s.events = .finish :: rest → step s = .next { s with events := rest }) ∧
    (s.events = .element k :: rest → step s = .next { s with events := rest })

/-- R30: a host write to `CMD` while `BUSY = 0` and `FAULT = 0` is an issue, and the block then executes the word; while `BUSY = 1` or
`FAULT = 1` it is dropped. A read of `CMD` returns the stored word and has no side effect on the block; it is zero after reset. -/
def Obligations.CommandWritesIssueOrAreDropped : Prop :=
  (∀ (s : State) (w : Word), configOk s.cfg = true → s.status.busy = false → s.status.fault = false →
    ∃ t, handle (.host (.command w)) s = .next t ∧
      t.cmd = w ∧ t.status = { s.status with busy := true, done := false } ∧
      t.cfg = s.cfg ∧ t.cap = s.cap ∧ t.a0 = s.a0 ∧ t.a1 = s.a1 ∧ t.a2 = s.a2 ∧ t.n = s.n ∧ t.mem = s.mem ∧
      t.prog = some [] ∧
      (∀ i, decodeCommand s.cap w = .command i → blockFinish t = exec i t) ∧
      (∀ r, decodeCommand s.cap w = .illegal r → blockFinish t = .next (raiseFault .illegalCmd t))) ∧
  (∀ (s : State) (w : Word), configOk s.cfg = true → (s.status.busy = true ∨ s.status.fault = true) →
    handle (.host (.command w)) s = .next s) ∧
  (∀ s : State, configOk s.cfg = true → handle (.host (.rd .cmd)) s = .next { s with seen := s.seen ++ [s.cmd] }) ∧
  State.reset.cmd = 0#32

/-- R23: the host may read any operand register at any time, without side effect; a write while `BUSY = 0` replaces the whole register, a
write while `BUSY = 1` is dropped; no command writes an operand register. -/
def Obligations.OperandRegisterAccess : Prop :=
  (∀ s : State, configOk s.cfg = true →
    handle (.host (.rd .a0)) s = .next { s with seen := s.seen ++ [s.a0] } ∧
    handle (.host (.rd .a1)) s = .next { s with seen := s.seen ++ [s.a1] } ∧
    handle (.host (.rd .a2)) s = .next { s with seen := s.seen ++ [s.a2] } ∧
    handle (.host (.rd .n)) s = .next { s with seen := s.seen ++ [s.n] }) ∧
  (∀ (s : State) (v : Word), configOk s.cfg = true → s.status.busy = false →
    handle (.host (.wr .a0 v)) s = .next { s with a0 := v } ∧
    handle (.host (.wr .a1 v)) s = .next { s with a1 := v } ∧
    handle (.host (.wr .a2 v)) s = .next { s with a2 := v } ∧
    handle (.host (.wr .n v)) s = .next { s with n := v }) ∧
  (∀ (s : State) (r : OperandReg) (v : Word), configOk s.cfg = true → s.status.busy = true →
    handle (.host (.wr r v)) s = .next s) ∧
  (∀ (s t : State) (i : Instr), exec i s = .next t → t.a0 = s.a0 ∧ t.a1 = s.a1 ∧ t.a2 = s.a2 ∧ t.n = s.n)

/-- R28: the map of the window. An aligned 32-bit read at each offset returns the register there, the reserved offset reads as zero; writes
to the read-only registers and to the reserved offset are dropped; a read or write of the window that is not 32 bits wide or not
aligned is refused, also when only some of its bytes lie in the window (log entry 12, DEDUCED); the registers hold their reset values
after reset. The base is a multiple of `0x20`. -/
def Obligations.RegisterWindowMap : Prop :=
  (∀ (s : State) (base : Word), configOk s.cfg = true → base.toNat = s.cfg.regBase →
    s.cfg.regBase % 0x20 = 0 ∧
    (∃ t, handle (.host (.busRead (base + 0x04#32) .w32)) s = .next t ∧ t.seen = s.seen ++ [s.status.word] ∧
      { t with seen := s.seen, held := s.held } = s) ∧
    handle (.host (.busRead base .w32)) s = .next { s with seen := s.seen ++ [capWord s] } ∧
    handle (.host (.busRead (base + 0x08#32) .w32)) s = .next { s with seen := s.seen ++ [s.cmd] } ∧
    handle (.host (.busRead (base + 0x0C#32) .w32)) s = .next { s with seen := s.seen ++ [s.a0] } ∧
    handle (.host (.busRead (base + 0x10#32) .w32)) s = .next { s with seen := s.seen ++ [s.a1] } ∧
    handle (.host (.busRead (base + 0x14#32) .w32)) s = .next { s with seen := s.seen ++ [s.a2] } ∧
    handle (.host (.busRead (base + 0x18#32) .w32)) s = .next { s with seen := s.seen ++ [s.n] } ∧
    handle (.host (.busRead (base + 0x1C#32) .w32)) s = .next { s with seen := s.seen ++ [0#32] } ∧
    (∀ v : Word,
      handle (.host (.busWrite base .w32 v)) s = .next s ∧
      handle (.host (.busWrite (base + 0x04#32) .w32 v)) s = .next s ∧
      handle (.host (.busWrite (base + 0x1C#32) .w32 v)) s = .next s ∧
      handle (.host (.busWrite (base + 0x08#32) .w32 v)) s = .next (writeReg .cmd v s) ∧
      handle (.host (.busWrite (base + 0x0C#32) .w32 v)) s = .next (writeReg .a0 v s) ∧
      handle (.host (.busWrite (base + 0x10#32) .w32 v)) s = .next (writeReg .a1 v s) ∧
      handle (.host (.busWrite (base + 0x14#32) .w32 v)) s = .next (writeReg .a2 v s) ∧
      handle (.host (.busWrite (base + 0x18#32) .w32 v)) s = .next (writeReg .n v s))) ∧
  (∀ (s : State) (addr v : Word) (w : Width), configOk s.cfg = true →
    addr.toNat < s.cfg.regBase + 0x20 → s.cfg.regBase < addr.toNat + w.bytes → (w ≠ .w32 ∨ addr.toNat % 4 ≠ 0) →
    handle (.host (.busRead addr w)) s = .refused .windowAccess ∧
    handle (.host (.busWrite addr w v)) s = .refused .windowAccess) ∧
  (capWord State.reset = 0x00000007#32 ∧ State.reset.status.word = 0#32 ∧ State.reset.cmd = 0#32 ∧
    State.reset.a0 = 0#32 ∧ State.reset.a1 = 0#32 ∧ State.reset.a2 = 0#32 ∧ State.reset.n = 0#32)

/-- R31: the bits of `STATUS`, the zero bits among them; a read changes nothing in the block. -/
def Obligations.StatusReadsItsFieldsAndHardwiredZeros : Prop :=
  (∀ x : Status, x.word.getLsbD 0 = x.busy ∧ x.word.getLsbD 1 = x.done ∧ x.word.getLsbD 2 = x.fault ∧
    x.word.getLsbD 3 = false ∧ x.word.extractLsb' 4 4 = x.cause ∧ x.word.extractLsb' 8 24 = 0#24) ∧
  (∀ s : State, configOk s.cfg = true → ∃ t, handle (.host (.rd .status)) s = .next t ∧
    t.seen = s.seen ++ [s.status.word] ∧ { t with seen := s.seen, held := s.held } = s)

/-- R29: `CAP` has one bit for each command and reads as zero above; a read has no side effect; it is `0x7` after reset and in every state
that meets `MachineInv`, where `CAP_OPS = 7`; and no step from a state that meets `MachineInv` changes it, or the parameters (R21). -/
def Obligations.CapabilityRegisterReads : Prop :=
  (∀ s : State, (capWord s).getLsbD 0 = Instr.subg.wellFormed s.cap ∧
    (∀ g2r g2b r2b, (capWord s).getLsbD 1 = (Instr.ctrans g2r g2b r2b).wellFormed s.cap) ∧
    (capWord s).getLsbD 2 = Instr.hadd.wellFormed s.cap ∧ (capWord s).extractLsb' 3 29 = 0#29) ∧
  (∀ s : State, configOk s.cfg = true → handle (.host (.rd .cap)) s = .next { s with seen := s.seen ++ [capWord s] }) ∧
  (∀ s : State, MachineInv s → s.cfg.capOps = 0x7#3 → capWord s = 0x00000007#32) ∧
  (∀ s t : State, MachineInv s → step s = .next t → t.cap = s.cap ∧ t.cfg = s.cfg) ∧
  capWord State.reset = 0x00000007#32

/-! ### Reset (spec/10_state.md R37, spec/70_reset_and_hazards.md) -/

/-- R37: what reset leaves, in the state after reset and after a reset of any state: the register values, no progress set, memory as it
was. -/
def Obligations.ResetLeavesTheListedValues : Prop :=
  (∀ s : State, s.cfg.capOps = 0x7#3 → ∃ t, handle .reset s = .next t ∧
    capWord t = 0x00000007#32 ∧ t.status.word = 0#32 ∧
    t.status.busy = false ∧ t.status.done = false ∧ t.status.fault = false ∧ t.status.cause = 0#4 ∧
    t.cmd = 0#32 ∧ t.a0 = 0#32 ∧ t.a1 = 0#32 ∧ t.a2 = 0#32 ∧ t.n = 0#32 ∧ t.prog = none ∧ t.mem = s.mem) ∧
  capWord State.reset = 0x00000007#32 ∧ State.reset.status.word = 0#32 ∧
  State.reset.status.busy = false ∧ State.reset.status.done = false ∧ State.reset.status.fault = false ∧
  State.reset.status.cause = 0#4 ∧ State.reset.cmd = 0#32 ∧
  State.reset.a0 = 0#32 ∧ State.reset.a1 = 0#32 ∧ State.reset.a2 = 0#32 ∧ State.reset.n = 0#32 ∧ State.reset.prog = none

/-- R221: from a faulted state (with a legal combination of the status bits) every step that is not a reset keeps `FAULT` and `CAUSE`. -/
def Obligations.OnlyResetClearsAFault : Prop :=
  (∀ s t : State, s.status.legal = true → s.status.fault = true → step s = .next t →
    (∀ rest, s.events ≠ .reset :: rest) → t.status.fault = true ∧ t.status.cause = s.status.cause) ∧
  (∀ (s : State) (rest : List Event), s.events = .reset :: rest →
    ∃ t, step s = .next t ∧ t.status.fault = false ∧ t.status.cause = 0#4)

/-- R196: while `FAULT = 1` (and so `BUSY = 0`) a `CMD` write is dropped, operand writes are accepted, all registers can be read, and the
block's turns change no memory. -/
def Obligations.FaultedBlockTakesNoCommand : Prop :=
  ∀ s : State, configOk s.cfg = true → s.status.busy = false → s.status.fault = true →
    (∀ w, handle (.host (.command w)) s = .next s) ∧
    (∀ v, handle (.host (.wr .a0 v)) s = .next { s with a0 := v } ∧ handle (.host (.wr .a1 v)) s = .next { s with a1 := v } ∧
      handle (.host (.wr .a2 v)) s = .next { s with a2 := v } ∧ handle (.host (.wr .n v)) s = .next { s with n := v }) ∧
    (∀ r, ∃ t, handle (.host (.rd r)) s = .next t ∧ t.seen = s.seen ++ [readReg r s]) ∧
    handle .finish s = .next s ∧ (∀ k, handle (.element k) s = .next s)

/-- R195: when the checks of the command in flight fail with cause `c`, or its word is illegal, only `STATUS` changes: `BUSY <- 0`,
`FAULT <- 1`, `CAUSE <- c`, `DONE` as issue left it; the command is in flight no longer. It is so whether the block's turn runs the whole
command or is spent on one element (R100: the checks come first). -/
def Obligations.FaultEntryChangesOnlyStatus : Prop :=
  (∀ (s : State) (i : Instr) (c : Cause), (planOf i s).verdict = .trap c →
    exec i s = .next { s with
      status := { busy := false, done := s.status.done, fault := true, cause := c.code }, prog := none }) ∧
  (∀ (s : State) (i : Instr) (c : Cause) (k : Nat), decodeCommand s.cap s.cmd = .command i → (planOf i s).verdict = .trap c →
    blockElement k s = .next { s with
      status := { busy := false, done := s.status.done, fault := true, cause := c.code }, prog := none }) ∧
  (∀ (s : State) (r : Illegal) (k : Nat), decodeCommand s.cap s.cmd = .illegal r →
    blockFinish s = .next { s with
      status := { busy := false, done := s.status.done, fault := true, cause := 1#4 }, prog := none } ∧
    blockElement k s = .next { s with
      status := { busy := false, done := s.status.done, fault := true, cause := 1#4 }, prog := none }) ∧
  (∀ (s : State) (w : Word), s.status.busy = false → s.status.fault = false → (writeCmd w s).status.done = false)

/-! ### Faults in their order (spec/40_common_execution.md R102, spec/60_exceptions.md R192, R194) -/

/-- R101, R127, R149, R194: `SUBG` and `CTRANS` fault on a misaligned base, else on a negative count, else on a buffer that passes the top of
the address space; the first of these decides the cause, and nothing but `STATUS` changes. -/
def Obligations.PixelCommandsFaultInOrder : Prop :=
  ∀ (s : State) (i : Instr), (i = .subg ∨ ∃ g2r g2b r2b, i = .ctrans g2r g2b r2b) →
    (s.a0.toNat % 4 ≠ 0 → exec i s = .next { s with
      status := { busy := false, done := s.status.done, fault := true, cause := 2#4 }, prog := none }) ∧
    (s.a0.toNat % 4 = 0 → s.n.msb = true → exec i s = .next { s with
      status := { busy := false, done := s.status.done, fault := true, cause := 3#4 }, prog := none }) ∧
    (s.a0.toNat % 4 = 0 → s.n.msb = false → 2 ^ 32 < s.a0.toNat + 4 * s.n.toNat → exec i s = .next { s with
      status := { busy := false, done := s.status.done, fault := true, cause := 4#4 }, prog := none })

/-- R162, R168, R174, R194: `HADD` faults on a misaligned base, else on a record that passes the top of the address space, else, with both palette
words in plain memory, on a palette word above `PMAX`, else on two different palette words; nothing but `STATUS` changes. -/
def Obligations.HistogramAddFaultsInOrder : Prop :=
  ∀ s : State,
    ((s.a0.toNat % 4 ≠ 0 ∨ s.a1.toNat % 4 ≠ 0 ∨ s.a2.toNat % 4 ≠ 0) → exec .hadd s = .next { s with
      status := { busy := false, done := s.status.done, fault := true, cause := 2#4 }, prog := none }) ∧
    (s.a0.toNat % 4 = 0 → s.a1.toNat % 4 = 0 → s.a2.toNat % 4 = 0 →
      (2 ^ 32 < s.a0.toNat + 4 * hwords s.cfg ∨ 2 ^ 32 < s.a1.toNat + 4 * hwords s.cfg ∨
        2 ^ 32 < s.a2.toNat + 4 * hwords s.cfg) → exec .hadd s = .next { s with
      status := { busy := false, done := s.status.done, fault := true, cause := 4#4 }, prog := none }) ∧
    (s.a0.toNat % 4 = 0 → s.a1.toNat % 4 = 0 → s.a2.toNat % 4 = 0 →
      s.a0.toNat + 4 * hwords s.cfg ≤ 2 ^ 32 → s.a1.toNat + 4 * hwords s.cfg ≤ 2 ^ 32 → s.a2.toNat + 4 * hwords s.cfg ≤ 2 ^ 32 →
      (∀ x, s.a0.toNat ≤ x → x < s.a0.toNat + 4 → plainAt s.cfg x) →
      (∀ x, s.a1.toNat ≤ x → x < s.a1.toNat + 4 → plainAt s.cfg x) →
      ((s.cfg.pmax < (s.mem.read32 s.a0.toNat).toNat ∨ s.cfg.pmax < (s.mem.read32 s.a1.toNat).toNat) → exec .hadd s = .next { s with
        status := { busy := false, done := s.status.done, fault := true, cause := 5#4 }, prog := none }) ∧
      ((s.mem.read32 s.a0.toNat).toNat ≤ s.cfg.pmax → (s.mem.read32 s.a1.toNat).toNat ≤ s.cfg.pmax →
        s.mem.read32 s.a0.toNat ≠ s.mem.read32 s.a1.toNat → exec .hadd s = .next { s with
        status := { busy := false, done := s.status.done, fault := true, cause := 6#4 }, prog := none }))

/-! ### The color arithmetic (spec/41_subtract_green.md, spec/42_color_transform.md) -/

/-- R122: on every pixel of a group, the byte subtractions of the vector path give `SG`. -/
def Obligations.SubtractGreenLanesGiveTheChannels : Prop :=
  ∀ p : Word, sub8x4 p (greenSpread p) = sg p

/-- R126, R135: both transforms leave alpha and green alone. -/
def Obligations.TransformsKeepAlphaAndGreen : Prop :=
  (∀ p : Word, alpha (sg p) = alpha p ∧ green (sg p) = green p) ∧
  (∀ (g2r g2b r2b : Byte) (p : Word), alpha (ct g2r g2b r2b p) = alpha p ∧ green (ct g2r g2b r2b p) = green p)

/-- R128: `SG` is a bijection, with the inverse given there. -/
def Obligations.SubtractGreenIsReversible : Prop :=
  ∀ p : Word, sgInverse (sg p) = p ∧ sg (sgInverse p) = p

/-- R136: the multiplier lane is eight times the signed multiplier, between -1024 and 1016. -/
def Obligations.MultiplierLaneIsEightTimesTheMultiplier : Prop :=
  ∀ m : Byte, (m16 m).toInt = 8 * m.toInt ∧ -1024 ≤ (m16 m).toInt ∧ (m16 m).toInt ≤ 1016

/-- R139, R140: the multiply-high of a channel in the high byte of its lane and a multiplier lane is the signed delta, between -508 and
512. -/
def Obligations.MultiplyHighLaneHoldsTheDelta : Prop :=
  ∀ c m : Byte, (mulhi16 (c ++ 0x00#8) (m16 m)).toInt = (m.toInt * c.toInt) / 32 ∧
    -508 ≤ (mulhi16 (c ++ 0x00#8) (m16 m)).toInt ∧ (mulhi16 (c ++ 0x00#8) (m16 m)).toInt ≤ 512

/-- R144: the stage-by-stage pipeline equals the closed form, for every pixel and every multiplier set. -/
def Obligations.ColorPipelineEqualsClosedForm : Prop :=
  ∀ (g2r g2b r2b : Byte) (p : Word), ct g2r g2b r2b p = ctClosed g2r g2b r2b p

/-- R150: for a fixed multiplier set `CT` is a bijection, with the inverse given there. -/
def Obligations.ColorTransformIsReversible : Prop :=
  ∀ (g2r g2b r2b : Byte) (p : Word),
    ctInverse g2r g2b r2b (ct g2r g2b r2b p) = p ∧ ct g2r g2b r2b (ctInverse g2r g2b r2b p) = p

/-- R147: a zero `G2R` leaves red alone, zero `G2B` and `R2B` leave blue alone; with all three zero `CTRANS` leaves the whole memory as it
was, on every buffer it completes. -/
def Obligations.ZeroMultipliersChangeNothing : Prop :=
  (∀ (g2b r2b : Byte) (p : Word), red (ct 0#8 g2b r2b p) = red p) ∧
  (∀ (g2r : Byte) (p : Word), blue (ct g2r 0#8 0#8 p) = blue p) ∧
  (∀ s t : State, s.mem.wf = true → exec (.ctrans 0#8 0#8 0#8) s = .next t → t.mem = s.mem)

/-! ### Results, frames and completion of the commands -/

/-- R120, R121, R124: with an aligned base, a count that is not negative, a buffer inside the address space and in plain memory, `SUBG`
completes: `BUSY <- 0`, `DONE <- 1`, every pixel not yet written becomes `SG` of what it was, and every other byte is as before. -/
def Obligations.SubtractGreenCompletes : Prop :=
  ∀ s : State, s.mem.wf = true → s.a0.toNat % 4 = 0 → 0 ≤ s.n.toInt → s.a0.toNat + 4 * s.n.toNat ≤ 2 ^ 32 →
    (∀ x, s.a0.toNat ≤ x → x < s.a0.toNat + 4 * s.n.toNat → plainAt s.cfg x) →
    ∃ m : Memory, exec .subg s = .next { s with status := { s.status with busy := false, done := true }, mem := m, prog := none } ∧
      m.wf = true ∧
      (∀ i, i < s.n.toNat → m.read32 (s.a0.toNat + 4 * i) =
        if i ∈ performed s then s.mem.read32 (s.a0.toNat + 4 * i)
        else pix (alpha (s.mem.read32 (s.a0.toNat + 4 * i)))
          (red (s.mem.read32 (s.a0.toNat + 4 * i)) - green (s.mem.read32 (s.a0.toNat + 4 * i)))
          (green (s.mem.read32 (s.a0.toNat + 4 * i)))
          (blue (s.mem.read32 (s.a0.toNat + 4 * i)) - green (s.mem.read32 (s.a0.toNat + 4 * i)))) ∧
      (∀ x, ¬ (s.a0.toNat ≤ x ∧ x < s.a0.toNat + 4 * s.n.toNat) → m.get x = s.mem.get x)

/-- R135, R143, R146: the same for `CTRANS`, with the pipeline `CT` of its multiplier set. -/
def Obligations.ColorTransformCompletes : Prop :=
  ∀ (g2r g2b r2b : Byte) (s : State), s.mem.wf = true → s.a0.toNat % 4 = 0 → 0 ≤ s.n.toInt →
    s.a0.toNat + 4 * s.n.toNat ≤ 2 ^ 32 →
    (∀ x, s.a0.toNat ≤ x → x < s.a0.toNat + 4 * s.n.toNat → plainAt s.cfg x) →
    ∃ m : Memory, exec (.ctrans g2r g2b r2b) s =
        .next { s with status := { s.status with busy := false, done := true }, mem := m, prog := none } ∧
      m.wf = true ∧
      (∀ i, i < s.n.toNat → m.read32 (s.a0.toNat + 4 * i) =
        if i ∈ performed s then s.mem.read32 (s.a0.toNat + 4 * i)
        else ct g2r g2b r2b (s.mem.read32 (s.a0.toNat + 4 * i))) ∧
      (∀ x, ¬ (s.a0.toNat ≤ x ∧ x < s.a0.toNat + 4 * s.n.toNat) → m.get x = s.mem.get x)

/-- R101, R32, R160, R168: with aligned bases, records inside the address space, equal legal palette words, `out` identical to or disjoint
from each input, and all `HWORDS` words of each record in plain memory (R228), `HADD` completes: `BUSY <- 0`, `DONE <- 1`, every counter
not yet written becomes the sum modulo `2^32` of the two input counters, and every other byte is as before. -/
def Obligations.HistogramAddCompletes : Prop :=
  ∀ s : State, configOk s.cfg = true → s.mem.wf = true →
    s.a0.toNat % 4 = 0 → s.a1.toNat % 4 = 0 → s.a2.toNat % 4 = 0 →
    s.a0.toNat + 4 * hwords s.cfg ≤ 2 ^ 32 → s.a1.toNat + 4 * hwords s.cfg ≤ 2 ^ 32 → s.a2.toNat + 4 * hwords s.cfg ≤ 2 ^ 32 →
    (s.mem.read32 s.a0.toNat).toNat ≤ s.cfg.pmax → s.mem.read32 s.a1.toNat = s.mem.read32 s.a0.toNat →
    (s.a2 = s.a0 ∨ s.a2.toNat + 4 * hwords s.cfg ≤ s.a0.toNat ∨ s.a0.toNat + 4 * hwords s.cfg ≤ s.a2.toNat) →
    (s.a2 = s.a1 ∨ s.a2.toNat + 4 * hwords s.cfg ≤ s.a1.toNat ∨ s.a1.toNat + 4 * hwords s.cfg ≤ s.a2.toNat) →
    (∀ x, s.a0.toNat ≤ x → x < s.a0.toNat + 4 * hwords s.cfg → plainAt s.cfg x) →
    (∀ x, s.a1.toNat ≤ x → x < s.a1.toNat + 4 * hwords s.cfg → plainAt s.cfg x) →
    (∀ x, s.a2.toNat ≤ x → x < s.a2.toNat + 4 * hwords s.cfg → plainAt s.cfg x) →
    ∃ m : Memory, exec .hadd s = .next { s with status := { s.status with busy := false, done := true }, mem := m, prog := none } ∧
      m.wf = true ∧
      (∀ e ∈ counterDomain s.cfg (s.mem.read32 s.a0.toNat).toNat, m.read32 (counterAddr s.cfg s.a2 e) =
        if wordIndex s.cfg e ∈ performed s then s.mem.read32 (counterAddr s.cfg s.a2 e)
        else s.mem.read32 (counterAddr s.cfg s.a0 e) + s.mem.read32 (counterAddr s.cfg s.a1 e)) ∧
      (∀ x, (∀ e ∈ counterDomain s.cfg (s.mem.read32 s.a0.toNat).toNat,
        ¬ (counterAddr s.cfg s.a2 e ≤ x ∧ x < counterAddr s.cfg s.a2 e + 4)) → m.get x = s.mem.get x)

/-- R23, R27, R103, R111: the frame of the pixel commands. When one answers a next state, only memory, `STATUS` and the progress set differ; of
`STATUS` only `BUSY`, and either `DONE`, or `FAULT` and `CAUSE`; and of memory only the bytes of the pixels at `pixelAddr`. -/
def Obligations.PixelCommandFrame : Prop :=
  ∀ (s t : State) (i : Instr), (i = .subg ∨ ∃ g2r g2b r2b, i = .ctrans g2r g2b r2b) → s.mem.wf = true → exec i s = .next t →
    sameBesidesResult s t ∧
    (t.status = { s.status with busy := false, done := true } ∨
      (∃ c : Cause, t.status = { s.status with busy := false, fault := true, cause := c.code } ∧ t.mem = s.mem)) ∧
    (∀ x, (∀ k, k < (pixelCount s).toNat → ¬ (pixelAddr s k ≤ x ∧ x < pixelAddr s k + 4)) → t.mem.get x = s.mem.get x)

/-- The frame of `HADD`: as for the pixel commands, with the counters of the `out` record at `counterAddr`. -/
def Obligations.HistogramAddFrame : Prop :=
  ∀ (s t : State), configOk s.cfg = true → s.mem.wf = true → exec .hadd s = .next t →
    sameBesidesResult s t ∧
    (t.status = { s.status with busy := false, done := true } ∨
      (∃ c : Cause, t.status = { s.status with busy := false, fault := true, cause := c.code } ∧ t.mem = s.mem)) ∧
    (∀ x, (∀ e ∈ counterDomain s.cfg (palette s),
      ¬ (counterAddr s.cfg s.a2 e ≤ x ∧ x < counterAddr s.cfg s.a2 e + 4)) → t.mem.get x = s.mem.get x)

/-- R170: `HADD` does not write `out.PAL`, nor the padding of `out.LIT` beyond `LITLEN(p)`, nor any byte of `a` or `b` unless that record is
`out`. -/
def Obligations.HistogramAddLeavesPaletteAndPadding : Prop :=
  ∀ (s t : State), configOk s.cfg = true → s.mem.wf = true → exec .hadd s = .next t →
    t.mem.read32 s.a2.toNat = s.mem.read32 s.a2.toNat ∧
    (∀ i, litLen s.cfg (palette s) ≤ i → i < litCap s.cfg →
      t.mem.read32 (s.a2.toNat + 4 + 4 * i) = s.mem.read32 (s.a2.toNat + 4 + 4 * i)) ∧
    (s.a0 ≠ s.a2 → ∀ x, s.a0.toNat ≤ x → x < s.a0.toNat + 4 * hwords s.cfg → t.mem.get x = s.mem.get x) ∧
    (s.a1 ≠ s.a2 → ∀ x, s.a1.toNat ≤ x → x < s.a1.toNat + 4 * hwords s.cfg → t.mem.get x = s.mem.get x)

/-- R59, R169: where two live input counters are below `2^28`, the counter `HADD` stores for them is their exact sum as a number, and below
`2^29`. -/
def Obligations.CounterSumsAreExactWithinTheBound : Prop :=
  ∀ (s t : State) (e : Position), configOk s.cfg = true → s.mem.wf = true → exec .hadd s = .next t → t.status.done = true →
    s.status.done = false → performed s = [] → e ∈ counterDomain s.cfg (palette s) →
    (s.mem.read32 (counterAddr s.cfg s.a0 e)).toNat < counterBound → (s.mem.read32 (counterAddr s.cfg s.a1 e)).toNat < counterBound →
    (t.mem.read32 (counterAddr s.cfg s.a2 e)).toNat =
      (s.mem.read32 (counterAddr s.cfg s.a0 e)).toNat + (s.mem.read32 (counterAddr s.cfg s.a1 e)).toNat ∧
    (t.mem.read32 (counterAddr s.cfg s.a2 e)).toNat < 2 ^ 29

/-- R172: accumulating `b` and `a` gives what accumulating `a` and `b` gives, faults and stops included. -/
def Obligations.HistogramAddCommutes : Prop :=
  ∀ (s : State),
    (∀ t, exec .hadd s = .next t → exec .hadd { s with a0 := s.a1, a1 := s.a0 } = .next { t with a0 := s.a1, a1 := s.a0 }) ∧
    (∀ f, exec .hadd s = .fault f → exec .hadd { s with a0 := s.a1, a1 := s.a0 } = .fault f) ∧
    (∀ r, exec .hadd s = .refused r → exec .hadd { s with a0 := s.a1, a1 := s.a0 } = .refused r)

/-- R172 and S6: accumulating in place (`out = b`, or `out = a`) stores the counters that accumulating into a fresh record stores. -/
def Obligations.AliasedAccumulateMatchesAFreshOutput : Prop :=
  ∀ (s t u : State) (out : Word), configOk s.cfg = true → s.mem.wf = true → performed s = [] → s.status.done = false →
    (out = s.a0 ∨ out = s.a1) →
    exec .hadd s = .next t → t.status.done = true → exec .hadd { s with a2 := out } = .next u → u.status.done = true →
    ∀ e ∈ counterDomain s.cfg (palette s),
      u.mem.read32 (counterAddr s.cfg out e) = t.mem.read32 (counterAddr s.cfg s.a2 e)

/-- R51, R62: the write set and the read set. A command changes no byte outside the ranges it is said to write; those ranges hold exactly the
bytes of its elements; the ranges it is said to read hold exactly the pixels, or the two palette words and the live counters of both
inputs; and a command that faults changes no memory, is said to write none, and to read at most the two palette words of `HADD`. -/
def Obligations.WritesStayInsideTheFootprint : Prop :=
  (∀ (s t : State) (i : Instr), configOk s.cfg = true → s.mem.wf = true → exec i s = .next t →
    ∀ x, ¬ inRanges (planOf i s).foot.writes x → t.mem.get x = s.mem.get x) ∧
  (∀ (s : State) (i : Instr), configOk s.cfg = true → (planOf i s).verdict = .go →
    ∀ x, inRanges (planOf i s).foot.writes x ↔ writesByte (planOf i s) x) ∧
  (∀ (s : State) (i : Instr), (i = .subg ∨ ∃ g2r g2b r2b, i = .ctrans g2r g2b r2b) → (planOf i s).verdict = .go →
    ∀ x, inRanges (planOf i s).foot.reads x ↔ s.a0.toNat ≤ x ∧ x < s.a0.toNat + 4 * s.n.toNat) ∧
  (∀ s : State, (planOf .hadd s).verdict = .go → ∀ x, inRanges (planOf .hadd s).foot.reads x ↔
    (paletteByte s x ∨ ∃ e ∈ counterDomain s.cfg (palette s), ∃ h, (h = s.a0 ∨ h = s.a1) ∧
      counterAddr s.cfg h e ≤ x ∧ x < counterAddr s.cfg h e + 4)) ∧
  (∀ (s t : State) (i : Instr) (c : Cause), (planOf i s).verdict = .trap c → exec i s = .next t → t.mem = s.mem ∧
    (∀ x, ¬ inRanges (planOf i s).foot.writes x) ∧
    (∀ x, inRanges (planOf i s).foot.reads x → i = .hadd ∧ paletteByte s x))

/-- R190 (a), R213, R228: a command completes exactly when the host has kept the preconditions that `contractKept` lists: it then raises no
fault and changes no other status bit, and whenever it completes all of them held. -/
def Obligations.CommandsCompleteExactlyUnderTheContract : Prop :=
  ∀ (s : State) (i : Instr), s.status.done = false →
    (contractKept i s ↔ ∃ t, exec i s = .next t ∧ t.status = { s.status with busy := false, done := true })

/-! ### The paths of the document give the same memory (R105 to R108, R163 to R167, R171) -/

/-- R105, R107, R108, R122, R123: for every vector width, whole groups through the byte-lane datapath and the tail pixel by pixel leave the
memory that `SUBG` leaves. -/
def Obligations.SubtractGreenVectorPathIsBitIdentical : Prop :=
  ∀ (s t : State) (vpix : Nat), 1 ≤ vpix → s.mem.wf = true → performed s = [] → pixelTrap s = none → exec .subg s = .next t →
    t.mem = vectorWalk sgGroup sg vpix s.a0.toNat s.n.toNat s.mem

/-- R105, R107, R108, R145: the same for `CTRANS`, with the stage-by-stage pipeline on the groups and the closed form on the tail. -/
def Obligations.ColorTransformVectorPathIsBitIdentical : Prop :=
  ∀ (s t : State) (vpix : Nat) (g2r g2b r2b : Byte), 1 ≤ vpix → s.mem.wf = true → performed s = [] → pixelTrap s = none →
    exec (.ctrans g2r g2b r2b) s = .next t →
    t.mem = vectorWalk (ctGroup g2r g2b r2b) (ctClosed g2r g2b r2b) vpix s.a0.toNat s.n.toNat s.mem

/-- R163 to R167, R171: for every chunk size, the chunked adders on the four fixed arrays and the one-counter adder on the literal suffix
and the distance array, in the aliased and the non-aliased case, leave the memory that `HADD` leaves. -/
def Obligations.HistogramAdderPathsAgree : Prop :=
  ∀ (s t : State), configOk s.cfg = true → s.mem.wf = true → performed s = [] → (haddPlan s).verdict = .go →
    exec .hadd s = .next t → t.mem = haddWalk s.cfg (palette s) s.a0 s.a1 s.a2 s.mem

/-- R104: the bytes a command writes, and whether it completes or faults, depend on the command, the operand registers and the bytes of its
read set alone. -/
def Obligations.CommandIsAFunctionOfItsReadSet : Prop :=
  ∀ (s s' t : State) (i : Instr), configOk s.cfg = true → s.mem.wf = true → s'.mem.wf = true →
    s'.cfg = s.cfg → s'.a0 = s.a0 → s'.a1 = s.a1 → s'.a2 = s.a2 → s'.n = s.n → performed s = [] → performed s' = [] →
    (∀ x, inRanges (planOf i s).foot.reads x → s'.mem.get x = s.mem.get x) →
    exec i s = .next t →
    ∃ t', exec i s' = .next t' ∧
      ((planOf i s').verdict = (planOf i s).verdict) ∧
      (∀ x, inRanges (planOf i s).foot.writes x → t'.mem.get x = t.mem.get x)

/-! ### The life of a command: order, retirement, reset in mid-command -/

/-- R32, R110: a busy block retires, into `DONE` or into `FAULT` and never both, unless the spec leaves the command undefined. R110 says
eventually; that with an empty list of events it is the very next step is log entry 1 (DESIGN CHOICE). -/
def Obligations.BusyBlockRetires : Prop :=
  (∀ s t : State, s.status.busy = true → s.status.legal = true → s.events = [] → step s = .next t →
    t.status.busy = false ∧ t.status.fault = !t.status.done ∧ t.prog = none) ∧
  (∀ (s : State) (i : Instr), inFlight i s → s.events = [] →
    ((planOf i s).verdict = .go → ∃ t, step s = .next t ∧ t.status.done = true) ∧
    (∀ c, (planOf i s).verdict = .trap c → ∃ t, step s = .next t ∧ t.status.fault = true)) ∧
  (∀ (s : State) (r : Illegal), s.status.busy = true → decodeCommand s.cap s.cmd = .illegal r → s.events = [] →
    ∃ t, step s = .next t ∧ t.status.fault = true)

/-- Every step keeps the invariant `MachineInv`: legal parameters, memory in canonical form, a legal combination of the status bits, the constant
`CAP`, a progress set exactly while a command is in flight. -/
def Obligations.StepKeepsTheMachineInvariant : Prop :=
  ∀ s t : State, MachineInv s → step s = .next t → MachineInv t

/-- The state after reset meets both invariants, and so does every state after a reset that keeps `MachineInv`. -/
def Obligations.ResetMeetsTheInvariants : Prop :=
  MachineInv State.reset ∧ ProgressOk State.reset ∧ (∀ s, MachineInv s → MachineInv (resetBlock s) ∧ ProgressOk (resetBlock s))

/-- R36, R62, R230: every step keeps the progress of the command in flight: its footprint stays handed over, and only elements of its index
domain are written, after its checks have passed. -/
def Obligations.StepKeepsProgressInsideTheCommand : Prop :=
  ∀ s t : State, MachineInv s → ProgressOk s → step s = .next t → ProgressOk t

/-- R66, R67: whichever elements the block writes one by one, in whichever order, before it does the rest and retires, the state at
retirement is the one that performing the whole command in one step gives. The list `ks` may name an element twice or a number that is
no element: such a turn changes nothing (log entry 18, DESIGN CHOICE). That `finish` writes all that is left in one step is log entry 6
(DEDUCED). -/
def Obligations.ElementOrderIsUnobservable : Prop :=
  ∀ (s : State) (i : Instr) (ks : List Nat) (rest : List Event), MachineInv s → ProgressOk s → inFlight i s → (planOf i s).verdict = .go →
    runSteps (ks.length + 1) { s with events := ks.map Event.element ++ .finish :: rest } =
      step { s with events := .finish :: rest }

/-- R36, R223: a reset in mid-command, after the elements `ks` of the index domain have been written: each word of the write set holds its old
or its final value (final exactly for the elements of `ks`), every byte outside the write set is unchanged, and the registers have
their reset values. An element named twice in `ks` is written once (log entry 18, DESIGN CHOICE), and the rest of the events stays
(log entry 21, DEDUCED). -/
def Obligations.ResetInMidCommandLeavesOldOrNewWords : Prop :=
  ∀ (s : State) (i : Instr) (ks : List Nat) (rest : List Event), MachineInv s → ProgressOk s → inFlight i s → performed s = [] →
    (planOf i s).verdict = .go → (∀ k ∈ ks, k ∈ (planOf i s).domain) →
    ∃ t, runSteps (ks.length + 1) { s with events := ks.map Event.element ++ .reset :: rest } = .next t ∧
      (∀ k ∈ (planOf i s).domain, t.mem.read32 ((planOf i s).addr k) =
        if k ∈ ks then (planOf i s).value s.mem k else s.mem.read32 ((planOf i s).addr k)) ∧
      (∀ x, ¬ writesByte (planOf i s) x → t.mem.get x = s.mem.get x) ∧
      t.status = Status.zero ∧ t.cmd = 0#32 ∧ t.a0 = 0#32 ∧ t.a1 = 0#32 ∧ t.a2 = 0#32 ∧ t.n = 0#32 ∧ t.prog = none ∧
      t.events = rest

/-! ### What the spec leaves undefined stops (R52, R64, R72, R73, spec/93_implementation_defined.md U3 to U6) -/

/-- R72, U3: `HADD` that passes its checks, with `out` overlapping an input record without being it, is refused; that this comes before any
look at the memory of the counters is log entry 9 (DEDUCED). -/
def Obligations.PartialOverlapIsRefused : Prop :=
  ∀ (s : State) (h : Word), haddTrap s = none → palTrap s = none →
    (∀ x, s.a0.toNat ≤ x → x < s.a0.toNat + 4 → plainAt s.cfg x) →
    (∀ x, s.a1.toNat ≤ x → x < s.a1.toNat + 4 → plainAt s.cfg x) →
    (h = s.a0 ∨ h = s.a1) → s.a2 ≠ h →
    s.a2.toNat < h.toNat + 4 * hwords s.cfg → h.toNat < s.a2.toNat + 4 * hwords s.cfg →
    exec .hadd s = .refused .partialOverlap

/-- R52, R63, R64, U4, U6: a pixel command with legal registers whose buffer has a byte with no memory behind it stops with
`Fault.noMemory` (U4 allows stuck or refused: log entry 10); one whose buffer has a byte of a register window or a device, and no such
hole, is refused with `Refusal.notPlainMemory`; that a hole is reported first is log entry 11 (both DEDUCED). -/
def Obligations.BufferOutsidePlainMemoryStops : Prop :=
  ∀ (s : State) (i : Instr), (i = .subg ∨ ∃ g2r g2b r2b, i = .ctrans g2r g2b r2b) → pixelTrap s = none →
    ((∃ g ∈ s.cfg.map, g.kind = .absent ∧ ∃ x, g.range.base ≤ x ∧ x < g.range.base + g.range.size ∧
        s.a0.toNat ≤ x ∧ x < s.a0.toNat + 4 * s.n.toNat) → exec i s = .fault .noMemory) ∧
    ((∀ g ∈ s.cfg.map, g.kind = .absent → ∀ x, g.range.base ≤ x → x < g.range.base + g.range.size →
        ¬ (s.a0.toNat ≤ x ∧ x < s.a0.toNat + 4 * s.n.toNat)) →
      (∃ x, s.a0.toNat ≤ x ∧ x < s.a0.toNat + 4 * s.n.toNat ∧
        ((s.cfg.regBase ≤ x ∧ x < s.cfg.regBase + 0x20) ∨
          ∃ g ∈ s.cfg.map, g.kind ≠ .absent ∧ g.range.base ≤ x ∧ x < g.range.base + g.range.size)) →
      exec i s = .refused .notPlainMemory)

/-- R73, R213, R230, U5: while a command is in flight, and after it has retired until the host has read `BUSY = 0` (R230; log entry 8,
DEDUCED), a host access to plain memory is refused as a race when it writes a byte of the command's footprint or reads a byte of its
write set. In any state the same holds of the memory handed over and not yet taken back (`held`), and an access that does not race with
it is carried out, at any width and alignment (log entry 14, DESIGN CHOICE). Every step keeps what is handed over, but for a reset and
a read of `STATUS` that returns `BUSY = 0`, which give all of it back. -/
def Obligations.HostAccessRacesAreRefused : Prop :=
  (∀ (s t : State) (i : Instr) (addr v : Word) (w : Width), ProgressOk s → inFlight i s →
    (t = s ∨ blockFinish s = .next t) →
    (∀ x, addr.toNat ≤ x → x < addr.toNat + w.bytes → plainAt t.cfg x) →
    ((∃ x, addr.toNat ≤ x ∧ x < addr.toNat + w.bytes ∧
        (inRanges (planOf i s).foot.reads x ∨ inRanges (planOf i s).foot.writes x)) →
      handle (.host (.busWrite addr w v)) t = .refused .dataRace) ∧
    ((∃ x, addr.toNat ≤ x ∧ x < addr.toNat + w.bytes ∧ inRanges (planOf i s).foot.writes x) →
      handle (.host (.busRead addr w)) t = .refused .dataRace)) ∧
  (∀ (s : State) (addr v : Word) (w : Width),
    (∀ x, addr.toNat ≤ x → x < addr.toNat + w.bytes → plainAt s.cfg x) →
    ((∀ x, addr.toNat ≤ x → x < addr.toNat + w.bytes → ¬ inRanges s.held.writes x) →
      handle (.host (.busRead addr w)) s = .next { s with seen := s.seen ++ [s.mem.readWidth addr.toNat w] }) ∧
    ((∃ x, addr.toNat ≤ x ∧ x < addr.toNat + w.bytes ∧ inRanges s.held.writes x) →
      handle (.host (.busRead addr w)) s = .refused .dataRace) ∧
    ((∀ x, addr.toNat ≤ x → x < addr.toNat + w.bytes → ¬ inRanges s.held.reads x ∧ ¬ inRanges s.held.writes x) →
      handle (.host (.busWrite addr w v)) s = .next { s with mem := s.mem.writeWidth addr.toNat v w }) ∧
    ((∃ x, addr.toNat ≤ x ∧ x < addr.toNat + w.bytes ∧ (inRanges s.held.reads x ∨ inRanges s.held.writes x)) →
      handle (.host (.busWrite addr w v)) s = .refused .dataRace)) ∧
  (∀ s t : State, step s = .next t →
    ((∀ r ∈ s.held.reads, r ∈ t.held.reads) ∧ (∀ r ∈ s.held.writes, r ∈ t.held.writes)) ∨
    (t.held = Footprint.empty ∧
      ((∃ rest, s.events = .reset :: rest) ∨ (s.status.busy = false ∧ t.seen = s.seen ++ [s.status.word])))) ∧
  (∀ s : State, configOk s.cfg = true → ∃ t, handle (.host (.rd .status)) s = .next t ∧
    t.held = if s.status.busy then s.held else Footprint.empty)

/-! ### Host memory accesses and programs (spec/20_memory.md R53, R54, R63; spec/30_encoding.md R92) -/

/-- R53, R54: at the address of a pixel in plain memory that no command may write, a byte read by the host returns blue, then green, red,
alpha; a 16-bit read returns lane 0, and lane 1 two bytes further; a 32-bit read the pixel; and a read changes nothing else. That what is
narrower than a word is extended with zeros, and that the address may have any alignment, is log entry 14 (DESIGN CHOICE). -/
def Obligations.NarrowReadsSeeTheChannels : Prop :=
  ∀ (s : State) (addr p : Word), s.mem.read32 addr.toNat = p →
    (∀ j, j < 4 → plainAt s.cfg (addr.toNat + j) ∧ ¬ inRanges s.held.writes (addr.toNat + j)) →
    handle (.host (.busRead addr .w8)) s = .next { s with seen := s.seen ++ [(blue p).setWidth 32] } ∧
    handle (.host (.busRead (addr + 1#32) .w8)) s = .next { s with seen := s.seen ++ [(green p).setWidth 32] } ∧
    handle (.host (.busRead (addr + 2#32) .w8)) s = .next { s with seen := s.seen ++ [(red p).setWidth 32] } ∧
    handle (.host (.busRead (addr + 3#32) .w8)) s = .next { s with seen := s.seen ++ [(alpha p).setWidth 32] } ∧
    handle (.host (.busRead addr .w16)) s = .next { s with seen := s.seen ++ [(lane16 p 0).setWidth 32] } ∧
    handle (.host (.busRead (addr + 2#32) .w16)) s = .next { s with seen := s.seen ++ [(lane16 p 1).setWidth 32] } ∧
    handle (.host (.busRead addr .w32)) s = .next { s with seen := s.seen ++ [p] }

/-- R53, R63: what a host writes to plain memory it has not handed over it reads back, in little-endian bytes, and every other byte is as
before: with `mw` and `mr`, and with a bus write and a bus read of one width. That an access is 1, 2 or 4 bytes at any alignment, and that
a narrow read is extended with zeros, is log entry 14 (DESIGN CHOICE). -/
def Obligations.HostWordsReadBack : Prop :=
  (∀ (s : State) (addr v : Word), s.mem.wf = true → (∀ j, j < 4 → plainAt s.cfg (addr.toNat + j)) →
    (∀ j, j < 4 → ¬ inRanges s.held.reads (addr.toNat + j) ∧ ¬ inRanges s.held.writes (addr.toNat + j)) →
    ∃ t, handle (.host (.mw addr v)) s = .next t ∧
      handle (.host (.mr addr)) t = .next { t with seen := s.seen ++ [v] } ∧
      t.mem.get addr.toNat = v.extractLsb' 0 8 ∧ t.mem.get (addr.toNat + 1) = v.extractLsb' 8 8 ∧
      t.mem.get (addr.toNat + 2) = v.extractLsb' 16 8 ∧ t.mem.get (addr.toNat + 3) = v.extractLsb' 24 8 ∧
      (∀ x, ¬ (addr.toNat ≤ x ∧ x < addr.toNat + 4) → t.mem.get x = s.mem.get x) ∧
      { t with mem := s.mem } = s) ∧
  (∀ (s : State) (addr v : Word) (w : Width), s.mem.wf = true → (∀ j, j < w.bytes → plainAt s.cfg (addr.toNat + j)) →
    (∀ j, j < w.bytes → ¬ inRanges s.held.reads (addr.toNat + j) ∧ ¬ inRanges s.held.writes (addr.toNat + j)) →
    ∃ t, handle (.host (.busWrite addr w v)) s = .next t ∧
      handle (.host (.busRead addr w)) t =
        .next { t with seen := s.seen ++ [BitVec.ofNat 32 (v.toNat % 2 ^ (8 * w.bytes))] } ∧
      (∀ j, j < w.bytes → t.mem.get (addr.toNat + j) = v.extractLsb' (8 * j) 8) ∧
      (∀ x, ¬ (addr.toNat ≤ x ∧ x < addr.toNat + w.bytes) → t.mem.get x = s.mem.get x) ∧
      { t with mem := s.mem } = s)

/-- R67, R92, R226: `subg.run base, n` on an idle, unfaulted block with a legal plain buffer the host holds: five steps later the command has
completed, `STATUS` reads `0x00000002`, the buffer holds the transformed pixels, the registers hold what the host wrote, and the
host has its memory back. The number of steps, and that `wait` notes one value of `STATUS`, are
log entry 15 (DESIGN CHOICE). -/
def Obligations.SubgRunTransformsTheBuffer : Prop :=
  ∀ (s : State) (base n : Word) (rest : List Event), MachineInv s → s.status.busy = false → s.status.fault = false →
    Instr.subg.wellFormed s.cap = true →
    base.toNat % 4 = 0 → 0 ≤ n.toInt → base.toNat + 4 * n.toNat ≤ 2 ^ 32 →
    (∀ x, base.toNat ≤ x → x < base.toNat + 4 * n.toNat → plainAt s.cfg x) →
    ∃ t, runSteps 5 { s with events := (subgRun base n).map Event.host ++ rest } = .next t ∧
      t.status.word = 0x00000002#32 ∧ t.cmd = 0x00000001#32 ∧ t.a0 = base ∧ t.n = n ∧ t.a1 = s.a1 ∧ t.a2 = s.a2 ∧
      t.events = rest ∧ t.seen = s.seen ++ [0x00000002#32] ∧ t.held = Footprint.empty ∧
      (∀ i, i < n.toNat → t.mem.read32 (base.toNat + 4 * i) = sg (s.mem.read32 (base.toNat + 4 * i))) ∧
      (∀ x, ¬ (base.toNat ≤ x ∧ x < base.toNat + 4 * n.toNat) → t.mem.get x = s.mem.get x)

/-- R67, R92, R226: the same for `ctrans.run base, n, g2r, g2b, r2b`. The number of steps, and that `wait` notes one value of `STATUS`, are
log entry 15 (DESIGN CHOICE). -/
def Obligations.CtransRunTransformsTheBuffer : Prop :=
  ∀ (s : State) (base n : Word) (g2r g2b r2b : Byte) (rest : List Event), MachineInv s → s.status.busy = false → s.status.fault = false →
    (Instr.ctrans g2r g2b r2b).wellFormed s.cap = true →
    base.toNat % 4 = 0 → 0 ≤ n.toInt → base.toNat + 4 * n.toNat ≤ 2 ^ 32 →
    (∀ x, base.toNat ≤ x → x < base.toNat + 4 * n.toNat → plainAt s.cfg x) →
    ∃ t, runSteps 5 { s with events := (ctransRun base n g2r g2b r2b).map Event.host ++ rest } = .next t ∧
      t.status.word = 0x00000002#32 ∧ t.cmd = r2b ++ g2b ++ g2r ++ 0x02#8 ∧ t.a0 = base ∧ t.n = n ∧
      t.a1 = s.a1 ∧ t.a2 = s.a2 ∧ t.events = rest ∧ t.seen = s.seen ++ [0x00000002#32] ∧ t.held = Footprint.empty ∧
      (∀ i, i < n.toNat → t.mem.read32 (base.toNat + 4 * i) = ct g2r g2b r2b (s.mem.read32 (base.toNat + 4 * i))) ∧
      (∀ x, ¬ (base.toNat ≤ x ∧ x < base.toNat + 4 * n.toNat) → t.mem.get x = s.mem.get x)

/-- R67, R92, R226, R228: `hadd.run a, b, out` on an idle, unfaulted block whose host keeps `histogramContract`: six steps later the
command has completed, `STATUS` reads `0x00000002`, every live counter of `out` is the sum of the two input counters, and every other byte
is as before. The number of steps, and that `wait` notes one value of `STATUS`, are log entry 15 (DESIGN CHOICE). -/
def Obligations.HaddRunAccumulatesTheRecords : Prop :=
  ∀ (s : State) (a b out : Word) (rest : List Event), MachineInv s → s.status.busy = false → s.status.fault = false →
    Instr.hadd.wellFormed s.cap = true → histogramContract { s with a0 := a, a1 := b, a2 := out } →
    ∃ t, runSteps 6 { s with events := (haddRun a b out).map Event.host ++ rest } = .next t ∧
      t.status.word = 0x00000002#32 ∧ t.cmd = 0x00000003#32 ∧ t.a0 = a ∧ t.a1 = b ∧ t.a2 = out ∧ t.n = s.n ∧
      t.events = rest ∧ t.seen = s.seen ++ [0x00000002#32] ∧ t.held = Footprint.empty ∧
      (∀ e ∈ counterDomain s.cfg (s.mem.read32 a.toNat).toNat, t.mem.read32 (counterAddr s.cfg out e) =
        s.mem.read32 (counterAddr s.cfg a e) + s.mem.read32 (counterAddr s.cfg b e)) ∧
      (∀ x, (∀ e ∈ counterDomain s.cfg (s.mem.read32 a.toNat).toNat,
        ¬ (counterAddr s.cfg out e ≤ x ∧ x < counterAddr s.cfg out e + 4)) → t.mem.get x = s.mem.get x)

/-! ### Element turns, associativity, and where `HADD` stops -/

/-- R61, R66, R100: one turn of the block spent on element `k`, after passed checks. It writes that one word, its value taken from the memory
before the turn, and notes it in the progress set; every other byte, every register and `STATUS` are as before. A turn for a number that
is no element, or for one that is written already, changes nothing (log entry 18, DESIGN CHOICE). -/
def Obligations.ElementTurnWritesOneWord : Prop :=
  ∀ (s : State) (i : Instr) (k : Nat), MachineInv s → decodeCommand s.cap s.cmd = .command i → (planOf i s).verdict = .go →
    (k ∈ (planOf i s).domain → k ∉ performed s →
      ∃ (m : Memory) (q : List Nat), blockElement k s = .next { s with mem := m, prog := some q } ∧
        m.wf = true ∧ m.read32 ((planOf i s).addr k) = (planOf i s).value s.mem k ∧
        (∀ x, ¬ ((planOf i s).addr k ≤ x ∧ x < (planOf i s).addr k + 4) → m.get x = s.mem.get x) ∧
        (∀ j, j ∈ q ↔ j = k ∨ j ∈ performed s) ∧ q.Pairwise (· < ·)) ∧
    (k ∉ (planOf i s).domain ∨ k ∈ performed s → blockElement k s = .next s)

/-- R172, S5: associativity, counter by counter. Accumulating `a` and `b` into a record `x` and then `x` and `c` into `y` stores in `y` what
accumulating `b` and `c` into `x` and then `a` and `x` into `y` stores, where `x` shares no byte with `a` and `c` and all four commands
complete (so `x` holds the palette word of the inputs, R170). -/
def Obligations.HistogramAddAssociates : Prop :=
  ∀ (s t t' u u' : State) (a b c x y : Word), configOk s.cfg = true → s.mem.wf = true →
    recordsDisjoint s.cfg x a → recordsDisjoint s.cfg x c →
    exec .hadd (accumulating a b x s) = .next t → t.status.done = true →
    exec .hadd (accumulating x c y t) = .next t' → t'.status.done = true →
    exec .hadd (accumulating b c x s) = .next u → u.status.done = true →
    exec .hadd (accumulating a x y u) = .next u' → u'.status.done = true →
    ∀ e ∈ counterDomain s.cfg (s.mem.read32 a.toNat).toNat,
      t'.mem.read32 (counterAddr s.cfg y e) = u'.mem.read32 (counterAddr s.cfg y e)

/-- R52, R63, R64, R228, U4, U6: `HADD` with legal bases stops with `Fault.noMemory` when a byte of a palette word has no memory behind it,
and is refused with `Refusal.notPlainMemory` when one is a register or a device and none is a hole; with the palette words plain and legal
and `out` identical to or disjoint from each input, the same holds of every byte of the three records, those that the command does not
touch among them (log entry 10). U4 allows stuck or refused (log entry 10), a hole is reported first (log entry 11), and the order of these
looks and the checks is log entry 9 (all DEDUCED). -/
def Obligations.HistogramOutsidePlainMemoryStops : Prop :=
  ∀ s : State, haddTrap s = none →
    ((∃ x, paletteByte s x ∧ holeAt s.cfg x) → exec .hadd s = .fault .noMemory) ∧
    ((∀ x, paletteByte s x → ¬ holeAt s.cfg x) → (∃ x, paletteByte s x ∧ windowOrDeviceAt s.cfg x) →
      exec .hadd s = .refused .notPlainMemory) ∧
    ((∀ x, paletteByte s x → plainAt s.cfg x) → palTrap s = none →
      (s.a2 = s.a0 ∨ recordsDisjoint s.cfg s.a2 s.a0) → (s.a2 = s.a1 ∨ recordsDisjoint s.cfg s.a2 s.a1) →
      ((∃ x, recordByte s x ∧ holeAt s.cfg x) → exec .hadd s = .fault .noMemory) ∧
      ((∀ x, recordByte s x → ¬ holeAt s.cfg x) → (∃ x, recordByte s x ∧ windowOrDeviceAt s.cfg x) →
        exec .hadd s = .refused .notPlainMemory))
end

