-- ==== Sys2Proof/Laws/Memory.lean ====
section
/-! SUPPORT. The laws of memory: reads after writes, the canonical form, and that memories in canonical form with equal bytes are
equal. -/

namespace Sys2Proof.Machine

/-! ### The canonical form -/

theorem Memory.wfFrom_mono {lo lo' : Nat} (h : lo' ≤ lo) {m : Memory} (w : Memory.wfFrom lo m = true) :
    Memory.wfFrom lo' m = true := by
  cases m with
  | nil => rfl
  | cons c m =>
    obtain ⟨b, v⟩ := c
    simp only [Memory.wfFrom, Bool.and_eq_true, decide_eq_true_eq] at w ⊢
    exact ⟨⟨⟨Nat.le_trans h w.1.1.1, w.1.1.2⟩, w.1.2⟩, w.2⟩

theorem Memory.get_below {lo : Nat} {m : Memory} (w : Memory.wfFrom lo m = true) {a : Nat} (h : a < lo) :
    m.get a = unlistedByte := by
  induction m generalizing lo with
  | nil => rfl
  | cons c m ih =>
    obtain ⟨b, v⟩ := c
    simp only [Memory.wfFrom, Bool.and_eq_true, decide_eq_true_eq] at w
    have hab : a ≠ b := by omega
    simp only [Memory.get, if_neg hab]
    exact ih w.2 (by omega)

theorem Memory.set_wfFrom {lo : Nat} {m : Memory} (w : Memory.wfFrom lo m = true) {a : Nat} (hlo : lo ≤ a)
    (ha : a < addressSpace) (v : Byte) : Memory.wfFrom lo (m.set a v) = true := by
  induction m generalizing lo with
  | nil =>
    simp only [Memory.set]
    split
    · rfl
    · simp only [Memory.wfFrom, Bool.and_eq_true, decide_eq_true_eq, and_true]
      exact ⟨⟨hlo, ha⟩, by assumption⟩
  | cons c m ih =>
    obtain ⟨b, u⟩ := c
    have w' := w
    simp only [Memory.wfFrom, Bool.and_eq_true, decide_eq_true_eq] at w
    simp only [Memory.set]
    split
    · split
      · exact w'
      · simp only [Memory.wfFrom, Bool.and_eq_true, decide_eq_true_eq]
        exact ⟨⟨⟨hlo, ha⟩, by assumption⟩, ⟨⟨⟨by omega, w.1.1.2⟩, w.1.2⟩, w.2⟩⟩
    · split
      · split
        · exact Memory.wfFrom_mono (by omega) w.2
        · simp only [Memory.wfFrom, Bool.and_eq_true, decide_eq_true_eq]
          refine ⟨⟨⟨hlo, ha⟩, by assumption⟩, Memory.wfFrom_mono (by omega) w.2⟩
      · simp only [Memory.wfFrom, Bool.and_eq_true, decide_eq_true_eq]
        exact ⟨w.1, ih w.2 (by omega)⟩

theorem Memory.wf_nil : Memory.wf [] = true := rfl

/-- A write keeps the canonical form. -/
theorem Memory.set_wf {m : Memory} (w : m.wf = true) {a : Nat} (ha : a < addressSpace) (v : Byte) :
    (m.set a v).wf = true := Memory.set_wfFrom w (Nat.zero_le a) ha v

theorem Memory.write32_wf {m : Memory} (w : m.wf = true) {a : Nat} (ha : a + 4 ≤ addressSpace) (v : Word) :
    (m.write32 a v).wf = true :=
  Memory.set_wf (Memory.set_wf (Memory.set_wf (Memory.set_wf w (by omega) _) (by omega) _) (by omega) _) (by omega) _

theorem Memory.writeWidth_wf {m : Memory} (w : m.wf = true) {a : Nat} {n : Width} (ha : a + n.bytes ≤ addressSpace) (v : Word) :
    (m.writeWidth a v n).wf = true := by
  cases n with
  | w8 => exact Memory.set_wf w (Nat.lt_of_succ_le ha) _
  | w16 =>
    have h : a + 2 ≤ addressSpace := ha
    exact Memory.set_wf (Memory.set_wf w (by omega) _) (by omega) _
  | w32 => exact Memory.write32_wf w ha v

/-! ### Reads after writes -/

theorem Memory.get_setFrom {lo : Nat} {m : Memory} (w : Memory.wfFrom lo m = true) (a x : Nat) (v : Byte) :
    (m.set a v).get x = if x = a then v else m.get x := by
  induction m generalizing lo with
  | nil =>
    simp only [Memory.set]
    by_cases hv : v = unlistedByte <;> by_cases hx : x = a <;> simp [Memory.get, hv, hx]
  | cons c m ih =>
    obtain ⟨b, u⟩ := c
    have w' := w
    simp only [Memory.wfFrom, Bool.and_eq_true, decide_eq_true_eq] at w
    simp only [Memory.set]
    split
    next hab =>
      split
      next hv =>
        by_cases hx : x = a
        · subst hx
          rw [if_pos rfl, hv]
          refine Memory.get_below (lo := b) ?_ hab
          simp only [Memory.wfFrom, Bool.and_eq_true, decide_eq_true_eq]
          exact ⟨⟨⟨Nat.le_refl b, w.1.1.2⟩, w.1.2⟩, w.2⟩
        · rw [if_neg hx]
      next hv => simp only [Memory.get]
    next hab =>
      split
      next hEq =>
        subst hEq
        split
        next hv =>
          by_cases hx : x = a
          · subst hx
            rw [if_pos rfl, hv]
            exact Memory.get_below w.2 (by omega)
          · simp only [Memory.get, if_neg hx]
        next hv =>
          by_cases hx : x = a <;> simp [Memory.get, hx]
      next hne =>
        simp only [Memory.get, ih w.2]
        by_cases hx : x = b
        · subst hx; rw [if_pos rfl, if_neg (by omega), if_pos rfl]
        · simp [hx]

/-- The byte written is read back and every other byte is left alone. -/
theorem Memory.get_set {m : Memory} (w : m.wf = true) (a x : Nat) (v : Byte) :
    (m.set a v).get x = if x = a then v else m.get x := Memory.get_setFrom w a x v

theorem byteOf_append (a b c d : Byte) :
    byteOf (a ++ b ++ c ++ d) 0 = d ∧ byteOf (a ++ b ++ c ++ d) 1 = c ∧
      byteOf (a ++ b ++ c ++ d) 2 = b ∧ byteOf (a ++ b ++ c ++ d) 3 = a := by
  refine ⟨?_, ?_, ?_, ?_⟩ <;>
  · ext i hi
    simp only [byteOf, BitVec.getElem_extractLsb', BitVec.getLsbD_append]
    repeat' split
    all_goals first
      | omega
      | (rw [← BitVec.getLsbD_eq_getElem]; congr 1; omega)

/-- A word is its four bytes. -/
theorem word_of_bytes (v : Word) : byteOf v 3 ++ byteOf v 2 ++ byteOf v 1 ++ byteOf v 0 = v := by
  ext i hi
  simp only [byteOf, BitVec.getElem_append, BitVec.getElem_extractLsb']
  repeat' split
  all_goals (rw [← BitVec.getLsbD_eq_getElem]; congr 1; omega)

/-- What a word write leaves at each byte. -/
theorem Memory.get_write32 {m : Memory} (w : m.wf = true) {a : Nat} (ha : a + 4 ≤ addressSpace) (v : Word) (x : Nat) :
    (m.write32 a v).get x = if a ≤ x ∧ x < a + 4 then byteOf v (x - a) else m.get x := by
  have w0 := Memory.set_wf w (show a < addressSpace by omega) (byteOf v 0)
  have w1 := Memory.set_wf w0 (show a + 1 < addressSpace by omega) (byteOf v 1)
  have w2 := Memory.set_wf w1 (show a + 2 < addressSpace by omega) (byteOf v 2)
  rw [Memory.write32, Memory.get_set w2, Memory.get_set w1, Memory.get_set w0, Memory.get_set w]
  by_cases h : a ≤ x ∧ x < a + 4
  · rw [if_pos h]
    obtain h0 | h0 | h0 | h0 : x = a ∨ x = a + 1 ∨ x = a + 2 ∨ x = a + 3 := by omega
    all_goals subst h0; simp
  · rw [if_neg h, if_neg (by omega), if_neg (by omega), if_neg (by omega), if_neg (by omega)]

/-- A word read after a word write to the same address gives the word. -/
theorem Memory.read32_write32_same {m : Memory} (w : m.wf = true) {a : Nat} (ha : a + 4 ≤ addressSpace) (v : Word) :
    (m.write32 a v).read32 a = v := by
  simp only [Memory.read32, Memory.get_write32 w ha]
  rw [if_pos (by omega), if_pos (by omega), if_pos (by omega), if_pos (by omega)]
  simp only [Nat.add_sub_cancel_left, Nat.sub_self]
  exact word_of_bytes v

/-- A word write leaves every word that shares no byte with it alone. -/
theorem Memory.read32_write32_apart {m : Memory} (w : m.wf = true) {a b : Nat} (ha : a + 4 ≤ addressSpace) (v : Word)
    (h : b + 4 ≤ a ∨ a + 4 ≤ b) : (m.write32 a v).read32 b = m.read32 b := by
  simp only [Memory.read32, Memory.get_write32 w ha]
  rw [if_neg (by omega), if_neg (by omega), if_neg (by omega), if_neg (by omega)]

/-- A word depends on its four bytes only. -/
theorem Memory.read32_congr {m m' : Memory} {a : Nat} (h : ∀ x, a ≤ x → x < a + 4 → m'.get x = m.get x) :
    m'.read32 a = m.read32 a := by
  simp only [Memory.read32]
  rw [h (a + 3) (by omega) (by omega), h (a + 2) (by omega) (by omega), h (a + 1) (by omega) (by omega),
    h a (by omega) (by omega)]

/-- Equal words have equal bytes. -/
theorem Memory.get_of_read32 {m m' : Memory} {a : Nat} (h : m'.read32 a = m.read32 a) {x : Nat} (h1 : a ≤ x) (h2 : x < a + 4) :
    m'.get x = m.get x := by
  have e := byteOf_append (m.get (a + 3)) (m.get (a + 2)) (m.get (a + 1)) (m.get a)
  have e' := byteOf_append (m'.get (a + 3)) (m'.get (a + 2)) (m'.get (a + 1)) (m'.get a)
  simp only [Memory.read32] at h
  rw [h] at e'
  obtain h0 | h0 | h0 | h0 : x = a ∨ x = a + 1 ∨ x = a + 2 ∨ x = a + 3 := by omega
  all_goals subst h0
  · exact e'.1.symm.trans e.1
  · exact e'.2.1.symm.trans e.2.1
  · exact e'.2.2.1.symm.trans e.2.2.1
  · exact e'.2.2.2.symm.trans e.2.2.2

/-! ### Equal bytes, equal memories -/

theorem Memory.extFrom {lo : Nat} {m m' : Memory} (w : Memory.wfFrom lo m = true) (w' : Memory.wfFrom lo m' = true)
    (h : ∀ x, m.get x = m'.get x) : m = m' := by
  induction m generalizing lo m' with
  | nil =>
    cases m' with
    | nil => rfl
    | cons c m' =>
      obtain ⟨b, v⟩ := c
      simp only [Memory.wfFrom, Bool.and_eq_true, decide_eq_true_eq] at w'
      exact absurd (by simpa [Memory.get] using (h b).symm) w'.1.2
  | cons c m ih =>
    obtain ⟨b, v⟩ := c
    simp only [Memory.wfFrom, Bool.and_eq_true, decide_eq_true_eq] at w
    cases m' with
    | nil => exact absurd (by simpa [Memory.get] using h b) w.1.2
    | cons c' m' =>
      obtain ⟨b', v'⟩ := c'
      simp only [Memory.wfFrom, Bool.and_eq_true, decide_eq_true_eq] at w'
      obtain hlt | hEq | hgt := Nat.lt_trichotomy b b'
      · have := h b
        rw [Memory.get, if_pos rfl, Memory.get, if_neg (by omega), Memory.get_below w'.2 (by omega)] at this
        exact absurd this w.1.2
      · subst hEq
        have hv : v = v' := by simpa [Memory.get] using h b
        subst hv
        rw [ih w.2 w'.2]
        intro x
        by_cases hx : x = b
        · subst hx; rw [Memory.get_below w.2 (by omega), Memory.get_below w'.2 (by omega)]
        · simpa [Memory.get, hx] using h x
      · have := h b'
        rw [Memory.get, if_neg (by omega), Memory.get_below w.2 (by omega), Memory.get, if_pos rfl] at this
        exact absurd this.symm w'.1.2

/-- Memories in canonical form with the same bytes are the same data. -/
theorem Memory.ext_get {m m' : Memory} (w : m.wf = true) (w' : m'.wf = true) (h : ∀ x, m.get x = m'.get x) : m = m' :=
  Memory.extFrom w w' h

end Sys2Proof.Machine
end

