-- ==== Sys2Proof/Laws/Pixel.lean ====
section
/-! SUPPORT. Channels of a packed pixel, and the byte lanes of the packed primitives. -/

namespace Sys2Proof.Machine

@[simp] theorem alpha_pix (a r g b : Byte) : alpha (pix a r g b) = a := (byteOf_append a r g b).2.2.2
@[simp] theorem red_pix (a r g b : Byte) : red (pix a r g b) = r := (byteOf_append a r g b).2.2.1
@[simp] theorem green_pix (a r g b : Byte) : green (pix a r g b) = g := (byteOf_append a r g b).2.1
@[simp] theorem blue_pix (a r g b : Byte) : blue (pix a r g b) = b := (byteOf_append a r g b).1

/-- A pixel is its channels. -/
@[simp] theorem pix_channels (p : Word) : pix (alpha p) (red p) (green p) (blue p) = p := word_of_bytes p

/-- Pixels with the same channels are the same. -/
theorem pixel_ext {p q : Word} (ha : alpha p = alpha q) (hr : red p = red q) (hg : green p = green q) (hb : blue p = blue q) :
    p = q := by
  rw [← pix_channels p, ← pix_channels q, ha, hr, hg, hb]

@[simp] theorem alpha_sub8x4 (x y : Word) : alpha (sub8x4 x y) = alpha x - alpha y := (byteOf_append _ _ _ _).2.2.2
@[simp] theorem red_sub8x4 (x y : Word) : red (sub8x4 x y) = red x - red y := (byteOf_append _ _ _ _).2.2.1
@[simp] theorem green_sub8x4 (x y : Word) : green (sub8x4 x y) = green x - green y := (byteOf_append _ _ _ _).2.1
@[simp] theorem blue_sub8x4 (x y : Word) : blue (sub8x4 x y) = blue x - blue y := (byteOf_append _ _ _ _).1

@[simp] theorem alpha_add8x4 (x y : Word) : alpha (add8x4 x y) = alpha x + alpha y := (byteOf_append _ _ _ _).2.2.2
@[simp] theorem red_add8x4 (x y : Word) : red (add8x4 x y) = red x + red y := (byteOf_append _ _ _ _).2.2.1
@[simp] theorem green_add8x4 (x y : Word) : green (add8x4 x y) = green x + green y := (byteOf_append _ _ _ _).2.1
@[simp] theorem blue_add8x4 (x y : Word) : blue (add8x4 x y) = blue x + blue y := (byteOf_append _ _ _ _).1

end Sys2Proof.Machine
end

