-- ==== Sys2Proof/Laws/PerInstr.lean ====
section
/-! SUPPORT. One lemma per command: the encoded word, numbered as spec/opcode_table.json numbers its bits, reads back as the command
(spec/30_encoding.md R82, R83, R85, R86). -/

namespace Sys2Proof.Laws.TableWord

open Sys2Proof.Machine

/-- The encoded word of a command reads back through the opcode table's numbering. -/
def Statement (i : Instr) : Prop := decodeTableWord 32 (encode i).toNat = some i

theorem subg : Statement .subg := by unfold Statement; decide

theorem ctrans (g2r g2b r2b : Byte) : Statement (.ctrans g2r g2b r2b) := by
  have h := byteOf_append r2b g2b g2r 0x02#8
  have hopc : opcOf (encode (.ctrans g2r g2b r2b)) = 0x02#8 := h.1
  have hne : encode (.ctrans g2r g2b r2b) ≠ 0x00000001#32 := fun e => by rw [e] at hopc; revert hopc; decide
  have hd : decodeWord (encode (.ctrans g2r g2b r2b)) = .command (.ctrans g2r g2b r2b) := by
    rw [decodeWord, if_neg hne, if_pos hopc]
    show Decoded.command (.ctrans _ _ _) = _
    rw [show g2rOf (encode (.ctrans g2r g2b r2b)) = g2r from h.2.1, show g2bOf (encode (.ctrans g2r g2b r2b)) = g2b from h.2.2.1,
      show r2bOf (encode (.ctrans g2r g2b r2b)) = r2b from h.2.2.2]
  have hlt := (encode (.ctrans g2r g2b r2b)).isLt
  rw [Statement, decodeTableWord, Nat.mod_eq_of_lt hlt, if_pos hlt, BitVec.ofNat_toNat, BitVec.setWidth_eq, hd]

theorem hadd : Statement .hadd := by unfold Statement; decide

end Sys2Proof.Laws.TableWord
end

