-- ==== Sys2Proof/Laws/State.lean ====
section
/-! SUPPORT. One lemma per field of State for each operation that updates it. -/

namespace Sys2Proof.Machine

/-! ### `raiseFault` -/

@[simp] theorem raiseFault_cfg (c : Cause) (s : State) : (raiseFault c s).cfg = s.cfg := rfl
@[simp] theorem raiseFault_cap (c : Cause) (s : State) : (raiseFault c s).cap = s.cap := rfl
@[simp] theorem raiseFault_status (c : Cause) (s : State) : (raiseFault c s).status = s.status.raise c := rfl
@[simp] theorem raiseFault_cmd (c : Cause) (s : State) : (raiseFault c s).cmd = s.cmd := rfl
@[simp] theorem raiseFault_a0 (c : Cause) (s : State) : (raiseFault c s).a0 = s.a0 := rfl
@[simp] theorem raiseFault_a1 (c : Cause) (s : State) : (raiseFault c s).a1 = s.a1 := rfl
@[simp] theorem raiseFault_a2 (c : Cause) (s : State) : (raiseFault c s).a2 = s.a2 := rfl
@[simp] theorem raiseFault_n (c : Cause) (s : State) : (raiseFault c s).n = s.n := rfl
@[simp] theorem raiseFault_prog (c : Cause) (s : State) : (raiseFault c s).prog = none := rfl
@[simp] theorem raiseFault_mem (c : Cause) (s : State) : (raiseFault c s).mem = s.mem := rfl
@[simp] theorem raiseFault_events (c : Cause) (s : State) : (raiseFault c s).events = s.events := rfl
@[simp] theorem raiseFault_seen (c : Cause) (s : State) : (raiseFault c s).seen = s.seen := rfl
@[simp] theorem raiseFault_held (c : Cause) (s : State) : (raiseFault c s).held = s.held := rfl

/-! ### `resetBlock` -/

@[simp] theorem resetBlock_cfg (s : State) : (resetBlock s).cfg = s.cfg := rfl
@[simp] theorem resetBlock_cap (s : State) : (resetBlock s).cap = s.cfg.capOps := rfl
@[simp] theorem resetBlock_status (s : State) : (resetBlock s).status = Status.zero := rfl
@[simp] theorem resetBlock_cmd (s : State) : (resetBlock s).cmd = 0#32 := rfl
@[simp] theorem resetBlock_a0 (s : State) : (resetBlock s).a0 = 0#32 := rfl
@[simp] theorem resetBlock_a1 (s : State) : (resetBlock s).a1 = 0#32 := rfl
@[simp] theorem resetBlock_a2 (s : State) : (resetBlock s).a2 = 0#32 := rfl
@[simp] theorem resetBlock_n (s : State) : (resetBlock s).n = 0#32 := rfl
@[simp] theorem resetBlock_prog (s : State) : (resetBlock s).prog = none := rfl
@[simp] theorem resetBlock_mem (s : State) : (resetBlock s).mem = s.mem := rfl
@[simp] theorem resetBlock_events (s : State) : (resetBlock s).events = s.events := rfl
@[simp] theorem resetBlock_seen (s : State) : (resetBlock s).seen = s.seen := rfl
@[simp] theorem resetBlock_held (s : State) : (resetBlock s).held = Footprint.empty := rfl

/-! ### `note` -/

@[simp] theorem note_cfg (v : Word) (s : State) : (note v s).cfg = s.cfg := rfl
@[simp] theorem note_cap (v : Word) (s : State) : (note v s).cap = s.cap := rfl
@[simp] theorem note_status (v : Word) (s : State) : (note v s).status = s.status := rfl
@[simp] theorem note_cmd (v : Word) (s : State) : (note v s).cmd = s.cmd := rfl
@[simp] theorem note_a0 (v : Word) (s : State) : (note v s).a0 = s.a0 := rfl
@[simp] theorem note_a1 (v : Word) (s : State) : (note v s).a1 = s.a1 := rfl
@[simp] theorem note_a2 (v : Word) (s : State) : (note v s).a2 = s.a2 := rfl
@[simp] theorem note_n (v : Word) (s : State) : (note v s).n = s.n := rfl
@[simp] theorem note_prog (v : Word) (s : State) : (note v s).prog = s.prog := rfl
@[simp] theorem note_mem (v : Word) (s : State) : (note v s).mem = s.mem := rfl
@[simp] theorem note_events (v : Word) (s : State) : (note v s).events = s.events := rfl
@[simp] theorem note_seen (v : Word) (s : State) : (note v s).seen = s.seen ++ [v] := rfl
@[simp] theorem note_held (v : Word) (s : State) : (note v s).held = s.held := rfl

/-! ### `Plan.completed` -/

@[simp] theorem completed_cfg (p : Plan) (s : State) : (p.completed s).cfg = s.cfg := rfl
@[simp] theorem completed_cap (p : Plan) (s : State) : (p.completed s).cap = s.cap := rfl
@[simp] theorem completed_status (p : Plan) (s : State) : (p.completed s).status = s.status.complete := rfl
@[simp] theorem completed_cmd (p : Plan) (s : State) : (p.completed s).cmd = s.cmd := rfl
@[simp] theorem completed_a0 (p : Plan) (s : State) : (p.completed s).a0 = s.a0 := rfl
@[simp] theorem completed_a1 (p : Plan) (s : State) : (p.completed s).a1 = s.a1 := rfl
@[simp] theorem completed_a2 (p : Plan) (s : State) : (p.completed s).a2 = s.a2 := rfl
@[simp] theorem completed_n (p : Plan) (s : State) : (p.completed s).n = s.n := rfl
@[simp] theorem completed_prog (p : Plan) (s : State) : (p.completed s).prog = none := rfl
@[simp] theorem completed_mem (p : Plan) (s : State) : (p.completed s).mem = p.writeAll s.mem (p.remaining s) s.mem := rfl
@[simp] theorem completed_events (p : Plan) (s : State) : (p.completed s).events = s.events := rfl
@[simp] theorem completed_seen (p : Plan) (s : State) : (p.completed s).seen = s.seen := rfl
@[simp] theorem completed_held (p : Plan) (s : State) : (p.completed s).held = s.held := rfl

/-! ### `Status` -/

@[simp] theorem Status.raise_busy (x : Status) (c : Cause) : (x.raise c).busy = false := rfl
@[simp] theorem Status.raise_done (x : Status) (c : Cause) : (x.raise c).done = x.done := rfl
@[simp] theorem Status.raise_fault (x : Status) (c : Cause) : (x.raise c).fault = true := rfl
@[simp] theorem Status.raise_cause (x : Status) (c : Cause) : (x.raise c).cause = c.code := rfl
@[simp] theorem Status.complete_busy (x : Status) : x.complete.busy = false := rfl
@[simp] theorem Status.complete_done (x : Status) : x.complete.done = true := rfl
@[simp] theorem Status.complete_fault (x : Status) : x.complete.fault = x.fault := rfl
@[simp] theorem Status.complete_cause (x : Status) : x.complete.cause = x.cause := rfl
@[simp] theorem Status.issue_busy (x : Status) : x.issue.busy = true := rfl
@[simp] theorem Status.issue_done (x : Status) : x.issue.done = false := rfl
@[simp] theorem Status.issue_fault (x : Status) : x.issue.fault = x.fault := rfl
@[simp] theorem Status.issue_cause (x : Status) : x.issue.cause = x.cause := rfl
@[simp] theorem Status.zero_busy : Status.zero.busy = false := rfl
@[simp] theorem Status.zero_done : Status.zero.done = false := rfl
@[simp] theorem Status.zero_fault : Status.zero.fault = false := rfl
@[simp] theorem Status.zero_cause : Status.zero.cause = 0#4 := rfl

/-- The state after reset is what a reset leaves of itself. -/
theorem resetBlock_reset : resetBlock State.reset = State.reset := rfl

end Sys2Proof.Machine
end

