-- ==== Sys2Proof/Laws/Plan.lean ====
section
/-! SUPPORT. The life of a command: what running a plan can answer, what its writes leave in memory, and the plans of the three
commands. -/

namespace Sys2Proof.Machine

/-- A command is its plan, run. -/
theorem exec_eq_run (i : Instr) (s : State) : exec i s = (planOf i s).run s := by cases i <;> rfl

/-- Everything a command can answer with a next state: completion after passed checks, or a fault. -/
theorem Plan.run_next {p : Plan} {s t : State} (h : p.run s = .next t) :
    (p.verdict = .go ∧ t = p.completed s) ∨ (∃ c, p.verdict = .trap c ∧ t = raiseFault c s) := by
  cases hv : p.verdict <;> simp only [Plan.run, hv, reduceCtorEq] at h
  · exact .inl ⟨rfl, (Host.Outcome.next.inj h).symm⟩
  · exact .inr ⟨_, rfl, (Host.Outcome.next.inj h).symm⟩

/-- Everything one element turn can answer with a next state. -/
theorem Plan.element_next {p : Plan} {k : Nat} {s t : State} (h : p.element k s = .next t) :
    (p.verdict = .go ∧ t = p.elementDone k s) ∨ (∃ c, p.verdict = .trap c ∧ t = raiseFault c s) := by
  cases hv : p.verdict <;> simp only [Plan.element, hv, reduceCtorEq] at h
  · exact .inl ⟨rfl, (Host.Outcome.next.inj h).symm⟩
  · exact .inr ⟨_, rfl, (Host.Outcome.next.inj h).symm⟩

theorem Plan.run_go {p : Plan} {s : State} (h : p.verdict = .go) : p.run s = .next (p.completed s) := by
  simp only [Plan.run, h]

theorem Plan.run_trap {p : Plan} {s : State} {c : Cause} (h : p.verdict = .trap c) : p.run s = .next (raiseFault c s) := by
  simp only [Plan.run, h]

theorem Plan.mem_remaining {p : Plan} {s : State} {k : Nat} : k ∈ p.remaining s ↔ k ∈ p.domain ∧ k ∉ performed s := by
  simp [Plan.remaining]

/-! ### The writes of a plan -/

/-- The words written for the elements of a list lie in the address space and share no byte. -/
structure Plan.Spaced (p : Plan) (ks : List Nat) : Prop where
  inside : ∀ k ∈ ks, p.addr k + 4 ≤ addressSpace
  apart  : ∀ j ∈ ks, ∀ k ∈ ks, j ≠ k → p.addr j + 4 ≤ p.addr k ∨ p.addr k + 4 ≤ p.addr j

theorem Plan.Spaced.of_subset {p : Plan} {js ks : List Nat} (h : p.Spaced ks) (sub : ∀ k ∈ js, k ∈ ks) : p.Spaced js :=
  ⟨fun k hk => h.inside k (sub k hk), fun j hj k hk => h.apart j (sub j hj) k (sub k hk)⟩

theorem Plan.Spaced.tail {p : Plan} {k : Nat} {ks : List Nat} (h : p.Spaced (k :: ks)) : p.Spaced ks :=
  h.of_subset fun _ hk => List.mem_cons_of_mem _ hk

theorem Plan.writeAll_nil (p : Plan) (m0 m : Memory) : p.writeAll m0 [] m = m := rfl

theorem Plan.writeAll_cons (p : Plan) (m0 m : Memory) (k : Nat) (ks : List Nat) :
    p.writeAll m0 (k :: ks) m = p.writeAll m0 ks (m.write32 (p.addr k) (p.value m0 k)) := rfl

/-- The writes keep the canonical form. -/
theorem Plan.writeAll_wf {p : Plan} {m0 m : Memory} {ks : List Nat} (h : ∀ k ∈ ks, p.addr k + 4 ≤ addressSpace) (w : m.wf = true) :
    (p.writeAll m0 ks m).wf = true := by
  induction ks generalizing m with
  | nil => exact w
  | cons k ks ih =>
    rw [Plan.writeAll_cons]
    exact ih (fun j hj => h j (List.mem_cons_of_mem _ hj)) (Memory.write32_wf w (h k (List.mem_cons_self ..)) _)

/-- A byte that no written word holds is as before. -/
theorem Plan.writeAll_get_outside {p : Plan} {m0 m : Memory} {ks : List Nat} (h : ∀ k ∈ ks, p.addr k + 4 ≤ addressSpace)
    (w : m.wf = true) {x : Nat} (hx : ∀ k ∈ ks, ¬ (p.addr k ≤ x ∧ x < p.addr k + 4)) :
    (p.writeAll m0 ks m).get x = m.get x := by
  induction ks generalizing m with
  | nil => rfl
  | cons k ks ih =>
    have hk := h k (List.mem_cons_self ..)
    rw [Plan.writeAll_cons, ih (fun j hj => h j (List.mem_cons_of_mem _ hj)) (Memory.write32_wf w hk _)
      (fun j hj => hx j (List.mem_cons_of_mem _ hj)), Memory.get_write32 w hk, if_neg (hx k (List.mem_cons_self ..))]

/-- The word written for an element is the value of the element. -/
theorem Plan.writeAll_read32 {p : Plan} {m0 m : Memory} {ks : List Nat} (h : p.Spaced ks) (w : m.wf = true) {k : Nat} (hk : k ∈ ks) :
    (p.writeAll m0 ks m).read32 (p.addr k) = p.value m0 k := by
  induction ks generalizing m with
  | nil => exact absurd hk (List.not_mem_nil)
  | cons j ks ih =>
    have hj := h.inside j (List.mem_cons_self ..)
    rw [Plan.writeAll_cons]
    by_cases hks : k ∈ ks
    · exact ih h.tail (Memory.write32_wf w hj _) hks
    · have hkj : k = j := (List.mem_cons.mp hk).resolve_right hks
      subst hkj
      rw [Memory.read32_congr (m := m.write32 (p.addr k) (p.value m0 k)), Memory.read32_write32_same w hj]
      intro x h1 h2
      refine Plan.writeAll_get_outside (fun i hi => h.tail.inside i hi) (Memory.write32_wf w hj _) ?_
      intro i hi
      have := h.apart k (List.mem_cons_self ..) i (List.mem_cons_of_mem _ hi) (fun e => hks (e ▸ hi))
      omega

/-- A memory in canonical form is the result of the writes when it has the element values and the old bytes. -/
theorem Plan.eq_writeAll {p : Plan} {m0 m m' : Memory} {ks : List Nat} (h : p.Spaced ks) (w : m.wf = true) (w' : m'.wf = true)
    (hin : ∀ k ∈ ks, m'.read32 (p.addr k) = p.value m0 k)
    (hout : ∀ x, (∀ k ∈ ks, ¬ (p.addr k ≤ x ∧ x < p.addr k + 4)) → m'.get x = m.get x) :
    m' = p.writeAll m0 ks m := by
  refine Memory.ext_get w' (Plan.writeAll_wf h.inside w) fun x => ?_
  by_cases hx : ∃ k ∈ ks, p.addr k ≤ x ∧ x < p.addr k + 4
  · obtain ⟨k, hk, h1, h2⟩ := hx
    exact Memory.get_of_read32 ((hin k hk).trans (Plan.writeAll_read32 h w hk).symm) h1 h2
  · have hx' : ∀ k ∈ ks, ¬ (p.addr k ≤ x ∧ x < p.addr k + 4) := fun k hk hc => hx ⟨k, hk, hc⟩
    rw [hout x hx', Plan.writeAll_get_outside h.inside w hx']

/-! ### Ranges and plain memory -/

theorem rangesMeet_iff {r q : Range} :
    rangesMeet r q = true ↔ ∃ x, (r.base ≤ x ∧ x < r.base + r.size) ∧ (q.base ≤ x ∧ x < q.base + q.size) := by
  simp only [rangesMeet, Bool.and_eq_true, decide_eq_true_eq]
  constructor
  · intro h
    exact ⟨max r.base q.base, by omega, by omega⟩
  · rintro ⟨x, h1, h2⟩
    omega

theorem meetsAny_iff {rs : List Range} {q : Range} :
    meetsAny rs q = true ↔ ∃ x, inRanges rs x ∧ (q.base ≤ x ∧ x < q.base + q.size) := by
  simp only [meetsAny, List.any_eq_true, rangesMeet_iff, inRanges]
  constructor
  · rintro ⟨r, hr, x, h1, h2⟩; exact ⟨x, ⟨r, hr, h1⟩, h2⟩
  · rintro ⟨x, ⟨r, hr, h1⟩, h2⟩; exact ⟨r, hr, x, h1, h2⟩

theorem meetsKind_iff {c : Config} {k : RegionKind} {q : Range} :
    meetsKind c k q = true ↔ ∃ g ∈ c.map, g.kind = k ∧
      ∃ x, (g.range.base ≤ x ∧ x < g.range.base + g.range.size) ∧ (q.base ≤ x ∧ x < q.base + q.size) := by
  simp only [meetsKind, List.any_eq_true, Bool.and_eq_true, decide_eq_true_eq, rangesMeet_iff]

/-- A range has no hole and no register or device in it exactly when all its bytes are plain memory. -/
theorem plainRange_iff {c : Config} {q : Range} :
    (isAbsent c q = false ∧ isWindowOrDevice c q = false) ↔ ∀ x, q.base ≤ x → x < q.base + q.size → plainAt c x := by
  constructor
  · rintro ⟨ha, hw⟩ x h1 h2
    simp only [isAbsent, Bool.or_eq_false_iff, Bool.and_eq_false_iff, decide_eq_false_iff_not] at ha
    simp only [isWindowOrDevice, Bool.or_eq_false_iff] at hw
    refine ⟨by omega, ?_, ?_⟩
    · intro hx
      exact Bool.false_ne_true (hw.1.1.symm.trans (rangesMeet_iff.mpr ⟨x, hx, h1, h2⟩))
    · intro g hg hx
      have key : meetsKind c g.kind q = true := meetsKind_iff.mpr ⟨g, hg, rfl, x, hx, h1, h2⟩
      cases hk : g.kind <;> rw [hk] at key
      · exact Bool.false_ne_true (ha.1.symm.trans key)
      · exact Bool.false_ne_true (hw.2.symm.trans key)
      · exact Bool.false_ne_true (hw.1.2.symm.trans key)
  · intro h
    have kinds : ∀ k, meetsKind c k q = false := by
      intro k
      rw [← Bool.not_eq_true, meetsKind_iff]
      rintro ⟨g, hg, -, x, hx, h1, h2⟩
      exact (h x h1 h2).2.2 g hg hx
    constructor
    · simp only [isAbsent, kinds, Bool.false_or, Bool.and_eq_false_iff, decide_eq_false_iff_not]
      by_cases hs : 0 < q.size
      · have := (h (q.base + q.size - 1) (by omega) (by omega)).1
        exact .inr (by omega)
      · exact .inl hs
    · simp only [isWindowOrDevice, kinds, Bool.or_false]
      rw [← Bool.not_eq_true, rangesMeet_iff]
      rintro ⟨x, hx, h1, h2⟩
      exact (h x h1 h2).2.1 hx

/-- The memory check passes exactly on plain memory. -/
theorem memoryVerdict_go_iff {c : Config} {rs : List Range} :
    memoryVerdict c rs = .go ↔ ∀ x, inRanges rs x → plainAt c x := by
  have step : memoryVerdict c rs = .go ↔ ∀ r ∈ rs, isAbsent c r = false ∧ isWindowOrDevice c r = false := by
    simp only [memoryVerdict]
    constructor
    · intro h
      split at h
      · exact Verdict.noConfusion h
      next ha =>
        split at h
        · exact Verdict.noConfusion h
        next hw =>
          simp only [List.any_eq_true, not_exists, not_and, Bool.not_eq_true] at ha hw
          exact fun r hr => ⟨ha r hr, hw r hr⟩
    · intro h
      rw [if_neg, if_neg]
      · simp only [List.any_eq_true, not_exists, not_and, Bool.not_eq_true]; exact fun r hr => (h r hr).2
      · simp only [List.any_eq_true, not_exists, not_and, Bool.not_eq_true]; exact fun r hr => (h r hr).1
  rw [step]
  constructor
  · rintro h x ⟨r, hr, h1, h2⟩; exact plainRange_iff.mp (h r hr) x h1 h2
  · exact fun h r hr => plainRange_iff.mpr fun x h1 h2 => h x ⟨r, hr, h1, h2⟩

theorem memoryVerdict_not_trap {c : Config} {rs : List Range} {e : Cause} : memoryVerdict c rs ≠ .trap e := by
  simp only [memoryVerdict]
  split
  · exact fun h => Verdict.noConfusion h
  · split <;> exact fun h => Verdict.noConfusion h

/-- Some byte of a range is a register or a device. -/
theorem isWindowOrDevice_iff {c : Config} {q : Range} :
    isWindowOrDevice c q = true ↔ ∃ x, (q.base ≤ x ∧ x < q.base + q.size) ∧ windowOrDeviceAt c x := by
  simp only [isWindowOrDevice, Bool.or_eq_true, rangesMeet_iff, meetsKind_iff, windowOrDeviceAt, ownWindow]
  constructor
  · rintro ((⟨x, h1, h2⟩ | ⟨g, hg, hk, x, h1, h2⟩) | ⟨g, hg, hk, x, h1, h2⟩)
    · exact ⟨x, h2, .inl h1⟩
    · exact ⟨x, h2, .inr ⟨g, hg, by simp [hk], h1⟩⟩
    · exact ⟨x, h2, .inr ⟨g, hg, by simp [hk], h1⟩⟩
  · rintro ⟨x, h2, h1 | ⟨g, hg, hk, h1⟩⟩
    · exact .inl (.inl ⟨x, h1, h2⟩)
    · cases hgk : g.kind with
      | absent => exact absurd hgk hk
      | device => exact .inr ⟨g, hg, hgk, x, h1, h2⟩
      | window => exact .inl (.inr ⟨g, hg, hgk, x, h1, h2⟩)

/-- A hole in some range stops the model (U4). -/
theorem memoryVerdict_hole {c : Config} {rs : List Range} (h : ∃ x, inRanges rs x ∧ holeAt c x) :
    memoryVerdict c rs = .stuck .noMemory := by
  obtain ⟨x, ⟨r, hr, h1⟩, g, hg, hk, h2⟩ := h
  have ha : isAbsent c r = true := by
    rw [isAbsent, Bool.or_eq_true]
    exact .inl (meetsKind_iff.mpr ⟨g, hg, hk, x, h2, h1⟩)
  rw [memoryVerdict, if_pos (List.any_eq_true.mpr ⟨r, hr, ha⟩)]

/-- A register or a device in some range, and no hole, is refused (U6). -/
theorem memoryVerdict_device {c : Config} {rs : List Range} (inside : ∀ x, inRanges rs x → x < addressSpace)
    (hole : ∀ x, inRanges rs x → ¬ holeAt c x) (h : ∃ x, inRanges rs x ∧ windowOrDeviceAt c x) :
    memoryVerdict c rs = .refuse .notPlainMemory := by
  obtain ⟨x, ⟨r, hr, h1⟩, h2⟩ := h
  have ha : rs.any (isAbsent c) = false := by
    rw [← Bool.not_eq_true, List.any_eq_true]
    rintro ⟨q, hq, ha⟩
    simp only [isAbsent, Bool.or_eq_true, Bool.and_eq_true, decide_eq_true_eq, meetsKind_iff] at ha
    rcases ha with ⟨g, hg, hk, y, hy, hy'⟩ | ⟨h3, h4⟩
    · exact hole y ⟨q, hq, hy'⟩ ⟨g, hg, hk, hy⟩
    · have := inside (q.base + q.size - 1) ⟨q, hq, by omega, by omega⟩
      omega
  rw [memoryVerdict, ha, if_neg Bool.false_ne_true,
    if_pos (List.any_eq_true.mpr ⟨r, hr, isWindowOrDevice_iff.mpr ⟨x, h1, h2⟩⟩)]

/-! ### The plan of a pixel command -/

theorem pixelTrap_none_iff {s : State} :
    pixelTrap s = none ↔ s.a0.toNat % 4 = 0 ∧ 0 ≤ pixelCount s ∧ (s.a0.toNat : Int) + 4 * pixelCount s ≤ 2 ^ 32 := by
  simp only [pixelTrap]
  split
  · simp_all
  · split
    · simp; omega
    · split
      · simp; omega
      · simp; omega

/-- A count that is not negative is the register read as a number. -/
theorem pixelCount_toNat {s : State} (h : 0 ≤ pixelCount s) : (pixelCount s).toNat = s.n.toNat := by
  simp only [pixelCount, BitVec.toInt_eq_toNat_cond] at *
  split at h
  · rw [if_pos (by assumption)]; omega
  · have := s.n.isLt; omega

theorem inRanges_pixelBuffer {s : State} {x : Nat} :
    inRanges (pixelBuffer s) x ↔ s.a0.toNat ≤ x ∧ x < s.a0.toNat + 4 * (pixelCount s).toNat := by
  simp only [inRanges, pixelBuffer]
  split
  · simp; omega
  · simp

/-- The pixels of a buffer that passed the checks lie in the address space and share no byte. -/
theorem pixelPlan_spaced {F : Word → Word} {s : State} (h : pixelTrap s = none) : (pixelPlan F s).Spaced (pixelPlan F s).domain := by
  obtain ⟨-, h0, h1⟩ := pixelTrap_none_iff.mp h
  constructor
  · intro k hk
    simp only [pixelPlan, List.mem_range] at hk
    simp only [pixelPlan, pixelAddr, addressSpace]
    omega
  · intro j _ k _ hjk
    simp only [pixelPlan, pixelAddr]
    omega

theorem pixelPlan_go_iff {F : Word → Word} {s : State} :
    (pixelPlan F s).verdict = .go ↔ pixelTrap s = none ∧ ∀ x, inRanges (pixelBuffer s) x → plainAt s.cfg x := by
  simp only [pixelPlan]
  cases h : pixelTrap s with
  | some c => simp
  | none => simp [memoryVerdict_go_iff]

theorem pixelPlan_trap_iff {F : Word → Word} {s : State} {c : Cause} :
    (pixelPlan F s).verdict = .trap c ↔ pixelTrap s = some c := by
  simp only [pixelPlan]
  cases h : pixelTrap s with
  | some c => simp
  | none => simp [memoryVerdict_not_trap]

/-! ### The plan of `HADD` -/

theorem mem_arrayPositions {x y : Part} {len i : Nat} : (y, i) ∈ arrayPositions x len ↔ y = x ∧ i < len := by
  simp only [arrayPositions, List.mem_map, List.mem_range, Prod.mk.injEq]
  constructor
  · rintro ⟨j, hj, rfl, rfl⟩; exact ⟨rfl, hj⟩
  · rintro ⟨rfl, h⟩; exact ⟨i, h, rfl, rfl⟩

/-- The index domain: which index each array takes (R59). -/
theorem mem_counterDomain {c : Config} {p : Nat} {x : Part} {i : Nat} :
    (x, i) ∈ counterDomain c p ↔ i < (match x with | .lit => litLen c p | .red | .blue | .alpha => c.nfix | .dist => c.ndist) := by
  simp only [counterDomain, List.mem_append, mem_arrayPositions]
  cases x <;> simp

/-- The element numbers of `HADD`: the words of the live literal array, and those of the four other arrays. -/
theorem mem_haddDomain {s : State} {k : Nat} :
    k ∈ (haddPlan s).domain ↔ (1 ≤ k ∧ k < 1 + litLen s.cfg (palette s)) ∨
      (1 + litCap s.cfg ≤ k ∧ k < 1 + litCap s.cfg + (3 * s.cfg.nfix + s.cfg.ndist)) := by
  simp only [haddPlan, List.mem_map, Prod.exists]
  constructor
  · rintro ⟨x, i, h, rfl⟩
    rw [mem_counterDomain] at h
    cases x <;> simp only [wordIndex] at * <;> omega
  · intro h
    by_cases hl : 1 ≤ k ∧ k < 1 + litLen s.cfg (palette s)
    · exact ⟨.lit, k - 1, mem_counterDomain.mpr (by simp only; omega), by simp only [wordIndex]; omega⟩
    · have hr := h.resolve_left hl
      by_cases h1 : k < 1 + litCap s.cfg + s.cfg.nfix
      · exact ⟨.red, k - (1 + litCap s.cfg), mem_counterDomain.mpr (by simp only; omega), by simp only [wordIndex]; omega⟩
      by_cases h2 : k < 1 + litCap s.cfg + 2 * s.cfg.nfix
      · exact ⟨.blue, k - (1 + litCap s.cfg + s.cfg.nfix), mem_counterDomain.mpr (by simp only; omega), by
          simp only [wordIndex]; omega⟩
      by_cases h3 : k < 1 + litCap s.cfg + 3 * s.cfg.nfix
      · exact ⟨.alpha, k - (1 + litCap s.cfg + 2 * s.cfg.nfix), mem_counterDomain.mpr (by simp only; omega), by
          simp only [wordIndex]; omega⟩
      · exact ⟨.dist, k - (1 + litCap s.cfg + 3 * s.cfg.nfix), mem_counterDomain.mpr (by simp only; omega), by
          simp only [wordIndex]; omega⟩

/-- The bytes of the live counters of the record at `h`. -/
theorem inRanges_liveRanges {s : State} {h : Word} {x : Nat} : inRanges (liveRanges s.cfg (palette s) h) x ↔
    ∃ k ∈ (haddPlan s).domain, recordAddr h k ≤ x ∧ x < recordAddr h k + 4 := by
  constructor
  · rintro ⟨r, hr, h1, h2⟩
    refine ⟨(x - h.toNat) / 4, ?_, ?_⟩
    · rw [mem_haddDomain]
      simp only [liveRanges, recordAddr, List.mem_cons, List.not_mem_nil, or_false] at hr
      rcases hr with rfl | rfl <;> simp only at h1 h2 <;> omega
    · simp only [liveRanges, recordAddr, List.mem_cons, List.not_mem_nil, or_false] at hr ⊢
      rcases hr with rfl | rfl <;> simp only at h1 h2 <;> omega
  · rintro ⟨k, hk, h1, h2⟩
    rw [mem_haddDomain] at hk
    simp only [recordAddr] at *
    rcases hk with hk | hk
    · exact ⟨_, List.mem_cons_self .., by simp only [recordAddr]; omega, by simp only [recordAddr]; omega⟩
    · exact ⟨_, List.mem_cons_of_mem _ (List.mem_cons_self ..), by simp only [recordAddr]; omega, by
        simp only [recordAddr]; omega⟩

theorem haddTrap_none_iff {s : State} :
    haddTrap s = none ↔ (s.a0.toNat % 4 = 0 ∧ s.a1.toNat % 4 = 0 ∧ s.a2.toNat % 4 = 0) ∧
      s.a0.toNat + 4 * hwords s.cfg ≤ addressSpace ∧ s.a1.toNat + 4 * hwords s.cfg ≤ addressSpace ∧
      s.a2.toNat + 4 * hwords s.cfg ≤ addressSpace := by
  simp only [haddTrap]
  split
  · simp; omega
  · split
    · simp; omega
    · simp; omega

theorem palTrap_none_iff {s : State} :
    palTrap s = none ↔ (palA s).toNat ≤ s.cfg.pmax ∧ palB s = palA s := by
  simp only [palTrap]
  split
  next h1 =>
    simp only [reduceCtorEq, false_iff, not_and]
    intro h2 e
    rw [e] at h1
    omega
  next h1 =>
    split
    next h2 => simp only [reduceCtorEq, false_iff, not_and]; exact fun _ e => h2 e.symm
    next h2 => simp only [true_iff]; exact ⟨by omega, (not_not.mp h2).symm⟩

/-- Two records do not overlap partially: they are the same, or share no byte (R72). -/
theorem partialOverlap_false_iff {c : Config} {h k : Word} : partialOverlap c h k = false ↔
    h = k ∨ h.toNat + 4 * hwords c ≤ k.toNat ∨ k.toNat + 4 * hwords c ≤ h.toNat := by
  by_cases e : h = k
  · simp [partialOverlap, e]
  · have hw : 0 < 4 * hwords c := by simp only [hwords]; omega
    simp only [partialOverlap, rangesMeet, e, ne_eq, not_false_eq_true, decide_true, Bool.true_and, Bool.and_eq_false_iff,
      decide_eq_false_iff_not, false_or]
    omega

/-- The bytes of the three records. -/
theorem inRanges_recordRanges {s : State} {x : Nat} : inRanges (recordRanges s) x ↔ recordByte s x := by
  simp [inRanges, recordRanges, recordByte]

/-- `HADD` passes its checks exactly when all of them hold. -/
theorem haddVerdict_go_iff {s : State} : haddVerdict s = .go ↔ haddTrap s = none ∧
    (∀ x, inRanges (palRanges s) x → plainAt s.cfg x) ∧ palTrap s = none ∧
    (partialOverlap s.cfg s.a2 s.a0 = false ∧ partialOverlap s.cfg s.a2 s.a1 = false) ∧
    ∀ x, inRanges (recordRanges s) x → plainAt s.cfg x := by
  simp only [haddVerdict]
  cases h1 : haddTrap s with
  | some c => simp
  | none =>
    simp only [true_and]
    rw [← memoryVerdict_go_iff (rs := palRanges s), ← memoryVerdict_go_iff (rs := recordRanges s)]
    cases h2 : memoryVerdict s.cfg (palRanges s) with
    | go =>
      cases h3 : palTrap s with
      | some c => simp
      | none =>
        by_cases h4 : (partialOverlap s.cfg s.a2 s.a0 || partialOverlap s.cfg s.a2 s.a1) = true
        · simp only [h4, if_true]
          simp only [Bool.or_eq_true] at h4
          simp only [reduceCtorEq, false_iff, not_and, true_and]
          intro h5
          rw [h5.1, h5.2] at h4
          simp at h4
        · simp only [if_neg h4, true_and]
          simp only [Bool.or_eq_true, not_or, Bool.not_eq_true] at h4
          simp [h4]
    | trap c => simp
    | stuck f => simp
    | refuse r => simp

/-- A fault of `HADD` is a failed register check, or a failed palette check on palette words in plain memory. -/
theorem haddVerdict_trap_iff {s : State} {c : Cause} : haddVerdict s = .trap c ↔ haddTrap s = some c ∨
    (haddTrap s = none ∧ (∀ x, inRanges (palRanges s) x → plainAt s.cfg x) ∧ palTrap s = some c) := by
  simp only [haddVerdict]
  cases h1 : haddTrap s with
  | some c => simp
  | none =>
    simp only [reduceCtorEq, true_and, false_or]
    rw [← memoryVerdict_go_iff (rs := palRanges s)]
    cases h2 : memoryVerdict s.cfg (palRanges s) with
    | go =>
      cases h3 : palTrap s with
      | some c => simp
      | none =>
        simp only [true_and, reduceCtorEq, iff_false]
        split
        · exact fun h => Verdict.noConfusion h
        · exact memoryVerdict_not_trap
    | trap e => exact absurd h2 memoryVerdict_not_trap
    | stuck f => simp
    | refuse r => simp

theorem configOk_litLen {c : Config} (h : configOk c = true) {p : Nat} (hp : p ≤ c.pmax) : litLen c p ≤ litCap c := by
  simp only [configOk, Bool.and_eq_true, decide_eq_true_eq, List.all_eq_true, List.mem_range] at h
  exact h.1.1.2 p (by omega)

theorem configOk_regBase {c : Config} (h : configOk c = true) : c.regBase % 0x20 = 0 ∧ c.regBase + 0x20 ≤ addressSpace := by
  simp only [configOk, Bool.and_eq_true, decide_eq_true_eq] at h
  exact ⟨h.1.2, h.2⟩

theorem configOk_chunk {c : Config} (h : configOk c = true) : 1 ≤ c.chunk ∧ c.nfix % c.chunk = 0 ∧ c.nfix ≤ c.abase := by
  simp only [configOk, Bool.and_eq_true, decide_eq_true_eq] at h
  exact ⟨h.1.1.1.1.1.1.1.2, h.1.1.1.1.1.1.2, h.1.1.1.1.1.2⟩

/-- The counters of `out` lie in the address space, behind the palette word, and share no byte. -/
theorem haddPlan_spaced {s : State} (hc : configOk s.cfg = true) (h : haddTrap s = none) (hp : palTrap s = none) :
    (haddPlan s).Spaced (haddPlan s).domain ∧ ∀ k ∈ (haddPlan s).domain, 1 ≤ k ∧ k < hwords s.cfg := by
  obtain ⟨-, -, -, h2⟩ := haddTrap_none_iff.mp h
  have hl := configOk_litLen hc (palTrap_none_iff.mp hp).1
  have bound : ∀ k ∈ (haddPlan s).domain, 1 ≤ k ∧ k < hwords s.cfg := by
    intro k hk
    rw [mem_haddDomain] at hk
    simp only [hwords, palette] at *
    omega
  refine ⟨⟨?_, ?_⟩, bound⟩
  · intro k hk
    have := bound k hk
    simp only [haddPlan, recordAddr]
    omega
  · intro j _ k _ hjk
    simp only [haddPlan, recordAddr]
    omega

end Sys2Proof.Machine
end

