-- ==== Sys2Proof/Laws/Step.lean ====
section
/-! SUPPORT. Everything a step can do, said once: the block's turns, the host's accesses, the events. -/

namespace Sys2Proof.Machine

/-! ### The block's turns -/

/-- The block in flight answers with a next state in these ways only: completion after passed checks, or a fault with a reason. -/
theorem blockFinish_next {s t : State} (h : blockFinish s = .next t) :
    (∃ i, decodeCommand s.cap s.cmd = .command i ∧ (planOf i s).verdict = .go ∧ t = (planOf i s).completed s) ∨
    (∃ c, t = raiseFault c s ∧ ((∃ i, decodeCommand s.cap s.cmd = .command i ∧ (planOf i s).verdict = .trap c) ∨
      ((∃ r, decodeCommand s.cap s.cmd = .illegal r) ∧ c = .illegalCmd))) := by
  simp only [blockFinish] at h
  cases hd : decodeCommand s.cap s.cmd with
  | command i =>
    rw [hd] at h
    simp only [exec_eq_run] at h
    obtain ⟨hv, e⟩ | ⟨c, hv, e⟩ := Plan.run_next h
    · exact .inl ⟨i, rfl, hv, e⟩
    · exact .inr ⟨c, e, .inl ⟨i, rfl, hv⟩⟩
  | illegal r =>
    rw [hd] at h
    exact .inr ⟨.illegalCmd, (Host.Outcome.next.inj h).symm, .inr ⟨⟨r, rfl⟩, rfl⟩⟩

/-- The same for one element turn. -/
theorem blockElement_next {k : Nat} {s t : State} (h : blockElement k s = .next t) :
    (∃ i, decodeCommand s.cap s.cmd = .command i ∧ (planOf i s).verdict = .go ∧ t = (planOf i s).elementDone k s) ∨
    (∃ c, t = raiseFault c s ∧ ((∃ i, decodeCommand s.cap s.cmd = .command i ∧ (planOf i s).verdict = .trap c) ∨
      ((∃ r, decodeCommand s.cap s.cmd = .illegal r) ∧ c = .illegalCmd))) := by
  simp only [blockElement] at h
  cases hd : decodeCommand s.cap s.cmd with
  | command i =>
    rw [hd] at h
    obtain ⟨hv, e⟩ | ⟨c, hv, e⟩ := Plan.element_next h
    · exact .inl ⟨i, rfl, hv, e⟩
    · exact .inr ⟨c, e, .inl ⟨i, rfl, hv⟩⟩
  | illegal r =>
    rw [hd] at h
    exact .inr ⟨.illegalCmd, (Host.Outcome.next.inj h).symm, .inr ⟨⟨r, rfl⟩, rfl⟩⟩

theorem blockFinish_command {s : State} {i : Instr} (h : decodeCommand s.cap s.cmd = .command i) : blockFinish s = exec i s := by
  simp only [blockFinish, h]

theorem blockFinish_illegal {s : State} {r : Illegal} (h : decodeCommand s.cap s.cmd = .illegal r) :
    blockFinish s = .next (raiseFault .illegalCmd s) := by
  simp only [blockFinish, h]

theorem blockElement_command {k : Nat} {s : State} {i : Instr} (h : decodeCommand s.cap s.cmd = .command i) :
    blockElement k s = (planOf i s).element k s := by
  simp only [blockElement, h]

/-! ### Issue and the registers -/

theorem writeCmd_issue {w : Word} {s : State} (hb : s.status.busy = false) (hf : s.status.fault = false) :
    writeCmd w s = { s with cmd := w, status := s.status.issue, prog := some [], held := s.held.join (footprintOf w s) } := by
  simp [writeCmd, hb, hf]

theorem writeCmd_dropped {w : Word} {s : State} (h : s.status.busy = true ∨ s.status.fault = true) : writeCmd w s = s := by
  simp only [writeCmd, Bool.or_eq_true, if_pos h]

/-- An aligned access to a register of the window is routed to it. -/
theorem route_register {c : Config} (hc : configOk c = true) (r : Reg) :
    route c (c.regBase + r.offset) 4 = .register r.offset := by
  obtain ⟨h1, h2⟩ := configOk_regBase hc
  have ho : r.offset % 4 = 0 ∧ r.offset + 4 ≤ 0x20 := by cases r <;> decide
  have hm : rangesMeet (ownWindow c) { base := c.regBase + r.offset, size := 4 } = true := by
    rw [rangesMeet_iff]
    exact ⟨c.regBase + r.offset, by simp only [ownWindow]; omega, by simp only; omega⟩
  rw [route, if_pos hm, if_pos ⟨rfl, by omega⟩, Nat.add_sub_cancel_left]

theorem regAt_offset (r : Reg) : regAt r.offset = some r := by cases r <;> rfl

/-- A host read of a register other than `STATUS` returns it and changes nothing. -/
theorem hostRead_register {s : State} (hc : configOk s.cfg = true) (r : Reg) (hr : r ≠ .status) :
    hostRead (s.cfg.regBase + r.offset) .w32 s = .next (note (readReg r s) s) := by
  have h := route_register hc r
  simp only [hostRead, Width.bytes, h, readWindow, regAt_offset, Option.some.injEq, if_neg hr]

/-- A host read of `STATUS` returns it, and gives the host its memory back when it reads `BUSY = 0`. -/
theorem hostRead_status {s : State} (hc : configOk s.cfg = true) :
    hostRead (s.cfg.regBase + Reg.status.offset) .w32 s = .next (note s.status.word (observeStatus s)) := by
  have h := route_register hc .status
  simp only [hostRead, Width.bytes, h, readWindow, regAt_offset, if_true, readReg]

/-- A host write to a register is `writeReg`. -/
theorem hostWrite_register {s : State} (hc : configOk s.cfg = true) (r : Reg) (v : Word) :
    hostWrite (s.cfg.regBase + r.offset) .w32 v s = .next (writeReg r v s) := by
  have h := route_register hc r
  simp only [hostWrite, Width.bytes, h, writeWindow, regAt_offset]

/-- An access to plain memory is routed to memory, and only such an access is. -/
theorem route_memory_iff {c : Config} {a size : Nat} :
    route c a size = .memory ↔ ∀ x, a ≤ x → x < a + size → plainAt c x := by
  have key := plainRange_iff (c := c) (q := { base := a, size := size })
  simp only at key
  rw [← key]
  simp only [route]
  cases hw : rangesMeet (ownWindow c) { base := a, size := size } with
  | true =>
    simp only [if_true, isWindowOrDevice, hw, Bool.true_or, reduceCtorEq, and_false, iff_false]
    split <;> simp
  | false =>
    simp only [Bool.false_eq_true, if_false]
    cases ha : isAbsent c { base := a, size := size } with
    | true => simp
    | false =>
      simp only [Bool.false_eq_true, if_false, true_and]
      cases hd : isWindowOrDevice c { base := a, size := size } <;> simp

/-- What a host action can make of a state when it answers with a next state. -/
inductive HostEffect (s : State) : State → Prop where
  /-- A dropped write. -/
  | same : HostEffect s s
  /-- A write to `CMD`. -/
  | command (w : Word) : HostEffect s (writeCmd w s)
  /-- A write to an operand register of an idle block. -/
  | a0 (v : Word) (idle : s.status.busy = false) : HostEffect s { s with a0 := v }
  | a1 (v : Word) (idle : s.status.busy = false) : HostEffect s { s with a1 := v }
  | a2 (v : Word) (idle : s.status.busy = false) : HostEffect s { s with a2 := v }
  | n (v : Word) (idle : s.status.busy = false) : HostEffect s { s with n := v }
  /-- A read. -/
  | read (v : Word) : HostEffect s (note v s)
  /-- A read of `STATUS`. -/
  | status : HostEffect s (note s.status.word (observeStatus s))
  /-- A store to plain memory that no command owns. -/
  | store (x : Nat) (w : Width) (v : Word) (plain : ∀ y, x ≤ y → y < x + w.bytes → plainAt s.cfg y)
      (free : writeRaces s x w.bytes = false) : HostEffect s { s with mem := s.mem.writeWidth x v w }

theorem writeReg_effect (r : Reg) (v : Word) (s : State) : HostEffect s (writeReg r v s) := by
  cases hb : s.status.busy
  · cases r <;> simp only [writeReg, hb, Bool.false_eq_true, if_false]
    · exact .same
    · exact .same
    · exact .command v
    · exact .a0 v hb
    · exact .a1 v hb
    · exact .a2 v hb
    · exact .n v hb
  · cases r <;> simp only [writeReg, hb, if_true]
    case cmd => exact .command v
    all_goals exact .same

theorem hostWrite_effect {x : Nat} {w : Width} {v : Word} {s t : State} (h : hostWrite x w v s = .next t) : HostEffect s t := by
  simp only [hostWrite] at h
  cases hr : route s.cfg x w.bytes <;> simp only [hr, reduceCtorEq] at h
  case register o =>
    cases Host.Outcome.next.inj h
    simp only [writeWindow]
    split
    · exact writeReg_effect _ v s
    · exact .same
  case memory =>
    split at h
    · cases h
    next hn =>
      cases h
      exact .store x w v (route_memory_iff.mp hr) (by simpa using hn)

theorem hostRead_effect {x : Nat} {w : Width} {s t : State} (h : hostRead x w s = .next t) : HostEffect s t := by
  simp only [hostRead] at h
  cases hr : route s.cfg x w.bytes <;> simp only [hr, reduceCtorEq] at h
  case register o =>
    cases Host.Outcome.next.inj h
    split
    next ho => simp only [readWindow, ho]; exact .status
    · exact .read _
  case memory =>
    split at h
    · cases h
    · cases h; exact .read _

/-- Everything a host action can answer with a next state. -/
theorem hostAct_next {a : HostAction} {s t : State} (h : hostAct a s = .next t) : HostEffect s t := by
  cases a with
  | wr r v => exact hostWrite_effect h
  | rd r => exact hostRead_effect h
  | command w => exact hostWrite_effect h
  | wait => exact hostRead_effect h
  | mw x v => exact hostWrite_effect h
  | mr x => exact hostRead_effect h
  | busWrite x w v => exact hostWrite_effect h
  | busRead x w => exact hostRead_effect h

/-! ### Events and steps -/

/-- Everything an event can answer with a next state. -/
theorem handle_next {e : Event} {s t : State} (h : handle e s = .next t) :
    (∃ es, s.status.busy = true ∧ blockFinish { s with events := es } = .next t) ∨ (∃ a, hostAct a s = .next t) ∨
    (∃ k, s.status.busy = true ∧ blockElement k s = .next t) ∨ (s.status.busy = false ∧ t = s) ∨
    (e = .reset ∧ t = resetBlock s) := by
  have wait : ∀ a, e = .host a → a ≠ .wait → hostAct a s = .next t := by
    rintro a rfl ha
    cases a <;> first | exact absurd rfl ha | exact h
  cases e with
  | host a =>
    by_cases ha : a = .wait
    · subst ha
      simp only [handle] at h
      split at h
      next hb => exact .inl ⟨_, hb, h⟩
      next hb => exact .inr (.inl ⟨_, h⟩)
    · exact .inr (.inl ⟨a, wait a rfl ha⟩)
  | element k =>
    simp only [handle] at h
    split at h
    next hb => exact .inr (.inr (.inl ⟨k, hb, h⟩))
    next hb => exact .inr (.inr (.inr (.inl ⟨by simpa using hb, (Host.Outcome.next.inj h).symm⟩)))
  | finish =>
    simp only [handle] at h
    split at h
    next hb => exact .inl ⟨s.events, hb, h⟩
    next hb => exact .inr (.inr (.inr (.inl ⟨by simpa using hb, (Host.Outcome.next.inj h).symm⟩)))
  | reset => exact .inr (.inr (.inr (.inr ⟨rfl, (Host.Outcome.next.inj h).symm⟩)))

theorem step_nil {s : State} (h : s.events = []) : step s = if s.status.busy then blockFinish s else .next s := by
  simp only [step, h]

theorem step_cons {s : State} {e : Event} {rest : List Event} (h : s.events = e :: rest) :
    step s = handle e { s with events := rest } := by
  simp only [step, h]

/-- Everything a step can do, on the state without its events: a turn of the block, a host action, an element turn, nothing, or a
reset. -/
theorem step_next {s t : State} (h : step s = .next t) :
    ∃ es, (s.status.busy = true ∧ blockFinish { s with events := es } = .next t) ∨
      (∃ a, hostAct a { s with events := es } = .next t) ∨
      (∃ k, s.status.busy = true ∧ blockElement k { s with events := es } = .next t) ∨
      (s.status.busy = false ∧ t = { s with events := es }) ∨
      (s.events = .reset :: es ∧ t = resetBlock { s with events := es }) := by
  cases he : s.events with
  | nil =>
    rw [step_nil he] at h
    refine ⟨s.events, ?_⟩
    split at h
    next hb => exact .inl ⟨hb, h⟩
    next hb => exact .inr (.inr (.inr (.inl ⟨by simpa using hb, (Host.Outcome.next.inj h).symm⟩)))
  | cons e rest =>
    rw [step_cons he] at h
    obtain ⟨es, hb, h1⟩ | ⟨a, h1⟩ | ⟨k, hb, h1⟩ | ⟨hb, h1⟩ | ⟨rfl, h1⟩ := handle_next h
    · exact ⟨es, .inl ⟨hb, h1⟩⟩
    · exact ⟨rest, .inr (.inl ⟨a, h1⟩)⟩
    · exact ⟨rest, .inr (.inr (.inl ⟨k, hb, h1⟩))⟩
    · exact ⟨rest, .inr (.inr (.inr (.inl ⟨hb, h1⟩)))⟩
    · exact ⟨rest, .inr (.inr (.inr (.inr ⟨rfl, h1⟩)))⟩

/-! ### Runs -/

/-- A run of no step is where it starts. -/
theorem runSteps_zero (s : State) : runSteps 0 s = .next s := rfl

/-- A run whose first step answers a next state goes on from it. -/
theorem runSteps_succ {k : Nat} {s t : State} (h : step s = .next t) : runSteps (k + 1) s = runSteps k t := by
  have h' : Sys2Proof.core.step s = .next t := h
  simp only [runSteps, Host.Core.run, h']
  rfl

/-- A run of one step is the step. -/
theorem runSteps_one (s : State) : runSteps 1 s = step s := by
  cases h : step s with
  | next t => rw [runSteps_succ h, runSteps_zero]
  | fault f => have h' : Sys2Proof.core.step s = .fault f := h; simp only [runSteps, Host.Core.run, h']; rfl
  | refused r => have h' : Sys2Proof.core.step s = .refused r := h; simp only [runSteps, Host.Core.run, h']; rfl

end Sys2Proof.Machine
end

