-- ==== Sys2Proof/Laws/Progress.lean ====
section
/-! SUPPORT. What a command in flight depends on, and that the write of one element leaves the rest of the command as it was. -/

namespace Sys2Proof.Machine

/-- The plan of a pixel command depends on the parameters, the base and the count. -/
theorem pixelPlan_congr {F : Word → Word} {s s' : State} (hc : s'.cfg = s.cfg) (h0 : s'.a0 = s.a0) (hn : s'.n = s.n) :
    pixelPlan F s' = pixelPlan F s := by
  have e1 : pixelCount s' = pixelCount s := by simp only [pixelCount, hn]
  have e2 : pixelTrap s' = pixelTrap s := by simp only [pixelTrap, h0, e1]
  have e3 : pixelBuffer s' = pixelBuffer s := by simp only [pixelBuffer, h0, e1]
  have e4 : pixelAddr s' = pixelAddr s := by funext i; simp only [pixelAddr, h0]
  simp only [pixelPlan, e1, e2, e3, e4, hc]

/-- The plan of `HADD` depends on the parameters, the three bases and the two palette words. -/
theorem haddPlan_congr {s s' : State} (hc : s'.cfg = s.cfg) (h0 : s'.a0 = s.a0) (h1 : s'.a1 = s.a1) (h2 : s'.a2 = s.a2)
    (ha : palA s' = palA s) (hb : palB s' = palB s) : haddPlan s' = haddPlan s := by
  have e1 : haddTrap s' = haddTrap s := by simp only [haddTrap, h0, h1, h2, hc]
  have e2 : palTrap s' = palTrap s := by simp only [palTrap, ha, hb, hc]
  have e3 : palette s' = palette s := by simp only [palette, ha]
  have e4 : palRanges s' = palRanges s := by simp only [palRanges, h0, h1]
  have e5 : haddReads s' = haddReads s := by simp only [haddReads, e3, h0, h1, hc]
  have e6 : haddWrites s' = haddWrites s := by simp only [haddWrites, e3, h2, hc]
  have e9 : recordRanges s' = recordRanges s := by simp only [recordRanges, h0, h1, h2, hc]
  have e7 : haddVerdict s' = haddVerdict s := by simp only [haddVerdict, e1, e2, e4, e9, h0, h1, h2, hc]
  have e8 : haddFoot s' = haddFoot s := by simp only [haddFoot, e1, e2, e4, e5, e6]
  simp only [haddPlan, e7, e8, e3, h0, h1, h2, hc]

/-- The plan of a command depends on the parameters, the operand registers and, for `HADD`, the two palette words (R104). -/
theorem planOf_congr {i : Instr} {s s' : State} (hc : s'.cfg = s.cfg) (h0 : s'.a0 = s.a0) (h1 : s'.a1 = s.a1) (h2 : s'.a2 = s.a2)
    (hn : s'.n = s.n) (hp : i = .hadd → palA s' = palA s ∧ palB s' = palB s) : planOf i s' = planOf i s := by
  cases i with
  | subg => exact pixelPlan_congr hc h0 hn
  | ctrans a b c => exact pixelPlan_congr hc h0 hn
  | hadd => exact haddPlan_congr hc h0 h1 h2 (hp rfl).1 (hp rfl).2

/-- The words a command writes after passed checks lie in the address space and share no byte. -/
theorem planOf_spaced {i : Instr} {s : State} (hc : configOk s.cfg = true) (hv : (planOf i s).verdict = .go) :
    (planOf i s).Spaced (planOf i s).domain := by
  cases i with
  | subg => exact pixelPlan_spaced (pixelPlan_go_iff.mp hv).1
  | ctrans a b c => exact pixelPlan_spaced (pixelPlan_go_iff.mp hv).1
  | hadd => obtain ⟨h1, -, h2, -⟩ := haddVerdict_go_iff.mp hv; exact (haddPlan_spaced hc h1 h2).1

/-- No counter of `out` shares a byte with a palette word of an input (R72). -/
theorem haddPlan_palette_apart {s : State} (hc : configOk s.cfg = true) (hv : (haddPlan s).verdict = .go) {k : Nat}
    (hk : k ∈ (haddPlan s).domain) :
    (s.a0.toNat + 4 ≤ (haddPlan s).addr k ∨ (haddPlan s).addr k + 4 ≤ s.a0.toNat) ∧
    (s.a1.toNat + 4 ≤ (haddPlan s).addr k ∨ (haddPlan s).addr k + 4 ≤ s.a1.toNat) := by
  obtain ⟨h1, -, h2, ⟨o0, o1⟩, -⟩ := haddVerdict_go_iff.mp hv
  have hb := (haddPlan_spaced hc h1 h2).2 k hk
  rw [partialOverlap_false_iff] at o0 o1
  have e0 : s.a2 = s.a0 → s.a2.toNat = s.a0.toNat := fun e => congrArg _ e
  have e1 : s.a2 = s.a1 → s.a2.toNat = s.a1.toNat := fun e => congrArg _ e
  simp only [haddPlan, recordAddr]
  constructor
  · rcases o0 with h | h | h
    · have := e0 h; omega
    · omega
    · omega
  · rcases o1 with h | h | h
    · have := e1 h; omega
    · omega
    · omega

/-- Writing one element changes nothing of what the command still has to do. -/
theorem planOf_elementDone {i : Instr} {s : State} {k : Nat} (hc : configOk s.cfg = true) (w : s.mem.wf = true)
    (hv : (planOf i s).verdict = .go) :
    planOf i ((planOf i s).elementDone k s) = planOf i s := by
  simp only [Plan.elementDone]
  split
  next hk =>
    refine planOf_congr rfl rfl rfl rfl rfl ?_
    rintro rfl
    have hd := (Plan.mem_remaining.mp hk).1
    have sp := planOf_spaced hc hv
    obtain ⟨p0, p1⟩ := haddPlan_palette_apart hc hv hd
    exact ⟨Memory.read32_write32_apart w (sp.inside k hd) _ p0,
      Memory.read32_write32_apart w (sp.inside k hd) _ p1⟩
  · rfl

/-- The events do not matter to the write of an element. -/
theorem elementDone_events (p : Plan) (k : Nat) (s : State) (es : List Event) :
    p.elementDone k { s with events := es } = { p.elementDone k s with events := es } := by
  by_cases h : k ∈ p.remaining s
  · have h' : k ∈ p.remaining { s with events := es } := h
    simp only [Plan.elementDone, if_pos h, if_pos h', performed]
  · have h' : ¬ k ∈ p.remaining { s with events := es } := h
    simp only [Plan.elementDone, if_neg h, if_neg h']

theorem mem_progInsert {l : List Nat} {k j : Nat} : j ∈ progInsert l k ↔ j = k ∨ j ∈ l := by
  induction l with
  | nil => simp [progInsert]
  | cons a l ih => simp only [progInsert]; split <;> [skip; split] <;> simp_all; all_goals tauto

theorem progInsert_rising {l : List Nat} {k : Nat} (h : l.Pairwise (· < ·)) : (progInsert l k).Pairwise (· < ·) := by
  induction l with
  | nil => simp [progInsert]
  | cons a l ih =>
    have h' := List.pairwise_cons.mp h
    simp only [progInsert]
    split
    · rw [List.pairwise_cons]; refine ⟨?_, h⟩
      intro x hx; rcases List.mem_cons.mp hx with rfl | hx
      · assumption
      · have := h'.1 x hx; omega
    · split
      · exact h
      · rw [List.pairwise_cons]; refine ⟨?_, ih h'.2⟩
        intro x hx; rcases mem_progInsert.mp hx with rfl | hx
        · omega
        · exact h'.1 x hx

/-- Nothing is asked of the progress of an idle block. -/
theorem progressOk_idle {s : State} (hb : s.status.busy = false) : ProgressOk s := by
  constructor <;> simp [inFlight, hb]

/-- Right after an issue nothing has been written and the footprint has been handed over (R30, R36, R230). -/
theorem progressOk_issue {s : State} {w : Word} (hb : s.status.busy = false) (hf : s.status.fault = false) :
    ProgressOk (writeCmd w s) := by
  rw [writeCmd_issue hb hf]
  refine ⟨fun _ r hr => List.mem_append_right _ hr, fun _ r hr => List.mem_append_right _ hr, ?_, ?_, ?_⟩
  · exact fun i _ hp => absurd rfl hp
  · exact fun i _ k hk => absurd hk (List.not_mem_nil)
  · exact fun _ _ _ => rfl

end Sys2Proof.Machine
end

