-- ==== Sys2Proof/Tests/Slice0.lean ====
section
/-! SUPPORT. Tests: terms that the checks refuse, words written out from the encodings of spec/30_encoding.md, one step of each command on
small states with results taken from spec/, and for each obligation a state and operands that meet its hypotheses. -/

namespace Sys2Proof.Tests

open Sys2Proof.Machine

-- One test after the other: a test by `decide +kernel` waits for all before it, and each waiting test holds a thread and its stack.
set_option Elab.async false

/-! ### States -/

/-- Small parameters, so that a record is 12 words: a hole, a device and another window are on the memory map. -/
def tiny : Config where
  vpix    := 2
  chunk   := 1
  nfix    := 2
  abase   := 3
  extra   := [0, 1]
  pmax    := 1
  ndist   := 1
  capOps  := 0x7#3
  regBase := 0x1000
  map     := [⟨⟨0x2000, 0x100⟩, .absent⟩, ⟨⟨0x3000, 0x10⟩, .device⟩, ⟨⟨0x4000, 0x20⟩, .window⟩]

/-- An idle block with these operand registers and memory words. -/
def idle (a0 a1 a2 n : Word) (words : List (Nat × Word)) : State :=
  { State.reset with
    cfg := tiny, cap := 0x7#3, a0 := a0, a1 := a1, a2 := a2, n := n
    mem := words.foldl (fun m p => m.write32 p.1 p.2) [] }

/-- A block that has just taken a command word. -/
def issued (w : Word) (s : State) : State := writeCmd w s

/-- A faulted block. -/
def faulted : State := { idle 0 0 0 0 [] with status := ⟨false, false, true, 3#4⟩ }

/-- Two pixels at `0x100` (spec/95_test_vectors.md T10). -/
def twoPixels : State := idle 0x100 0 0 2 [(0x100, 0x12345678), (0x104, 0xA500FF37)]

/-- Two records with palette word 1 and a third apart from them. -/
def threeRecords : State :=
  idle 0x100 0x200 0x300 0xFFFFFFFF [(0x100, 1), (0x104, 5), (0x110, 1), (0x200, 1), (0x204, 6), (0x210, 2), (0x12C, 0x0FFFFFFF),
    (0x22C, 0x0FFFFFFF), (0x300, 0xCCCCCCCC)]

/-- The same, accumulating into `b`. -/
def inPlace : State := { threeRecords with a2 := 0x200 }

/-- Two pixels at the very top of the address space. -/
def topPixels : State := idle 0xFFFFFFF8 0 0 2 [(0xFFFFFFF8, 0x12345678)]

theorem next_of_isSome {o : Host.Outcome State Fault Refusal} (h : (nextOf o).isSome = true) : ∃ t, o = .next t := by
  cases o with
  | next t => exact ⟨t, rfl⟩
  | fault f => cases h
  | refused r => cases h

/-- A range is plain memory when the machine's own check says so. -/
theorem plain_of_check {c : Config} {a size : Nat}
    (h : (isAbsent c ⟨a, size⟩ || isWindowOrDevice c ⟨a, size⟩) = false) : ∀ x, a ≤ x → x < a + size → plainAt c x :=
  plainRange_iff.mp (by simpa using h)

theorem machineInv_idle {s : State} (h : (configOk s.cfg && s.mem.wf && s.status.legal && decide (s.cap = s.cfg.capOps) &&
    decide (s.prog.isSome = s.status.busy) && decide ((performed s).Pairwise (· < ·))) = true) : MachineInv s := by
  simp only [Bool.and_eq_true, decide_eq_true_eq] at h
  exact ⟨h.1.1.1.1.1, h.1.1.1.1.2, h.1.1.1.2, h.1.1.2, h.1.2, h.2⟩

theorem machineInv_twoPixels : MachineInv twoPixels := machineInv_idle (by decide +kernel)
theorem machineInv_threeRecords : MachineInv threeRecords := machineInv_idle (by decide +kernel)
theorem machineInv_subg : MachineInv (issued 0x00000001 twoPixels) := machineInv_idle (by decide +kernel)
theorem machineInv_hadd : MachineInv (issued 0x00000003 threeRecords) := machineInv_idle (by decide +kernel)
theorem progressOk_subg : ProgressOk (issued 0x00000001 twoPixels) := progressOk_issue (by decide) (by decide)
theorem progressOk_hadd : ProgressOk (issued 0x00000003 threeRecords) := progressOk_issue (by decide) (by decide)

/-! ### Terms the checks refuse (R89, R91) -/

theorem test_capability_subg : Instr.subg.wellFormed 0x6#3 = false := by decide
theorem test_capability_ctrans : (Instr.ctrans 1 2 3).wellFormed 0x5#3 = false := by decide
theorem test_capability_hadd : Instr.hadd.wellFormed 0x3#3 = false := by decide
theorem test_operand_too_low : (AsmOperand.decimal (-129)).wellFormed = false := by decide
theorem test_operand_too_high : (AsmOperand.decimal 128).wellFormed = false := by decide
theorem test_operand_hex_too_high : (AsmOperand.hex 256).wellFormed = false := by decide

/-! ### Words written out from the encodings of R82, R83, R85 -/

theorem test_word_subg : decodeWord 0b00000000000000000000000000000001#32 = .command .subg := by decide
theorem test_word_ctrans :
    decodeWord 0b00001000000100000010000000000010#32 = .command (.ctrans 0b00100000 0b00010000 0b00001000) := by decide
theorem test_word_hadd : decodeWord 0b00000000000000000000000000000011#32 = .command .hadd := by decide
theorem test_word_reserved : decodeWord 0b00000000000000000000000000000100#32 = .illegal .reservedOpcode := by decide
theorem test_word_arg : decodeWord 0b00000000000000000000000100000001#32 = .illegal .argNotZero := by decide
theorem test_table_word_too_long : decodeTableWord 40 0x0100000001 = none := by decide

/-- R91, spec/95_test_vectors.md P2: the assembled word of `ctrans 26, -13, 5`. -/
theorem test_assemble_text : assembleText "ctrans 26, -13, 0x05 ; comment".toList = some 0x05F31A02 := by decide +kernel

/-! ### One step of each command, with results from spec/ -/

/-- T10 and S1: `SUBG` on `0x12345678` and `0xA500FF37`. -/
theorem test_subg : (nextOf (step (issued 0x00000001 twoPixels))).map (fun t => (t.mem.read32 0x100, t.mem.read32 0x104, t.status.word)) =
    some (0x12DE5622, 0xA501FF38, 0x00000002) := by decide +kernel

/-- R194: a misaligned base is reported before a negative count. -/
theorem test_subg_fault : (nextOf (step (issued 0x00000001 (idle 0x1002 0 0 0xFFFFFFFF [])))).map (fun t => t.status.word) =
    some 0x00000024 := by decide +kernel

/-- P2: `CTRANS(26, -13, 5)` on two pixels of the table of stages. -/
theorem test_ctrans : (nextOf (step (issued 0x05F31A02 (idle 0x100 0 0 2 [(0x100, 0x12DE5622), (0x104, 0x807F807F)])))).map
    (fun t => (t.mem.read32 0x100, t.mem.read32 0x104)) = some (0x1299564B, 0x80E78038) := by decide +kernel

/-- P2: the stages `C`, `D`, `F`, `H`, `I` of `0x12DE5622`. -/
theorem test_ctrans_stages : (ctC 0x12DE5622, ctD 26 (-13) 0x12DE5622, ctF 5 0x12DE5622, ctH 26 (-13) 5 0x12DE5622,
    ctI 26 (-13) 5 0x12DE5622) = (0x56005600, 0x0045FFDD, 0xFFFA0000, 0x0045FED7, 0x004500D7) := by decide +kernel

/-- R175 in small: sums of live counters, the palette word of `out` left alone. -/
theorem test_hadd : (nextOf (step (issued 0x00000003 threeRecords))).map (fun t => (t.mem.read32 0x300, t.mem.read32 0x304,
    t.mem.read32 0x310, t.mem.read32 0x32C, t.status.word)) = some (0xCCCCCCCC, 11, 3, 0x1FFFFFFE, 0x00000002) := by decide +kernel

/-- T9: palette words 3 and 4 there, 0 and 1 here, do not match. -/
theorem test_hadd_fault : (nextOf (step (issued 0x00000003 { threeRecords with a1 := 0x400 }))).map (fun t => t.status.word) =
    some 0x00000064 := by decide +kernel

/-! ### For each obligation with hypotheses, a state and operands that meet them -/

/-- Format M words at both ends, and opcodes beside the three. -/
theorem witness_OpcodeMapRowsByMaskAndMatch :
    (0x00000002#32 &&& 0x000000FF#32 = 0x00000002#32 ∧ 0xFFFFFF02#32 &&& 0x000000FF#32 = 0x00000002#32) ∧
    (opcOf 0x00000004#32 ≠ 0x01#8 ∧ opcOf 0x00000004#32 ≠ 0x02#8 ∧ opcOf 0x00000004#32 ≠ 0x03#8) ∧
    (opcOf 0xFFFFFFFF#32 ≠ 0x01#8 ∧ opcOf 0xFFFFFFFF#32 ≠ 0x02#8 ∧ opcOf 0xFFFFFFFF#32 ≠ 0x03#8) := by decide

theorem witness_ClearedCapabilityBitMakesACommandIllegal :
    (decodeWord 1 = .command .subg ∧ (0x6#3).getLsbD 0 = false ∧ (0x1#3).getLsbD 0 = true) ∧
    (decodeWord 0xFFFFFF02 = .command (.ctrans 0xFF 0xFF 0xFF) ∧ (0x5#3).getLsbD 1 = false ∧ (0x2#3).getLsbD 1 = true) ∧
    (decodeWord 3 = .command .hadd ∧ (0x3#3).getLsbD 2 = false ∧ (0x4#3).getLsbD 2 = true) := by decide +kernel

theorem witness_IllegalWordIsIssuedThenFaults :
    decodeWord 0xFFFFFF03 = .illegal .argNotZero ∧ decodeWord 0 = .illegal .reservedOpcode ∧
      State.reset.status.busy = false ∧ State.reset.status.fault = false := by decide

theorem witness_AssembledWordsFollowTheFormula :
    (AsmOperand.decimal (-128)).wellFormed = true ∧ (AsmOperand.decimal 127).wellFormed = true ∧ (AsmOperand.hex 255).wellFormed = true ∧
    ¬ ((AsmOperand.decimal 128).wellFormed = true ∧ (AsmOperand.decimal 0).wellFormed = true ∧
      (AsmOperand.hex 0).wellFormed = true) := by decide

theorem witness_StepRunsTheCommandInFlight :
    (inFlight .subg (issued 1 twoPixels) ∧ (issued 1 twoPixels).events = []) ∧
    (inFlight .hadd (issued 3 { threeRecords with events := [.finish] }) ∧
      (issued 3 { threeRecords with events := [.finish] }).events = .finish :: []) ∧
    (inFlight (.ctrans 0 0 0) (issued 2 { twoPixels with events := [.host .wait] }) ∧
      (issued 2 { twoPixels with events := [.host .wait] }).events = .host .wait :: []) := by
  refine ⟨⟨⟨?_, ?_⟩, ?_⟩, ⟨⟨?_, ?_⟩, ?_⟩, ⟨⟨?_, ?_⟩, ?_⟩⟩ <;> decide

theorem witness_PlacedWordRunsAtTheNextStep :
    decodeCommand State.reset.cap (BitVec.ofNat 32 (1 % 2 ^ 32)) = .command .subg ∧
    decodeCommand State.reset.cap (BitVec.ofNat 32 (0xFFFFFF02 % 2 ^ 32)) = .command (.ctrans 0xFF 0xFF 0xFF) ∧
    decodeCommand State.reset.cap (BitVec.ofNat 32 (3 % 2 ^ 32)) = .command .hadd := by decide

theorem witness_IdleBlockStartsNothing :
    (State.reset.status.busy = false ∧ State.reset.events = []) ∧
    (faulted.status.busy = false ∧ { faulted with events := [.finish] }.events = .finish :: []) ∧
    (twoPixels.status.busy = false ∧ { twoPixels with events := [.element 0] }.events = .element 0 :: []) := by decide

theorem witness_CommandWritesIssueOrAreDropped :
    (configOk twoPixels.cfg = true ∧ twoPixels.status.busy = false ∧ twoPixels.status.fault = false) ∧
    (configOk (issued 1 twoPixels).cfg = true ∧ (issued 1 twoPixels).status.busy = true) ∧
    (configOk faulted.cfg = true ∧ faulted.status.fault = true) ∧
    decodeCommand twoPixels.cap 1 = .command .subg ∧ decodeCommand twoPixels.cap 0 = .illegal .reservedOpcode := by decide

theorem witness_OperandRegisterAccess :
    (configOk twoPixels.cfg = true ∧ twoPixels.status.busy = false) ∧
    (configOk (issued 1 twoPixels).cfg = true ∧ (issued 1 twoPixels).status.busy = true) ∧
    ∃ t, exec .subg (issued 1 twoPixels) = .next t :=
  ⟨by decide, by decide, next_of_isSome (by decide +kernel)⟩

/-- The two ends of the window: an access that only its last byte meets, one that starts at its last byte, an unaligned word inside. -/
theorem witness_RegisterWindowMap :
    (configOk tiny = true ∧ (0x1000#32).toNat = tiny.regBase) ∧
    (∀ p ∈ [(0xFFF#32, Width.w16), (0xFFD#32, Width.w32), (0x1000#32, Width.w8), (0x1002#32, Width.w32), (0x101F#32, Width.w8),
        (0x101F#32, Width.w32)],
      p.1.toNat < tiny.regBase + 0x20 ∧ tiny.regBase < p.1.toNat + p.2.bytes ∧ (p.2 ≠ .w32 ∨ p.1.toNat % 4 ≠ 0)) := by decide

theorem witness_StatusReadsItsFieldsAndHardwiredZeros : configOk (issued 1 twoPixels).cfg = true := by decide

theorem witness_CapabilityRegisterReads :
    (configOk twoPixels.cfg = true ∧ MachineInv twoPixels ∧ twoPixels.cfg.capOps = 0x7#3) ∧
    (MachineInv (issued 3 threeRecords) ∧ ∃ t, step (issued 3 threeRecords) = .next t) :=
  ⟨⟨by decide, machineInv_twoPixels, by decide⟩, machineInv_hadd, next_of_isSome (by decide +kernel)⟩

theorem witness_ResetLeavesTheListedValues : (issued 1 twoPixels).cfg.capOps = 0x7#3 := by decide

theorem witness_OnlyResetClearsAFault :
    (faulted.status.legal = true ∧ faulted.status.fault = true ∧ (∃ t, step faulted = .next t) ∧
      ∀ rest, faulted.events ≠ .reset :: rest) ∧
    { faulted with events := [.reset] }.events = .reset :: [] :=
  ⟨⟨by decide, by decide, ⟨faulted, rfl⟩, fun _ h => by cases h⟩, rfl⟩

theorem witness_FaultedBlockTakesNoCommand :
    configOk faulted.cfg = true ∧ faulted.status.busy = false ∧ faulted.status.fault = true := by decide

theorem witness_FaultEntryChangesOnlyStatus :
    (planOf .subg (idle 1 0 0 0 [])).verdict = .trap .misaligned ∧
    (planOf .hadd { threeRecords with a1 := 0x400 }).verdict = .trap .palMismatch ∧
    (decodeCommand (issued 1 (idle 1 0 0 0 [])).cap (issued 1 (idle 1 0 0 0 [])).cmd = .command .subg ∧
      (planOf .subg (issued 1 (idle 1 0 0 0 []))).verdict = .trap .misaligned) ∧
    decodeCommand (issued 0 twoPixels).cap (issued 0 twoPixels).cmd = .illegal .reservedOpcode ∧
    twoPixels.status.busy = false ∧ twoPixels.status.fault = false := by decide +kernel

/-- Each clause at its boundary: a base one off, the least negative count, a buffer one word past the top. -/
theorem witness_PixelCommandsFaultInOrder :
    ((idle 1 0 0 0 []).a0.toNat % 4 ≠ 0 ∧ (idle 0x1003 0 0 0x80000000 []).a0.toNat % 4 ≠ 0) ∧
    ((idle 0 0 0 0xFFFFFFFF []).a0.toNat % 4 = 0 ∧ (idle 0 0 0 0xFFFFFFFF []).n.msb = true ∧
      (idle 0 0 0 0x80000000 []).n.msb = true) ∧
    ((idle 0xFFFFFFFC 0 0 2 []).a0.toNat % 4 = 0 ∧ (idle 0xFFFFFFFC 0 0 2 []).n.msb = false ∧
      2 ^ 32 < (idle 0xFFFFFFFC 0 0 2 []).a0.toNat + 4 * (idle 0xFFFFFFFC 0 0 2 []).n.toNat) := by decide

/-- The last clauses: palette word `PMAX + 1`, and two legal palette words that differ. -/
theorem witness_HistogramAddFaultsInOrder :
    ((idle 0 0 1 0 []).a2.toNat % 4 ≠ 0) ∧
    ((idle 0 0 0xFFFFFFD4 0 []).a2.toNat % 4 = 0 ∧ 2 ^ 32 < (idle 0 0 0xFFFFFFD4 0 []).a2.toNat + 4 * hwords tiny) ∧
    ((idle 0 0x100 0xFFFFFFD0 0 [(0, 2)]).a2.toNat + 4 * hwords tiny ≤ 2 ^ 32 ∧
      (∀ x, 0 ≤ x → x < 0 + 4 → plainAt tiny x) ∧ (∀ x, 0x100 ≤ x → x < 0x100 + 4 → plainAt tiny x) ∧
      tiny.pmax < ((idle 0 0x100 0xFFFFFFD0 0 [(0, 2)]).mem.read32 0).toNat ∧
      ((idle 0 0x100 0xFFFFFFD0 0 [(0, 1)]).mem.read32 0).toNat ≤ tiny.pmax ∧
      ((idle 0 0x100 0xFFFFFFD0 0 [(0, 1)]).mem.read32 0x100).toNat ≤ tiny.pmax ∧
      (idle 0 0x100 0xFFFFFFD0 0 [(0, 1)]).mem.read32 0 ≠ (idle 0 0x100 0xFFFFFFD0 0 [(0, 1)]).mem.read32 0x100) :=
  ⟨by decide, by decide, by decide, plain_of_check (by decide), plain_of_check (by decide), by decide, by decide, by decide, by decide⟩

theorem witness_ZeroMultipliersChangeNothing :
    twoPixels.mem.wf = true ∧ ∃ t, exec (.ctrans 0#8 0#8 0#8) twoPixels = .next t :=
  ⟨by decide +kernel, next_of_isSome (by decide +kernel)⟩

/-- A buffer that ends at the top of the address space; and an empty one. -/
theorem witness_SubtractGreenCompletes :
    topPixels.mem.wf = true ∧ topPixels.a0.toNat % 4 = 0 ∧ 0 ≤ topPixels.n.toInt ∧
      topPixels.a0.toNat + 4 * topPixels.n.toNat ≤ 2 ^ 32 ∧
      (∀ x, topPixels.a0.toNat ≤ x → x < topPixels.a0.toNat + 4 * topPixels.n.toNat → plainAt topPixels.cfg x) :=
  ⟨by decide +kernel, by decide, by decide, by decide, plain_of_check (by decide)⟩

theorem witness_ColorTransformCompletes :
    (idle 0x1000 0 0 0 []).mem.wf = true ∧ (idle 0x1000 0 0 0 []).a0.toNat % 4 = 0 ∧ 0 ≤ (idle 0x1000 0 0 0 []).n.toInt ∧
      (idle 0x1000 0 0 0 []).a0.toNat + 4 * (idle 0x1000 0 0 0 []).n.toNat ≤ 2 ^ 32 ∧
      (∀ x, (idle 0x1000 0 0 0 []).a0.toNat ≤ x →
        x < (idle 0x1000 0 0 0 []).a0.toNat + 4 * (idle 0x1000 0 0 0 []).n.toNat → plainAt tiny x) :=
  ⟨by decide, by decide, by decide, by decide, plain_of_check (by decide)⟩

theorem contract_threeRecords : histogramContract threeRecords := by
  refine ⟨by decide, by decide, by decide +kernel, ?_, ?_⟩
  · rintro h (rfl | rfl) <;> decide
  · rintro x ⟨h, rfl | rfl | rfl, h1, h2⟩
    · exact plain_of_check (a := 0x100) (size := 0x30) (by decide) x h1 h2
    · exact plain_of_check (a := 0x200) (size := 0x30) (by decide) x h1 h2
    · exact plain_of_check (a := 0x300) (size := 0x30) (by decide) x h1 h2

theorem contract_inPlace : histogramContract inPlace := by
  refine ⟨by decide, by decide, by decide +kernel, ?_, ?_⟩
  · rintro h (rfl | rfl) <;> decide
  · rintro x ⟨h, rfl | rfl | rfl, h1, h2⟩
    · exact plain_of_check (a := 0x100) (size := 0x30) (by decide) x h1 h2
    · exact plain_of_check (a := 0x200) (size := 0x30) (by decide) x h1 h2
    · exact plain_of_check (a := 0x200) (size := 0x30) (by decide) x h1 h2

/-- `out` the same record as `b`, disjoint from `a`. -/
theorem witness_HistogramAddCompletes : configOk inPlace.cfg = true ∧ inPlace.mem.wf = true ∧
    inPlace.a0.toNat % 4 = 0 ∧ inPlace.a1.toNat % 4 = 0 ∧ inPlace.a2.toNat % 4 = 0 ∧
    inPlace.a0.toNat + 4 * hwords inPlace.cfg ≤ 2 ^ 32 ∧ inPlace.a1.toNat + 4 * hwords inPlace.cfg ≤ 2 ^ 32 ∧
    inPlace.a2.toNat + 4 * hwords inPlace.cfg ≤ 2 ^ 32 ∧
    (inPlace.mem.read32 inPlace.a0.toNat).toNat ≤ inPlace.cfg.pmax ∧
    inPlace.mem.read32 inPlace.a1.toNat = inPlace.mem.read32 inPlace.a0.toNat ∧
    (inPlace.a2.toNat + 4 * hwords inPlace.cfg ≤ inPlace.a0.toNat ∨ inPlace.a0.toNat + 4 * hwords inPlace.cfg ≤ inPlace.a2.toNat) ∧
    inPlace.a2 = inPlace.a1 ∧
    (∀ x, inPlace.a0.toNat ≤ x → x < inPlace.a0.toNat + 4 * hwords inPlace.cfg → plainAt inPlace.cfg x) ∧
    (∀ x, inPlace.a1.toNat ≤ x → x < inPlace.a1.toNat + 4 * hwords inPlace.cfg → plainAt inPlace.cfg x) ∧
    (∀ x, inPlace.a2.toNat ≤ x → x < inPlace.a2.toNat + 4 * hwords inPlace.cfg → plainAt inPlace.cfg x) :=
  ⟨by decide, by decide +kernel, by decide, by decide, by decide, by decide, by decide, by decide, by decide +kernel, by decide +kernel,
    by decide, by decide, plain_of_check (by decide), plain_of_check (by decide), plain_of_check (by decide)⟩

theorem witness_PixelCommandFrame :
    twoPixels.mem.wf = true ∧ (∃ t, exec .subg twoPixels = .next t) ∧ (∃ t, exec (.ctrans 26 (-13) 5) twoPixels = .next t) ∧
      (∃ t, exec .subg (idle 1 0 0 0 []) = .next t) ∧
      (∀ k, k < (pixelCount twoPixels).toNat → ¬ (pixelAddr twoPixels k ≤ 0x108 ∧ 0x108 < pixelAddr twoPixels k + 4)) :=
  ⟨by decide +kernel, next_of_isSome (by decide +kernel), next_of_isSome (by decide +kernel), next_of_isSome (by decide +kernel),
    by decide⟩

theorem witness_HistogramAddFrame :
    configOk threeRecords.cfg = true ∧ threeRecords.mem.wf = true ∧ (∃ t, exec .hadd threeRecords = .next t) ∧
      (∀ e ∈ counterDomain threeRecords.cfg (palette threeRecords),
        ¬ (counterAddr threeRecords.cfg threeRecords.a2 e ≤ 0x303 ∧ 0x303 < counterAddr threeRecords.cfg threeRecords.a2 e + 4)) :=
  ⟨by decide, by decide +kernel, next_of_isSome (by decide +kernel), by decide +kernel⟩

/-- With palette word 0 the literal array has one word of padding. -/
theorem witness_HistogramAddLeavesPaletteAndPadding :
    configOk tiny = true ∧ (idle 0x100 0x200 0x300 0 []).mem.wf = true ∧ (∃ t, exec .hadd (idle 0x100 0x200 0x300 0 []) = .next t) ∧
      (litLen tiny (palette (idle 0x100 0x200 0x300 0 [])) ≤ 3 ∧ 3 < litCap tiny) ∧
      (idle 0x100 0x200 0x300 0 []).a0 ≠ (idle 0x100 0x200 0x300 0 []).a2 ∧
      (idle 0x100 0x200 0x300 0 []).a1 ≠ (idle 0x100 0x200 0x300 0 []).a2 :=
  ⟨by decide, by decide, next_of_isSome (by decide +kernel), by decide, by decide, by decide⟩

/-- The last counter, with the greatest inputs the bound allows. -/
theorem witness_CounterSumsAreExactWithinTheBound :
    configOk threeRecords.cfg = true ∧ threeRecords.mem.wf = true ∧
      (∃ t, exec .hadd threeRecords = .next t ∧ t.status.done = true) ∧ threeRecords.status.done = false ∧
      performed threeRecords = [] ∧ (Part.dist, 0) ∈ counterDomain threeRecords.cfg (palette threeRecords) ∧
      (threeRecords.mem.read32 (counterAddr threeRecords.cfg threeRecords.a0 (.dist, 0))).toNat = counterBound - 1 ∧
      (threeRecords.mem.read32 (counterAddr threeRecords.cfg threeRecords.a1 (.dist, 0))).toNat = counterBound - 1 :=
  ⟨by decide, by decide +kernel, ⟨_, Plan.run_go (p := haddPlan threeRecords) (by decide +kernel), rfl⟩, by decide, by decide,
    by decide +kernel, by decide +kernel, by decide +kernel⟩

theorem witness_HistogramAddCommutes :
    (∃ t, exec .hadd threeRecords = .next t) ∧ (exec .hadd { threeRecords with a2 := 0x2000 } = .fault .noMemory) ∧
      exec .hadd { threeRecords with a2 := 0x204 } = .refused .partialOverlap :=
  ⟨next_of_isSome (by decide +kernel),
    by rw [exec_eq_run, Plan.run, show (planOf .hadd { threeRecords with a2 := 0x2000 }).verdict = .stuck .noMemory by decide +kernel],
    by rw [exec_eq_run, Plan.run, show (planOf .hadd { threeRecords with a2 := 0x204 }).verdict = .refuse .partialOverlap by
        decide +kernel]⟩

theorem witness_AliasedAccumulateMatchesAFreshOutput :
    configOk threeRecords.cfg = true ∧ threeRecords.mem.wf = true ∧ performed threeRecords = [] ∧ threeRecords.status.done = false ∧
      (0x200 : Word) = threeRecords.a1 ∧ (∃ t, exec .hadd threeRecords = .next t ∧ t.status.done = true) ∧
      ∃ u, exec .hadd { threeRecords with a2 := 0x200 } = .next u ∧ u.status.done = true :=
  ⟨by decide, by decide +kernel, by decide, by decide, by decide,
    ⟨_, Plan.run_go (p := haddPlan threeRecords) (by decide +kernel), rfl⟩,
    ⟨_, Plan.run_go (p := haddPlan { threeRecords with a2 := 0x200 }) (by decide +kernel), rfl⟩⟩

theorem witness_WritesStayInsideTheFootprint :
    (configOk threeRecords.cfg = true ∧ threeRecords.mem.wf = true ∧ ∃ t, exec .hadd threeRecords = .next t) ∧
    (planOf .hadd threeRecords).verdict = .go ∧ (planOf .subg twoPixels).verdict = .go ∧
    ((planOf .subg (idle 1 0 0 0 [])).verdict = .trap .misaligned ∧ ∃ t, exec .subg (idle 1 0 0 0 []) = .next t) ∧
    ((planOf .hadd { threeRecords with a1 := 0x400 }).verdict = .trap .palMismatch ∧
      (∃ t, exec .hadd { threeRecords with a1 := 0x400 } = .next t) ∧
      inRanges (planOf .hadd { threeRecords with a1 := 0x400 }).foot.reads 0x403) :=
  ⟨⟨by decide, by decide +kernel, next_of_isSome (by decide +kernel)⟩, by decide +kernel, by decide +kernel,
    ⟨by decide, next_of_isSome (by decide +kernel)⟩, by decide +kernel, next_of_isSome (by decide +kernel),
    ⟨⟨0x400, 4⟩, by decide +kernel, by decide⟩⟩

/-- Both sides of the equivalence are met, and both fail, somewhere. -/
theorem witness_CommandsCompleteExactlyUnderTheContract :
    threeRecords.status.done = false ∧ contractKept .hadd threeRecords ∧
      contractKept .hadd inPlace ∧ ¬ contractKept .subg (idle 1 0 0 0 []) :=
  ⟨by decide, contract_threeRecords, contract_inPlace, fun h => absurd h.1 (by decide)⟩

theorem witness_SubtractGreenVectorPathIsBitIdentical :
    twoPixels.mem.wf = true ∧ performed twoPixels = [] ∧ pixelTrap twoPixels = none ∧ ∃ t, exec .subg twoPixels = .next t :=
  ⟨by decide +kernel, by decide, by decide, next_of_isSome (by decide +kernel)⟩

theorem witness_ColorTransformVectorPathIsBitIdentical :
    twoPixels.mem.wf = true ∧ performed twoPixels = [] ∧ pixelTrap twoPixels = none ∧
      ∃ t, exec (.ctrans 26 (-13) 5) twoPixels = .next t :=
  ⟨by decide +kernel, by decide, by decide, next_of_isSome (by decide +kernel)⟩

theorem witness_HistogramAdderPathsAgree :
    configOk inPlace.cfg = true ∧ inPlace.mem.wf = true ∧ performed inPlace = [] ∧ (haddPlan inPlace).verdict = .go ∧
      ∃ t, exec .hadd inPlace = .next t :=
  ⟨by decide, by decide +kernel, by decide, by decide +kernel, next_of_isSome (by decide +kernel)⟩

/-- Two states whose memories differ outside the read set. -/
theorem witness_CommandIsAFunctionOfItsReadSet :
    let other : State := idle 0x100 0 0 2 [(0x100, 0x12345678), (0x104, 0xA500FF37), (0x200, 1)]
    configOk twoPixels.cfg = true ∧ twoPixels.mem.wf = true ∧ other.mem.wf = true ∧ other.mem ≠ twoPixels.mem ∧
      performed twoPixels = [] ∧ performed other = [] ∧
      (∀ x, inRanges (planOf .subg twoPixels).foot.reads x → other.mem.get x = twoPixels.mem.get x) ∧
      ∃ t, exec .subg twoPixels = .next t := by
  refine ⟨by decide, by decide +kernel, by decide +kernel, by decide +kernel, by decide, by decide, ?_, next_of_isSome (by decide +kernel)⟩
  intro x hx
  rw [show (planOf .subg twoPixels).foot.reads = [⟨0x100, 8⟩] by decide] at hx
  simp only [inRanges, List.mem_singleton, exists_eq_left] at hx
  obtain ⟨h1, h2⟩ := hx
  interval_cases x <;> decide +kernel

theorem witness_BusyBlockRetires :
    ((issued 1 twoPixels).status.busy = true ∧ (issued 1 twoPixels).status.legal = true ∧ (issued 1 twoPixels).events = [] ∧
      ∃ t, step (issued 1 twoPixels) = .next t) ∧
    (inFlight .subg (issued 1 twoPixels) ∧ (planOf .subg (issued 1 twoPixels)).verdict = .go) ∧
    (inFlight .subg (issued 1 (idle 1 0 0 0 [])) ∧ (planOf .subg (issued 1 (idle 1 0 0 0 []))).verdict = .trap .misaligned) ∧
    ((issued 0 twoPixels).status.busy = true ∧ decodeCommand (issued 0 twoPixels).cap (issued 0 twoPixels).cmd = .illegal .reservedOpcode) :=
  ⟨⟨by decide, by decide, by decide, next_of_isSome (by decide +kernel)⟩, ⟨⟨by decide, by decide⟩, by decide +kernel⟩,
    ⟨⟨by decide, by decide⟩, by decide⟩, by decide, by decide⟩

theorem witness_StepKeepsTheMachineInvariant :
    MachineInv (issued 3 threeRecords) ∧ ∃ t, step (issued 3 threeRecords) = .next t :=
  ⟨machineInv_hadd, next_of_isSome (by decide +kernel)⟩

theorem witness_ResetMeetsTheInvariants : MachineInv (issued 3 threeRecords) := machineInv_hadd

theorem witness_StepKeepsProgressInsideTheCommand :
    MachineInv (issued 3 threeRecords) ∧ ProgressOk (issued 3 threeRecords) ∧ ∃ t, step (issued 3 threeRecords) = .next t :=
  ⟨machineInv_hadd, progressOk_hadd, next_of_isSome (by decide +kernel)⟩

theorem witness_ElementOrderIsUnobservable :
    MachineInv (issued 3 threeRecords) ∧ ProgressOk (issued 3 threeRecords) ∧ inFlight .hadd (issued 3 threeRecords) ∧
      (planOf .hadd (issued 3 threeRecords)).verdict = .go :=
  ⟨machineInv_hadd, progressOk_hadd, ⟨by decide, by decide⟩, by decide +kernel⟩

theorem witness_ResetInMidCommandLeavesOldOrNewWords :
    MachineInv (issued 1 twoPixels) ∧ ProgressOk (issued 1 twoPixels) ∧ inFlight .subg (issued 1 twoPixels) ∧
      performed (issued 1 twoPixels) = [] ∧ (planOf .subg (issued 1 twoPixels)).verdict = .go ∧
      (∀ k ∈ [1], k ∈ (planOf .subg (issued 1 twoPixels)).domain) ∧ 0 ∈ (planOf .subg (issued 1 twoPixels)).domain :=
  ⟨machineInv_subg, progressOk_subg, ⟨by decide, by decide⟩, by decide, by decide +kernel, by decide, by decide⟩

/-- One word of overlap, at either end of the record. -/
theorem witness_PartialOverlapIsRefused :
    ∀ o ∈ [0x22C#32, 0x1D4#32], haddTrap { threeRecords with a2 := o } = none ∧ palTrap { threeRecords with a2 := o } = none ∧
      (∀ x, 0x100 ≤ x → x < 0x100 + 4 → plainAt tiny x) ∧ (∀ x, 0x200 ≤ x → x < 0x200 + 4 → plainAt tiny x) ∧
      o ≠ 0x200#32 ∧ o.toNat < 0x200 + 4 * hwords tiny ∧ 0x200 < o.toNat + 4 * hwords tiny := by
  intro o ho
  simp only [List.mem_cons, List.not_mem_nil, or_false] at ho
  rcases ho with rfl | rfl <;>
    exact ⟨by decide +kernel, by decide +kernel, plain_of_check (by decide), plain_of_check (by decide), by decide, by decide, by decide⟩

/-- Buffers whose last byte is the first of a hole, and whose last word is the first of the window or the device. -/
theorem witness_BufferOutsidePlainMemoryStops :
    (pixelTrap (idle 0x1FFC 0 0 2 []) = none ∧ ∃ g ∈ tiny.map, g.kind = .absent ∧
      g.range.base ≤ 0x2000 ∧ 0x2000 < g.range.base + g.range.size ∧ 0x1FFC ≤ 0x2000 ∧ 0x2000 < 0x1FFC + 4 * 2) ∧
    (pixelTrap (idle 0xFFC 0 0 2 []) = none ∧ (∀ g ∈ tiny.map, g.kind = .absent → ∀ x, g.range.base ≤ x →
      x < g.range.base + g.range.size → ¬ (0xFFC ≤ x ∧ x < 0xFFC + 4 * 2)) ∧ (tiny.regBase ≤ 0x1000 ∧ 0x1000 < 0xFFC + 4 * 2)) ∧
    (pixelTrap (idle 0x2FFC 0 0 2 []) = none ∧ (∀ g ∈ tiny.map, g.kind = .absent → ∀ x, g.range.base ≤ x →
      x < g.range.base + g.range.size → ¬ (0x2FFC ≤ x ∧ x < 0x2FFC + 4 * 2)) ∧ ∃ g ∈ tiny.map, g.kind ≠ .absent ∧
      g.range.base ≤ 0x3000 ∧ 0x3000 < g.range.base + g.range.size) := by
  have hole : ∀ g ∈ tiny.map, g.kind = .absent → g.range.base = 0x2000 ∧ g.range.size = 0x100 := by decide
  refine ⟨⟨by decide, ⟨⟨0x2000, 0x100⟩, .absent⟩, by decide⟩, ⟨by decide, ?_, by decide⟩, ⟨by decide, ?_,
    ⟨⟨0x3000, 0x10⟩, .device⟩, by decide⟩⟩
  · intro g hg hk x h1 h2; have := hole g hg hk; omega
  · intro g hg hk x h1 h2; have := hole g hg hk; omega

/-- The last byte of the buffer races, the byte after it does not; a read of a record that is only read does not. -/
theorem witness_HostAccessRacesAreRefused :
    (ProgressOk (issued 1 twoPixels) ∧ inFlight .subg (issued 1 twoPixels) ∧ (∀ x, 0x107 ≤ x → x < 0x107 + 1 → plainAt tiny x) ∧
      inRanges (planOf .subg (issued 1 twoPixels)).foot.writes 0x107 ∧
      ∃ t, blockFinish (issued 1 twoPixels) = .next t ∧ t.cfg = tiny) ∧
    ((∀ x, 0x108 ≤ x → x < 0x108 + 4 → plainAt tiny x) ∧ (∀ x, 0x108 ≤ x → x < 0x108 + 4 →
      ¬ inRanges (issued 1 twoPixels).held.reads x ∧ ¬ inRanges (issued 1 twoPixels).held.writes x) ∧
      inRanges (issued 1 twoPixels).held.reads 0x107 ∧ inRanges (issued 1 twoPixels).held.writes 0x107) ∧
    (∃ t, step { twoPixels with events := [.host (.rd .status)] } = .next t) ∧ configOk twoPixels.cfg = true := by
  have e : (issued 1 twoPixels).held = ⟨[⟨0x100, 8⟩], [⟨0x100, 8⟩]⟩ := by decide
  refine ⟨⟨progressOk_subg, ⟨by decide, by decide⟩, plain_of_check (by decide), ⟨⟨0x100, 8⟩, by decide, by decide⟩,
    ⟨_, Plan.run_go (p := planOf .subg (issued 1 twoPixels)) (by decide +kernel), rfl⟩⟩,
    ⟨plain_of_check (by decide), fun x h1 h2 => ?_, ⟨⟨0x100, 8⟩, by decide, by decide⟩, ⟨⟨0x100, 8⟩, by decide, by decide⟩⟩,
    next_of_isSome (by decide +kernel), by decide⟩
  rw [e]
  simp only [inRanges, List.mem_singleton, exists_eq_left]
  omega

theorem free_idle {a0 a1 a2 n : Word} {words : List (Nat × Word)} (x : Nat) :
    ¬ inRanges (idle a0 a1 a2 n words).held.reads x ∧ ¬ inRanges (idle a0 a1 a2 n words).held.writes x := by
  simp [inRanges, show (idle a0 a1 a2 n words).held = Footprint.empty from rfl, Footprint.empty]

theorem plain_at {c : Config} {a size : Nat} (h : (isAbsent c ⟨a, size⟩ || isWindowOrDevice c ⟨a, size⟩) = false) {j : Nat}
    (hj : j < size) : plainAt c (a + j) :=
  plain_of_check h _ (Nat.le_add_right ..) (Nat.add_lt_add_left hj _)

/-- A pixel in the last word of the address space. -/
theorem witness_NarrowReadsSeeTheChannels :
    (idle 0 0 0 0 [(0xFFFFFFFC, 0x12345678)]).mem.read32 (0xFFFFFFFC#32).toNat = 0x12345678 ∧
      ∀ j, j < 4 → plainAt tiny ((0xFFFFFFFC#32).toNat + j) ∧
        ¬ inRanges (idle 0 0 0 0 [(0xFFFFFFFC, 0x12345678)]).held.writes ((0xFFFFFFFC#32).toNat + j) :=
  ⟨by decide +kernel, fun _ hj => ⟨plain_at (a := 0xFFFFFFFC) (by decide) hj, (free_idle _).2⟩⟩

/-- The last bytes of the address space, in each width. -/
theorem witness_HostWordsReadBack :
    twoPixels.mem.wf = true ∧ (∀ j, j < 4 → plainAt tiny ((0xFFFFFFFC#32).toNat + j)) ∧
      (∀ j, j < Width.w16.bytes → plainAt tiny ((0xFFFFFFFE#32).toNat + j)) ∧
      (∀ j, j < Width.w8.bytes → plainAt tiny ((0xFFFFFFFF#32).toNat + j)) ∧
      (∀ x, ¬ inRanges twoPixels.held.reads x ∧ ¬ inRanges twoPixels.held.writes x) :=
  ⟨by decide +kernel, fun _ hj => plain_at (a := 0xFFFFFFFC) (by decide) hj, fun _ hj => plain_at (a := 0xFFFFFFFE) (by decide) hj,
    fun _ hj => plain_at (a := 0xFFFFFFFF) (by decide) hj, fun _ => free_idle _⟩

theorem witness_SubgRunTransformsTheBuffer :
    MachineInv twoPixels ∧ twoPixels.status.busy = false ∧ twoPixels.status.fault = false ∧ Instr.subg.wellFormed twoPixels.cap = true ∧
      (0xFFFFFFFC#32).toNat % 4 = 0 ∧ 0 ≤ (1#32).toInt ∧ (0xFFFFFFFC#32).toNat + 4 * (1#32).toNat ≤ 2 ^ 32 ∧
      (∀ x, (0xFFFFFFFC#32).toNat ≤ x → x < (0xFFFFFFFC#32).toNat + 4 * (1#32).toNat → plainAt twoPixels.cfg x) :=
  ⟨machineInv_twoPixels, by decide, by decide, by decide, by decide, by decide, by decide, plain_of_check (by decide)⟩

theorem witness_CtransRunTransformsTheBuffer :
    MachineInv twoPixels ∧ twoPixels.status.busy = false ∧ twoPixels.status.fault = false ∧
      (Instr.ctrans 0x80 0x7F 0xFF).wellFormed twoPixels.cap = true ∧ (0x100#32).toNat % 4 = 0 ∧ 0 ≤ (0#32).toInt ∧
      (0x100#32).toNat + 4 * (0#32).toNat ≤ 2 ^ 32 ∧
      (∀ x, (0x100#32).toNat ≤ x → x < (0x100#32).toNat + 4 * (0#32).toNat → plainAt twoPixels.cfg x) :=
  ⟨machineInv_twoPixels, by decide, by decide, by decide, by decide, by decide, by decide, plain_of_check (by decide)⟩

theorem witness_HaddRunAccumulatesTheRecords :
    MachineInv threeRecords ∧ threeRecords.status.busy = false ∧ threeRecords.status.fault = false ∧
      Instr.hadd.wellFormed threeRecords.cap = true ∧ histogramContract { threeRecords with a0 := 0x100, a1 := 0x200, a2 := 0x300 } :=
  ⟨machineInv_threeRecords, by decide, by decide, by decide, contract_threeRecords⟩

/-- The last pixel is an element, the number after it is none. -/
theorem witness_ElementTurnWritesOneWord :
    MachineInv (issued 1 twoPixels) ∧ decodeCommand (issued 1 twoPixels).cap (issued 1 twoPixels).cmd = .command .subg ∧
      (planOf .subg (issued 1 twoPixels)).verdict = .go ∧
      (1 ∈ (planOf .subg (issued 1 twoPixels)).domain ∧ 1 ∉ performed (issued 1 twoPixels)) ∧
      2 ∉ (planOf .subg (issued 1 twoPixels)).domain :=
  ⟨machineInv_subg, by decide, by decide +kernel, by decide, by decide⟩

/-- Where a command goes on, and with what. -/
def after (s : State) : State := (nextOf (exec .hadd s)).getD s

theorem exec_after {s : State} (h : (nextOf (exec .hadd s)).isSome = true) : exec .hadd s = .next (after s) := by
  obtain ⟨t, ht⟩ := next_of_isSome h
  simp only [after, ht, nextOf, Option.getD_some]

/-- Four records with palette word 1, at `0x100`, `0x200`, `0x300` and `0x400`. -/
def fourRecords : State :=
  idle 0 0 0 0 [(0x100, 1), (0x104, 5), (0x200, 1), (0x204, 6), (0x300, 1), (0x304, 7), (0x400, 1)]

theorem witness_HistogramAddAssociates :
    configOk fourRecords.cfg = true ∧ fourRecords.mem.wf = true ∧
      recordsDisjoint fourRecords.cfg 0x400 0x100 ∧ recordsDisjoint fourRecords.cfg 0x400 0x300 ∧
      (∃ t, exec .hadd (accumulating 0x100 0x200 0x400 fourRecords) = .next t ∧ t.status.done = true ∧
        ∃ t', exec .hadd (accumulating 0x400 0x300 0x500 t) = .next t' ∧ t'.status.done = true) ∧
      (∃ u, exec .hadd (accumulating 0x200 0x300 0x400 fourRecords) = .next u ∧ u.status.done = true ∧
        ∃ u', exec .hadd (accumulating 0x100 0x400 0x500 u) = .next u' ∧ u'.status.done = true) :=
  ⟨by decide, by decide +kernel, .inr (by decide), .inr (by decide),
    ⟨_, exec_after (by decide +kernel), by decide +kernel, _, exec_after (by decide +kernel), by decide +kernel⟩,
    ⟨_, exec_after (by decide +kernel), by decide +kernel, _, exec_after (by decide +kernel), by decide +kernel⟩⟩

/-- The holes of the small memory map. -/
theorem holeAt_tiny {x : Nat} : holeAt tiny x ↔ 0x2000 ≤ x ∧ x < 0x2100 := by simp [holeAt, tiny]

/-- Records at `0x100`, `0x200` and `out`, with palette word 0. -/
def writingTo (out : Word) : State := idle 0x100 0x200 out 0 []

theorem recordByte_writingTo {out : Word} (h : out.toNat + 0x30 ≤ 0x2000 ∨ 0x2100 ≤ out.toNat) :
    ∀ x, recordByte (writingTo out) x → ¬ holeAt tiny x := by
  rintro x ⟨r, hr, h1, h2⟩
  rw [show (writingTo out).cfg = tiny from rfl, show hwords tiny = 12 by decide] at h2
  rw [holeAt_tiny]
  rcases hr with rfl | rfl | rfl <;> simp [writingTo, idle] at h1 h2 <;> omega

/-- Palette words in the last word of the hole, of the device and of the block's window; `out` records of which the last word is the first of
the hole or the device, and records of which only the palette word, which `HADD` does not touch, lies in one. -/
theorem witness_HistogramOutsidePlainMemoryStops :
    (haddTrap (idle 0x20FC 0x100 0x200 0 []) = none ∧ paletteByte (idle 0x20FC 0x100 0x200 0 []) 0x20FF ∧ holeAt tiny 0x20FF) ∧
    (haddTrap (idle 0x100 0x300C 0x200 0 []) = none ∧ (∀ x, paletteByte (idle 0x100 0x300C 0x200 0 []) x → ¬ holeAt tiny x) ∧
      paletteByte (idle 0x100 0x300C 0x200 0 []) 0x300F ∧ windowOrDeviceAt tiny 0x300F ∧ windowOrDeviceAt tiny 0x101F) ∧
    ((∀ out x, paletteByte (writingTo out) x → plainAt tiny x) ∧ ∀ out, palTrap (writingTo out) = none) ∧
    ((haddTrap (writingTo 0x1FD4) = none ∧ recordsDisjoint tiny 0x1FD4 0x100 ∧ recordsDisjoint tiny 0x1FD4 0x200 ∧
      recordByte (writingTo 0x1FD4) 0x2003 ∧ holeAt tiny 0x2003) ∧
     (haddTrap (writingTo 0x20FC) = none ∧ recordsDisjoint tiny 0x20FC 0x100 ∧ recordsDisjoint tiny 0x20FC 0x200 ∧
      recordByte (writingTo 0x20FC) 0x20FF ∧ holeAt tiny 0x20FF)) ∧
    ((haddTrap (writingTo 0x2FD4) = none ∧ recordsDisjoint tiny 0x2FD4 0x100 ∧ recordsDisjoint tiny 0x2FD4 0x200 ∧
      (∀ x, recordByte (writingTo 0x2FD4) x → ¬ holeAt tiny x) ∧
      recordByte (writingTo 0x2FD4) 0x3003 ∧ windowOrDeviceAt tiny 0x3003) ∧
     (haddTrap (writingTo 0x101C) = none ∧ recordsDisjoint tiny 0x101C 0x100 ∧ recordsDisjoint tiny 0x101C 0x200 ∧
      (∀ x, recordByte (writingTo 0x101C) x → ¬ holeAt tiny x) ∧
      recordByte (writingTo 0x101C) 0x101F ∧ windowOrDeviceAt tiny 0x101F)) := by
  have device : ∀ {x : Nat}, 0x3000 ≤ x → x < 0x3010 → windowOrDeviceAt tiny x := fun h1 h2 =>
    .inr ⟨⟨⟨0x3000, 0x10⟩, .device⟩, by decide, by decide, h1, h2⟩
  refine ⟨⟨by decide, ⟨_, .inl rfl, by decide⟩, holeAt_tiny.mpr (by decide)⟩,
    ⟨by decide, ?_, ⟨_, .inr rfl, by decide⟩, device (by decide) (by decide), .inl (by decide)⟩,
    ⟨?_, fun _ => show palTrap (writingTo 0) = none by decide⟩,
    ⟨⟨by decide, .inr (by decide), .inr (by decide), ⟨_, .inr (.inr rfl), by decide⟩, holeAt_tiny.mpr (by decide)⟩,
     ⟨by decide, .inr (by decide), .inr (by decide), ⟨_, .inr (.inr rfl), by decide⟩, holeAt_tiny.mpr (by decide)⟩⟩,
    ⟨by decide, .inr (by decide), .inr (by decide), recordByte_writingTo (.inr (by decide)), ⟨_, .inr (.inr rfl), by decide⟩,
      device (by decide) (by decide)⟩,
    by decide, .inr (by decide), .inr (by decide), recordByte_writingTo (.inl (by decide)), ⟨_, .inr (.inr rfl), by decide⟩,
    .inl (by decide)⟩
  · rintro x ⟨r, rfl | rfl, h1, h2⟩ <;> rw [holeAt_tiny] <;> simp [idle] at h1 h2 <;> omega
  · rintro out x ⟨r, rfl | rfl, h1, h2⟩
    · exact plain_of_check (a := 0x100) (size := 4) (by decide) x h1 h2
    · exact plain_of_check (a := 0x200) (size := 4) (by decide) x h1 h2

end Sys2Proof.Tests
end

section
/-! SUPPORT. Turns of an idle block: what `handle` and `step` answer while `BUSY = 0` (spec/70_reset_and_hazards.md R220). -/

namespace Sys2Proof.Machine

/-- R209: a `finish` turn finds no command to retire. -/
theorem handle_finish_idle {s : State} (idle : s.status.busy = false) : handle .finish s = .next s := by
  simp only [handle, idle, Bool.false_eq_true, if_false]

/-- R209: an element turn finds no command whose element it could write. -/
theorem handle_element_idle {s : State} (k : Nat) (idle : s.status.busy = false) : handle (.element k) s = .next s := by
  simp only [handle, idle, Bool.false_eq_true, if_false]

/-- R220: an idle block stays idle when no event is left. -/
theorem step_nil_idle {s : State} (none_left : s.events = []) (idle : s.status.busy = false) : step s = .next s := by
  rw [step_nil none_left, idle]
  rfl

/-- Settles O9: with no event left by `step_nil_idle`; a turn only leaves the list, because dropping it keeps the block idle. -/
theorem idleBlockStartsNothing : Obligations.IdleBlockStartsNothing := by
  intro s rest k idle
  have idle_rest : ({ s with events := rest } : State).status.busy = false := idle
  refine ⟨fun none_left => step_nil_idle none_left idle, fun finish_first => ?_, fun element_first => ?_⟩
  · rw [step_cons finish_first]
    exact handle_finish_idle idle_rest
  · rw [step_cons element_first]
    exact handle_element_idle k idle_rest

end Sys2Proof.Machine
end

section
/-! SUPPORT. The frame of a command: what running its plan leaves unchanged (spec/10_state.md R23, spec/40_common_execution.md
R103). -/

namespace Sys2Proof.Machine

theorem sameBesidesResult_completed (p : Plan) (s : State) : sameBesidesResult s (p.completed s) := by
  simp [sameBesidesResult]

theorem sameBesidesResult_raiseFault (c : Cause) (s : State) : sameBesidesResult s (raiseFault c s) := by
  simp [sameBesidesResult]

theorem Plan.run_sameBesidesResult {p : Plan} {s t : State} (h : p.run s = .next t) : sameBesidesResult s t := by
  obtain ⟨-, rfl⟩ | ⟨c, -, rfl⟩ := Plan.run_next h
  · exact sameBesidesResult_completed p s
  · exact sameBesidesResult_raiseFault c s

/-- R32, R195: a command retires into `DONE`, or into `FAULT` with a cause and the memory untouched. -/
theorem Plan.run_status {p : Plan} {s t : State} (h : p.run s = .next t) :
    t.status = { s.status with busy := false, done := true } ∨
      ∃ c : Cause, t.status = { s.status with busy := false, fault := true, cause := c.code } ∧ t.mem = s.mem := by
  obtain ⟨-, rfl⟩ | ⟨c, -, rfl⟩ := Plan.run_next h
  · exact .inl rfl
  · exact .inr ⟨c, rfl, rfl⟩

/-- R61, R62: a byte that belongs to no element of the command is as before. -/
theorem Plan.run_get_outside {p : Plan} {s t : State} (h : p.run s = .next t) (w : s.mem.wf = true)
    (inside : p.verdict = .go → ∀ k ∈ p.domain, p.addr k + 4 ≤ addressSpace) {x : Nat}
    (outside : ∀ k ∈ p.domain, ¬ (p.addr k ≤ x ∧ x < p.addr k + 4)) : t.mem.get x = s.mem.get x := by
  obtain ⟨go, rfl⟩ | ⟨c, -, rfl⟩ := Plan.run_next h
  · have sub : ∀ k ∈ p.remaining s, k ∈ p.domain := fun k hk => (Plan.mem_remaining.mp hk).1
    exact Plan.writeAll_get_outside (fun k hk => inside go k (sub k hk)) w fun k hk => outside k (sub k hk)
  · rfl

/-- `SUBG` and `CTRANS` are `pixel_command(F)` for their pixel function `F` (R101). -/
theorem planOf_pixel {i : Instr} (h : i = .subg ∨ ∃ g2r g2b r2b, i = .ctrans g2r g2b r2b) (s : State) :
    ∃ F, planOf i s = pixelPlan F s := by
  obtain rfl | ⟨g2r, g2b, r2b, rfl⟩ := h
  · exact ⟨sg, rfl⟩
  · exact ⟨ct g2r g2b r2b, rfl⟩

/-- Settles O32: the plan of a pixel command writes its pixels, and those lie in the address space after passed checks. -/
theorem pixelCommandFrame : Obligations.PixelCommandFrame := by
  intro s t i pixel w run
  obtain ⟨F, plan⟩ := planOf_pixel pixel s
  rw [exec_eq_run, plan] at run
  refine ⟨Plan.run_sameBesidesResult run, Plan.run_status run, fun x outside => ?_⟩
  exact Plan.run_get_outside run w (fun go => (pixelPlan_spaced (pixelPlan_go_iff.mp go).1).inside)
    fun k hk => outside k (List.mem_range.mp hk)

/-- Settles O33: element `wordIndex e` of `HADD` is written at `counterAddr` of `e` in the record `out`. -/
theorem histogramAddFrame : Obligations.HistogramAddFrame := by
  intro s t config w run
  rw [exec_eq_run] at run
  refine ⟨Plan.run_sameBesidesResult run, Plan.run_status run, fun x outside => ?_⟩
  refine Plan.run_get_outside run w (fun go => (planOf_spaced config go).inside) fun k hk => ?_
  obtain ⟨e, he, rfl⟩ := List.mem_map.mp hk
  exact outside e he

end Sys2Proof.Machine
end

section
/-! SUPPORT. The invariant of the machine is kept by everything a step can do (`step_next`). -/

namespace Sys2Proof.Machine

/-! ### Legal status words (spec/10_state.md R31) -/

/-- A busy block has nothing completed and no fault recorded. -/
theorem Status.legal_busy {x : Status} (legal : x.legal = true) (busy : x.busy = true) :
    x.done = false ∧ x.fault = false ∧ x.cause = 0#4 := by
  cases hf : x.fault <;> simp_all [Status.legal]

theorem Status.legal_idle {x : Status} (legal : x.legal = true) (busy : x.busy = false) (fault : x.fault = false) : x.cause = 0#4 := by
  simp_all [Status.legal]

theorem Status.issue_legal {x : Status} (legal : x.legal = true) (busy : x.busy = false) (fault : x.fault = false) :
    x.issue.legal = true := by
  simp [Status.legal, fault, Status.legal_idle legal busy fault]

theorem Status.complete_legal {x : Status} (legal : x.legal = true) (busy : x.busy = true) : x.complete.legal = true := by
  obtain ⟨-, fault, cause⟩ := Status.legal_busy legal busy
  simp [Status.legal, fault, cause]

theorem Cause.code_range (c : Cause) : 1 ≤ c.code.toNat ∧ c.code.toNat ≤ 6 := by cases c <;> decide

theorem Status.raise_legal {x : Status} (legal : x.legal = true) (busy : x.busy = true) (c : Cause) : (x.raise c).legal = true := by
  obtain ⟨done, -⟩ := Status.legal_busy legal busy
  simp [Status.legal, done, Cause.code_range c]

/-! ### The operations of a step -/

theorem machineInv_events {s : State} (inv : MachineInv s) (es : List Event) : MachineInv { s with events := es } :=
  ⟨inv.config, inv.memory, inv.status, inv.cap, inv.flight, inv.rising⟩

theorem machineInv_raiseFault {s : State} (inv : MachineInv s) (busy : s.status.busy = true) (c : Cause) :
    MachineInv (raiseFault c s) :=
  ⟨inv.config, inv.memory, Status.raise_legal inv.status busy c, inv.cap, rfl, List.Pairwise.nil⟩

theorem machineInv_resetBlock {s : State} (inv : MachineInv s) : MachineInv (resetBlock s) :=
  ⟨inv.config, inv.memory, rfl, rfl, rfl, List.Pairwise.nil⟩

/-- R100, R101: the writes of a whole command stay in the address space once its checks have passed. -/
theorem machineInv_completed {i : Instr} {s : State} (inv : MachineInv s) (busy : s.status.busy = true)
    (go : (planOf i s).verdict = .go) : MachineInv ((planOf i s).completed s) := by
  have spaced := planOf_spaced inv.config go
  have kept : ((planOf i s).completed s).mem.wf = true :=
    Plan.writeAll_wf (fun k hk => spaced.inside k (Plan.mem_remaining.mp hk).1) inv.memory
  exact ⟨inv.config, kept, Status.complete_legal inv.status busy, inv.cap, rfl, List.Pairwise.nil⟩

/-- R36, R66: so does the write of one element, which enters the progress set at its place. -/
theorem machineInv_elementDone {i : Instr} {s : State} (inv : MachineInv s) (busy : s.status.busy = true)
    (go : (planOf i s).verdict = .go) (k : Nat) : MachineInv ((planOf i s).elementDone k s) := by
  unfold Plan.elementDone
  split
  next hk =>
    have inside := (planOf_spaced inv.config go).inside k (Plan.mem_remaining.mp hk).1
    exact ⟨inv.config, Memory.write32_wf inv.memory inside _, inv.status, inv.cap, busy.symm, progInsert_rising inv.rising⟩
  next => exact inv

/-- R30: an issue sets up an empty progress set; a dropped write changes nothing. -/
theorem machineInv_writeCmd {s : State} (inv : MachineInv s) (w : Word) : MachineInv (writeCmd w s) := by
  by_cases dropped : s.status.busy = true ∨ s.status.fault = true
  · rwa [writeCmd_dropped dropped]
  · obtain ⟨busy, fault⟩ : s.status.busy = false ∧ s.status.fault = false := by simpa using dropped
    rw [writeCmd_issue busy fault]
    exact ⟨inv.config, inv.memory, Status.issue_legal inv.status busy fault, inv.cap, rfl, List.Pairwise.nil⟩

theorem machineInv_note {s : State} (inv : MachineInv s) (v : Word) : MachineInv (note v s) :=
  ⟨inv.config, inv.memory, inv.status, inv.cap, inv.flight, inv.rising⟩

theorem machineInv_observeStatus {s : State} (inv : MachineInv s) : MachineInv (observeStatus s) := by
  unfold observeStatus
  split
  · exact inv
  · exact ⟨inv.config, inv.memory, inv.status, inv.cap, inv.flight, inv.rising⟩

/-- Plain memory lies inside the address space (R50), so an access to it ends there. -/
theorem plain_end_le {c : Config} {x : Nat} {w : Width} (plain : ∀ y, x ≤ y → y < x + w.bytes → plainAt c y) :
    x + w.bytes ≤ addressSpace := by
  have pos : 0 < w.bytes := by cases w <;> decide
  have last := (plain (x + w.bytes - 1) (by omega) (by omega)).1
  omega

theorem machineInv_hostEffect {s t : State} (inv : MachineInv s) (effect : HostEffect s t) : MachineInv t := by
  cases effect with
  | same => exact inv
  | command w => exact machineInv_writeCmd inv w
  | a0 v _ | a1 v _ | a2 v _ | n v _ => exact ⟨inv.config, inv.memory, inv.status, inv.cap, inv.flight, inv.rising⟩
  | read v => exact machineInv_note inv v
  | status => exact machineInv_note (machineInv_observeStatus inv) _
  | store x w v plain _ =>
    exact ⟨inv.config, Memory.writeWidth_wf inv.memory (plain_end_le plain) v, inv.status, inv.cap, inv.flight, inv.rising⟩

theorem machineInv_blockFinish {s t : State} (inv : MachineInv s) (busy : s.status.busy = true) (turn : blockFinish s = .next t) :
    MachineInv t := by
  obtain ⟨i, -, go, rfl⟩ | ⟨c, rfl, -⟩ := blockFinish_next turn
  · exact machineInv_completed inv busy go
  · exact machineInv_raiseFault inv busy c

theorem machineInv_blockElement {k : Nat} {s t : State} (inv : MachineInv s) (busy : s.status.busy = true)
    (turn : blockElement k s = .next t) : MachineInv t := by
  obtain ⟨i, -, go, rfl⟩ | ⟨c, rfl, -⟩ := blockElement_next turn
  · exact machineInv_elementDone inv busy go k
  · exact machineInv_raiseFault inv busy c

/-- Settles O45: the cases of `step_next`, each by the lemma of its operation. -/
theorem stepKeepsTheMachineInvariant : Obligations.StepKeepsTheMachineInvariant := by
  intro s t inv hstep
  obtain ⟨es, cases_of_step⟩ := step_next hstep
  have inv_es := machineInv_events inv es
  obtain ⟨busy, turn⟩ | ⟨a, act⟩ | ⟨k, busy, turn⟩ | ⟨-, rfl⟩ | ⟨-, rfl⟩ := cases_of_step
  · exact machineInv_blockFinish inv_es busy turn
  · exact machineInv_hostEffect inv_es (hostAct_next act)
  · exact machineInv_blockElement inv_es busy turn
  · exact inv_es
  · exact machineInv_resetBlock inv_es

theorem machineInv_reset : MachineInv State.reset :=
  ⟨by decide, rfl, rfl, rfl, rfl, List.Pairwise.nil⟩

/-- Settles O46: reset leaves an idle block, of which `ProgressOk` asks nothing. -/
theorem resetMeetsTheInvariants : Obligations.ResetMeetsTheInvariants :=
  ⟨machineInv_reset, progressOk_idle rfl, fun _ inv => ⟨machineInv_resetBlock inv, progressOk_idle rfl⟩⟩

end Sys2Proof.Machine
end

section
/-! SUPPORT. Everything a step can do keeps the progress of the command in flight inside the command (`ProgressOk`). -/

namespace Sys2Proof.Machine

/-! ### What a plan reads of memory (spec/40_common_execution.md R104) -/

theorem inRanges_palRanges {s : State} {x : Nat} : inRanges (palRanges s) x ↔ paletteByte s x := by
  simp [inRanges, palRanges, paletteByte]

/-- Past its register checks `HADD` reads both palette words, whether or not they pass theirs (R62, R102). -/
theorem palRanges_subset_haddFoot {s : State} (h : haddTrap s = none) : ∀ r ∈ palRanges s, r ∈ (haddFoot s).reads := by
  intro r hr
  cases hp : palTrap s with
  | some c => simpa only [haddFoot, h, hp] using hr
  | none => simpa only [haddFoot, h, hp] using List.mem_append_left _ hr

/-- With the palette words kept the plan of `HADD` is the same on another memory. -/
theorem haddPlan_mem {s : State} {m : Memory} (kept : ∀ x, paletteByte s x → m.get x = s.mem.get x) :
    haddPlan { s with mem := m } = haddPlan s := by
  refine haddPlan_congr rfl rfl rfl rfl ?_ ?_
  · exact Memory.read32_congr fun x h1 h2 => kept x ⟨s.a0, .inl rfl, h1, h2⟩
  · exact Memory.read32_congr fun x h1 h2 => kept x ⟨s.a1, .inr rfl, h1, h2⟩

/-- A memory with the same bytes in the read set gives the same command, or one whose register checks fail and that has no
footprint. -/
theorem planOf_mem {i : Instr} {s : State} {m : Memory} (kept : ∀ x, inRanges (planOf i s).foot.reads x → m.get x = s.mem.get x) :
    planOf i { s with mem := m } = planOf i s ∨
      (∃ c, (planOf i s).verdict = .trap c) ∧ (planOf i { s with mem := m }).foot = (planOf i s).foot := by
  cases i with
  | subg => exact .inl (pixelPlan_congr rfl rfl rfl)
  | ctrans g2r g2b r2b => exact .inl (pixelPlan_congr rfl rfl rfl)
  | hadd =>
    cases ht : haddTrap s with
    | none =>
      refine .inl (haddPlan_mem fun x hx => kept x ?_)
      obtain ⟨r, hr, inside⟩ := inRanges_palRanges.mpr hx
      exact ⟨r, palRanges_subset_haddFoot ht r hr, inside⟩
    | some c =>
      have ht' : haddTrap { s with mem := m } = some c := ht
      exact .inr ⟨⟨c, haddVerdict_trap_iff.mpr (.inl ht)⟩, by simp only [planOf, haddPlan, haddFoot, ht, ht']⟩

/-! ### Steps that leave the command as it is -/

theorem footprintOf_command {s : State} {i : Instr} (h : decodeCommand s.cap s.cmd = .command i) :
    footprintOf s.cmd s = (planOf i s).foot := by
  simp only [footprintOf, h]

theorem footprintOf_illegal {s : State} {r : Illegal} (h : decodeCommand s.cap s.cmd = .illegal r) :
    footprintOf s.cmd s = Footprint.empty := by
  simp only [footprintOf, h]

/-- A step that changes only memory outside the read set, the events and what the host has seen keeps the progress. -/
theorem progressOk_of_reads_kept {s : State} (ok : ProgressOk s) (m : Memory) (es : List Event) (seen : List Word)
    (kept : ∀ i, inFlight i s → ∀ x, inRanges (planOf i s).foot.reads x → m.get x = s.mem.get x) :
    ProgressOk { s with mem := m, events := es, seen := seen } := by
  have plan : ∀ i, inFlight i s → planOf i { s with mem := m, events := es, seen := seen } = planOf i s ∨
      (∃ c, (planOf i s).verdict = .trap c) ∧
        (planOf i { s with mem := m, events := es, seen := seen }).foot = (planOf i s).foot := by
    intro i flight
    have e : planOf i { s with mem := m, events := es, seen := seen } = planOf i { s with mem := m } :=
      planOf_congr rfl rfl rfl rfl rfl fun _ => ⟨rfl, rfl⟩
    rw [e]
    exact planOf_mem (kept i flight)
  have foot : s.status.busy = true → footprintOf s.cmd { s with mem := m, events := es, seen := seen } = footprintOf s.cmd s := by
    intro busy
    cases hd : decodeCommand s.cap s.cmd with
    | illegal r => rw [footprintOf_illegal hd, footprintOf_illegal (s := { s with mem := m, events := es, seen := seen }) hd]
    | command i =>
      rw [footprintOf_command hd, footprintOf_command (s := { s with mem := m, events := es, seen := seen }) hd]
      obtain e | ⟨-, e⟩ := plan i ⟨busy, hd⟩
      · rw [e]
      · exact e
  have go : ∀ i, inFlight i s → performed s ≠ [] → planOf i { s with mem := m, events := es, seen := seen } = planOf i s := by
    intro i flight begun
    obtain e | ⟨⟨c, trap⟩, -⟩ := plan i flight
    · exact e
    · exact absurd ((ok.passed i flight begun).symm.trans trap) Verdict.noConfusion
  refine ⟨fun busy => ?_, fun busy => ?_, fun i flight begun => ?_, fun i flight k hk => ?_, ok.none⟩
  · exact foot busy ▸ ok.reads busy
  · exact foot busy ▸ ok.writes busy
  · exact go i flight begun ▸ ok.passed i flight begun
  · exact go i flight (List.ne_nil_of_mem hk) ▸ ok.domain i flight k hk

theorem progressOk_events {s : State} (ok : ProgressOk s) (es : List Event) : ProgressOk { s with events := es } :=
  progressOk_of_reads_kept ok s.mem es s.seen fun _ _ _ _ => rfl

theorem progressOk_note {s : State} (ok : ProgressOk s) (v : Word) : ProgressOk (note v s) :=
  progressOk_of_reads_kept ok s.mem s.events (s.seen ++ [v]) fun _ _ _ _ => rfl

/-- R67: a read of `STATUS` hands memory back to the host only when no command is in flight. -/
theorem progressOk_observeStatus {s : State} (ok : ProgressOk s) : ProgressOk (observeStatus s) := by
  unfold observeStatus
  split
  · exact ok
  next idle => exact progressOk_idle (by simpa using idle)

/-! ### Stores of the host (spec/70_reset_and_hazards.md R213, R230) -/

/-- A host store changes only the bytes it names. -/
theorem Memory.get_writeWidth_outside {m : Memory} (w : m.wf = true) {a : Nat} {n : Width} (ha : a + n.bytes ≤ addressSpace)
    (v : Word) {x : Nat} (hx : ¬ (a ≤ x ∧ x < a + n.bytes)) : (m.writeWidth a v n).get x = m.get x := by
  cases n with
  | w8 =>
    simp only [Width.bytes] at hx
    rw [Memory.writeWidth, Memory.get_set w, if_neg (by omega)]
  | w16 =>
    simp only [Width.bytes] at hx ha
    rw [Memory.writeWidth, Memory.get_set (Memory.set_wf w (by omega) _), Memory.get_set w, if_neg (by omega), if_neg (by omega)]
  | w32 => exact (Memory.get_write32 w ha v x).trans (if_neg hx)

/-- A byte handed over for reading is not one of a store that does not race. -/
theorem not_stored_of_held {s : State} {a size x : Nat} (free : writeRaces s a size = false) (held : inRanges s.held.reads x) :
    ¬ (a ≤ x ∧ x < a + size) := by
  intro stored
  have meets : meetsAny s.held.reads { base := a, size := size } = true := meetsAny_iff.mpr ⟨x, held, stored⟩
  simp [writeRaces, meets] at free

theorem progressOk_store {s : State} (inv : MachineInv s) (ok : ProgressOk s) {a : Nat} {n : Width} (v : Word)
    (plain : ∀ y, a ≤ y → y < a + n.bytes → plainAt s.cfg y) (free : writeRaces s a n.bytes = false) :
    ProgressOk { s with mem := s.mem.writeWidth a v n } := by
  refine progressOk_of_reads_kept ok _ s.events s.seen fun i ⟨busy, hd⟩ x ⟨r, hr, inside⟩ => ?_
  have held : r ∈ s.held.reads := ok.reads busy r (footprintOf_command hd ▸ hr)
  exact Memory.get_writeWidth_outside inv.memory (plain_end_le plain) v (not_stored_of_held free ⟨r, held, inside⟩)

/-! ### The other operations of a step -/

theorem progressOk_writeCmd {s : State} (ok : ProgressOk s) (w : Word) : ProgressOk (writeCmd w s) := by
  by_cases dropped : s.status.busy = true ∨ s.status.fault = true
  · rwa [writeCmd_dropped dropped]
  · obtain ⟨busy, fault⟩ : s.status.busy = false ∧ s.status.fault = false := by simpa using dropped
    exact progressOk_issue busy fault

theorem progressOk_hostEffect {s t : State} (inv : MachineInv s) (ok : ProgressOk s) (effect : HostEffect s t) : ProgressOk t := by
  cases effect with
  | same => exact ok
  | command w => exact progressOk_writeCmd ok w
  | a0 v idle | a1 v idle | a2 v idle | n v idle => exact progressOk_idle idle
  | read v => exact progressOk_note ok v
  | status => exact progressOk_note (progressOk_observeStatus ok) _
  | store a n v plain free => exact progressOk_store inv ok v plain free

/-- R100, R101: a command that ran to its retirement leaves an idle block. -/
theorem blockFinish_idle {s t : State} (turn : blockFinish s = .next t) : t.status.busy = false := by
  obtain ⟨i, -, -, rfl⟩ | ⟨c, rfl, -⟩ := blockFinish_next turn <;> rfl

/-- What the write of one element leaves alone. -/
theorem elementDone_frame (p : Plan) (k : Nat) (s : State) : ∃ m q, p.elementDone k s = { s with mem := m, prog := q } := by
  unfold Plan.elementDone
  split
  · exact ⟨_, _, rfl⟩
  · exact ⟨s.mem, s.prog, rfl⟩

/-- The elements written after a turn: those before, and `k` when it was still to be written. -/
theorem mem_performed_elementDone {p : Plan} {k j : Nat} {s : State} :
    j ∈ performed (p.elementDone k s) ↔ (j = k ∧ k ∈ p.domain) ∨ j ∈ performed s := by
  unfold Plan.elementDone
  split
  next hk => simp [performed, mem_progInsert, (Plan.mem_remaining.mp hk).1]
  next hk =>
    rw [Plan.mem_remaining] at hk
    constructor
    · exact .inr
    · rintro (⟨rfl, hd⟩ | hj)
      · by_contra new
        exact hk ⟨hd, new⟩
      · exact hj

theorem progressOk_elementDone {i : Instr} {s : State} (inv : MachineInv s) (ok : ProgressOk s) (flight : inFlight i s)
    (go : (planOf i s).verdict = .go) (k : Nat) : ProgressOk ((planOf i s).elementDone k s) := by
  have plan := planOf_elementDone (k := k) inv.config inv.memory go
  have written : ∀ j ∈ performed ((planOf i s).elementDone k s), j ∈ (planOf i s).domain := by
    intro j hj
    obtain ⟨rfl, hd⟩ | hj := mem_performed_elementDone.mp hj
    · exact hd
    · exact ok.domain i flight j hj
  obtain ⟨m, q, e⟩ := elementDone_frame (planOf i s) k s
  rw [e] at plan written ⊢
  have only : ∀ j, inFlight j { s with mem := m, prog := q } → j = i := fun j ⟨_, hd⟩ =>
    Decoded.command.inj (hd.symm.trans flight.2)
  have foot : footprintOf s.cmd { s with mem := m, prog := q } = footprintOf s.cmd s := by
    rw [footprintOf_command flight.2, footprintOf_command (s := { s with mem := m, prog := q }) flight.2, plan]
  refine ⟨fun busy => ?_, fun busy => ?_, fun j hj _ => ?_, fun j hj k hk => ?_, fun r _ illegal => ?_⟩
  · exact foot ▸ ok.reads busy
  · exact foot ▸ ok.writes busy
  · rw [only j hj, plan]
    exact go
  · rw [only j hj, plan]
    exact written k hk
  · exact absurd (illegal.symm.trans flight.2) Decoded.noConfusion

theorem progressOk_blockElement {k : Nat} {s t : State} (inv : MachineInv s) (ok : ProgressOk s) (busy : s.status.busy = true)
    (turn : blockElement k s = .next t) : ProgressOk t := by
  obtain ⟨i, hd, go, rfl⟩ | ⟨c, rfl, -⟩ := blockElement_next turn
  · exact progressOk_elementDone inv ok ⟨busy, hd⟩ go k
  · exact progressOk_idle rfl

/-- Settles O47: the cases of `step_next`; where a command is still in flight afterwards, its plan is the one before. -/
theorem stepKeepsProgressInsideTheCommand : Obligations.StepKeepsProgressInsideTheCommand := by
  intro s t inv ok hstep
  obtain ⟨es, cases_of_step⟩ := step_next hstep
  have inv_es := machineInv_events inv es
  have ok_es := progressOk_events ok es
  obtain ⟨-, turn⟩ | ⟨a, act⟩ | ⟨k, busy, turn⟩ | ⟨idle, rfl⟩ | ⟨-, rfl⟩ := cases_of_step
  · exact progressOk_idle (blockFinish_idle turn)
  · exact progressOk_hostEffect inv_es ok_es (hostAct_next act)
  · exact progressOk_blockElement inv_es ok_es busy turn
  · exact ok_es
  · exact progressOk_idle rfl

end Sys2Proof.Machine
end

section
/-! SUPPORT. The host's accesses to the register window (spec/10_state.md R23, R28 to R31): where each is routed, and what `handle`
answers. -/

namespace Sys2Proof.Machine

/-! ### Routing (spec/10_state.md R28) -/

/-- An access that meets the block's own window is aligned and 32 bits wide, or refused (U9; log entry 12). -/
theorem route_ownWindow {c : Config} {a size : Nat} (below : a < c.regBase + 0x20) (above : c.regBase < a + size) (pos : 0 < size) :
    route c a size = if size = 4 ∧ a % 4 = 0 then .register (a - c.regBase) else .refuse .windowAccess := by
  have meets : rangesMeet (ownWindow c) { base := a, size := size } = true := by
    rw [rangesMeet_iff]
    exact ⟨max a c.regBase, by simp only [ownWindow]; omega, by simp only; omega⟩
  rw [route, if_pos meets]

theorem route_window {c : Config} (hc : configOk c = true) {o : Nat} (aligned : o % 4 = 0) (inside : o < 0x20) :
    route c (c.regBase + o) 4 = .register o := by
  have base := (configOk_regBase hc).1
  rw [route_ownWindow (by omega) (by omega) (by omega), if_pos ⟨rfl, by omega⟩, Nat.add_sub_cancel_left]

theorem route_narrow {c : Config} {a : Nat} {w : Width} (below : a < c.regBase + 0x20) (above : c.regBase < a + w.bytes)
    (narrow : w ≠ .w32 ∨ a % 4 ≠ 0) : route c a w.bytes = .refuse .windowAccess := by
  have pos : 0 < w.bytes := by cases w <;> decide
  have size : w.bytes = 4 → w = .w32 := by cases w <;> decide
  rw [route_ownWindow below above pos, if_neg]
  rintro ⟨four, aligned⟩
  exact narrow.elim (fun h => h (size four)) (fun h => h aligned)

/-! ### Window accesses at an address -/

section
variable {s : State} (hc : configOk s.cfg = true) {base : Word} (hb : base.toNat = s.cfg.regBase)
include hc hb

/-- The window does not wrap around the top of the address space. -/
theorem toNat_windowAddr {o : Nat} (inside : o < 0x20) : (base + BitVec.ofNat 32 o).toNat = s.cfg.regBase + o := by
  have top := (configOk_regBase hc).2
  simp only [addressSpace] at top
  simp only [BitVec.toNat_add, BitVec.toNat_ofNat, hb]
  omega

theorem busRead_window {o : Nat} (aligned : o % 4 = 0) (inside : o < 0x20) :
    handle (.host (.busRead (base + BitVec.ofNat 32 o) .w32)) s =
      .next (note (readWindow o s) (if regAt o = some .status then observeStatus s else s)) := by
  have routed := route_window hc aligned inside
  simp only [handle, hostAct, hostRead, Width.bytes, toNat_windowAddr hc hb inside, routed]

theorem busWrite_window {o : Nat} (aligned : o % 4 = 0) (inside : o < 0x20) (v : Word) :
    handle (.host (.busWrite (base + BitVec.ofNat 32 o) .w32 v)) s = .next (writeWindow o v s) := by
  have routed := route_window hc aligned inside
  simp only [handle, hostAct, hostWrite, Width.bytes, toNat_windowAddr hc hb inside, routed]

end

/-! ### Register accesses by name (spec/30_encoding.md R92) -/

section
variable {s : State} (hc : configOk s.cfg = true)
include hc

theorem handle_command (w : Word) : handle (.host (.command w)) s = .next (writeCmd w s) := hostWrite_register hc .cmd w

theorem handle_wr (r : OperandReg) (v : Word) : handle (.host (.wr r v)) s = .next (writeReg r.reg v s) :=
  hostWrite_register hc r.reg v

theorem handle_rd (r : Reg) (hr : r ≠ .status) : handle (.host (.rd r)) s = .next { s with seen := s.seen ++ [readReg r s] } :=
  hostRead_register hc r hr

theorem handle_rd_status : handle (.host (.rd .status)) s = .next (note s.status.word (observeStatus s)) := hostRead_status hc

end

/-- R31: reading `STATUS` changes only what the host has seen and what it has handed over. -/
theorem note_observeStatus (v : Word) (s : State) : (note v (observeStatus s)).seen = s.seen ++ [v] ∧
    { note v (observeStatus s) with seen := s.seen, held := s.held } = s := by
  unfold observeStatus
  split <;> exact ⟨rfl, rfl⟩

/-- R23: while `BUSY = 1` a write to an operand register is dropped. -/
theorem writeReg_operand_busy {s : State} (busy : s.status.busy = true) (r : OperandReg) (v : Word) : writeReg r.reg v s = s := by
  cases r <;> simp only [OperandReg.reg, writeReg, busy, if_true]

/-! ### The obligations on register accesses -/

/-- Settles O10: a `CMD` write is `writeCmd`, and the block's turn then runs what the decoder answers. -/
theorem commandWritesIssueOrAreDropped : Obligations.CommandWritesIssueOrAreDropped := by
  refine ⟨fun s w config busy fault => ?_, fun s w config dropped => ?_, fun s config => ?_, rfl⟩
  · rw [handle_command config, writeCmd_issue busy fault]
    refine ⟨_, rfl, rfl, rfl, rfl, rfl, rfl, rfl, rfl, rfl, rfl, rfl, fun i command => ?_, fun r illegal => ?_⟩
    · exact blockFinish_command command
    · exact blockFinish_illegal illegal
  · rw [handle_command config, writeCmd_dropped dropped]
  · exact handle_rd config .cmd (by decide)

/-- Settles O11: reads and writes by `writeReg`; a command changes no operand register by `Plan.run_sameBesidesResult`. -/
theorem operandRegisterAccess : Obligations.OperandRegisterAccess := by
  refine ⟨fun s config => ?_, fun s v config idle => ?_, fun s r v config busy => ?_, fun s t i run => ?_⟩
  · exact ⟨handle_rd config .a0 (by decide), handle_rd config .a1 (by decide), handle_rd config .a2 (by decide),
      handle_rd config .n (by decide)⟩
  · simp only [handle_wr config, OperandReg.reg, writeReg, idle, Bool.false_eq_true, if_false, and_self]
  · rw [handle_wr config, writeReg_operand_busy busy]
  · rw [exec_eq_run] at run
    obtain ⟨-, -, -, ha0, ha1, ha2, hn, -⟩ := Plan.run_sameBesidesResult run
    exact ⟨ha0, ha1, ha2, hn⟩

/-- Settles O12: each offset through `busRead_window` and `busWrite_window`, the base itself as offset zero. -/
theorem registerWindowMap : Obligations.RegisterWindowMap := by
  refine ⟨fun s base config hb => ?_, fun s addr v w config below above narrow => ?_, by decide⟩
  · have read := fun o => busRead_window config hb (o := o)
    have write := fun o => busWrite_window config hb (o := o)
    have first : base + BitVec.ofNat 32 0 = base := BitVec.add_zero base
    have read_first := first ▸ read 0 rfl (by decide)
    have write_first := fun v => first ▸ write 0 rfl (by decide) v
    obtain ⟨seen, rest⟩ := note_observeStatus s.status.word s
    refine ⟨(configOk_regBase config).1, ⟨_, read 0x04 rfl (by decide), seen, rest⟩, read_first, read 0x08 rfl (by decide),
      read 0x0C rfl (by decide), read 0x10 rfl (by decide), read 0x14 rfl (by decide), read 0x18 rfl (by decide),
      read 0x1C rfl (by decide), fun v => ?_⟩
    exact ⟨write_first v, write 0x04 rfl (by decide) v, write 0x1C rfl (by decide) v, write 0x08 rfl (by decide) v,
      write 0x0C rfl (by decide) v, write 0x10 rfl (by decide) v, write 0x14 rfl (by decide) v, write 0x18 rfl (by decide) v⟩
  · have refused := route_narrow below above narrow
    constructor
    · simp only [handle, hostAct, hostRead, refused]
    · simp only [handle, hostAct, hostWrite, refused]

/-- The bits of the `STATUS` word from the fields it is put together from (R31). -/
theorem Status.getLsbD_word (x : Status) (j : Nat) :
    x.word.getLsbD j = (0#24 ++ x.cause ++ 0#1 ++ bit x.fault ++ bit x.done ++ bit x.busy).getLsbD j := rfl

/-- From bit 4 on `STATUS` holds `CAUSE`, and zero above it. -/
theorem Status.getLsbD_word_high (x : Status) (j : Nat) : x.word.getLsbD (4 + j) = x.cause.getLsbD j := by
  rw [Status.getLsbD_word]
  simp only [BitVec.getLsbD_append, BitVec.getLsbD_zero]
  rw [if_neg (by omega), if_neg (by omega), if_neg (by omega), if_neg (by omega), show 4 + j - 1 - 1 - 1 - 1 = j by omega]
  split
  · rfl
  next above => exact (BitVec.getLsbD_of_ge x.cause j (by omega)).symm

theorem Status.word_fields (x : Status) : x.word.getLsbD 0 = x.busy ∧ x.word.getLsbD 1 = x.done ∧ x.word.getLsbD 2 = x.fault ∧
    x.word.getLsbD 3 = false ∧ x.word.extractLsb' 4 4 = x.cause ∧ x.word.extractLsb' 8 24 = 0#24 := by
  refine ⟨?busy, ?done, ?fault, ?zero, ?cause, ?zeros⟩
  case cause =>
    ext j hj
    rw [BitVec.getElem_extractLsb', Status.getLsbD_word_high, BitVec.getLsbD_eq_getElem]
  case zeros =>
    ext j hj
    rw [BitVec.getElem_extractLsb', show 8 + j = 4 + (4 + j) by omega, Status.getLsbD_word_high,
      BitVec.getLsbD_of_ge x.cause (4 + j) (by omega), BitVec.getElem_zero]
  all_goals
    simp only [Status.getLsbD_word, BitVec.getLsbD_append, bit, BitVec.getLsbD_ofBool, BitVec.getLsbD_zero]
    simp

theorem Status.zero_word : Status.zero.word = 0#32 := by decide

/-- Settles O13: the layout by `Status.word_fields`, the read by `note_observeStatus`. -/
theorem statusReadsItsFieldsAndHardwiredZeros : Obligations.StatusReadsItsFieldsAndHardwiredZeros :=
  ⟨Status.word_fields, fun s config => ⟨_, handle_rd_status config, note_observeStatus s.status.word s⟩⟩

/-- Each bit of the `CAP` word (R29). -/
theorem getLsbD_capWord (s : State) (j : Nat) : (capWord s).getLsbD j = s.cap.getLsbD j := by
  have bits : (capWord s).getLsbD j = (0#29 ++ s.cap).getLsbD j := rfl
  rw [bits, BitVec.getLsbD_append, BitVec.getLsbD_zero]
  split
  · rfl
  next above => exact (BitVec.getLsbD_of_ge s.cap j (by omega)).symm

theorem capWord_of_cap {s : State} (h : s.cap = 0x7#3) : capWord s = 0x00000007#32 := by
  rw [capWord, h]
  decide

theorem hostEffect_cfg {s t : State} (effect : HostEffect s t) : t.cfg = s.cfg := by
  cases effect with
  | command w => unfold writeCmd; split <;> rfl
  | status => unfold observeStatus; split <;> rfl
  | _ => rfl

/-- R21: no step writes the parameters. -/
theorem step_cfg {s t : State} (hstep : step s = .next t) : t.cfg = s.cfg := by
  obtain ⟨es, ⟨-, turn⟩ | ⟨a, act⟩ | ⟨k, -, turn⟩ | ⟨-, rfl⟩ | ⟨-, rfl⟩⟩ := step_next hstep
  · obtain ⟨i, -, -, rfl⟩ | ⟨c, rfl, -⟩ := blockFinish_next turn <;> rfl
  · exact hostEffect_cfg (s := { s with events := es }) (hostAct_next act)
  · obtain ⟨i, -, -, rfl⟩ | ⟨c, rfl, -⟩ := blockElement_next turn
    · obtain ⟨m, q, e⟩ := elementDone_frame (planOf i { s with events := es }) k { s with events := es }
      rw [e]
    · rfl
  · rfl
  · rfl

/-- Settles O14: `CAP` is `cfg.capOps` before and after a step by the machine invariant, and no step writes the parameters. -/
theorem capabilityRegisterReads : Obligations.CapabilityRegisterReads := by
  refine ⟨fun s => ?_, fun s config => handle_rd config .cap (by decide), fun s inv all => ?_, fun s t inv hstep => ?_,
    capWord_of_cap rfl⟩
  · refine ⟨getLsbD_capWord s 0, fun _ _ _ => getLsbD_capWord s 1, getLsbD_capWord s 2, ?_⟩
    ext j hj
    rw [BitVec.getElem_extractLsb', getLsbD_capWord, BitVec.getLsbD_of_ge s.cap (3 + j) (by omega), BitVec.getElem_zero]
  · exact capWord_of_cap (inv.cap.trans all)
  · have cfg := step_cfg hstep
    have kept := stepKeepsTheMachineInvariant s t inv hstep
    exact ⟨kept.cap.trans ((congrArg Config.capOps cfg).trans inv.cap.symm), cfg⟩

/-- Settles O15: reset writes every register and leaves memory; `CAP` is the parameter `CAP_OPS` again. -/
theorem resetLeavesTheListedValues : Obligations.ResetLeavesTheListedValues := by
  refine ⟨fun s all => ⟨resetBlock s, rfl, capWord_of_cap all, ?_⟩, capWord_of_cap rfl, ?_⟩
  · exact ⟨Status.zero_word, rfl, rfl, rfl, rfl, rfl, rfl, rfl, rfl, rfl, rfl, rfl⟩
  · exact ⟨rfl, rfl, rfl, rfl, rfl, rfl, rfl, rfl, rfl, rfl, rfl⟩

/-- Settles O8: placing the word is an issue on a cleared `STATUS`, and the `finish` at the head of the events runs it. -/
theorem placedWordRunsAtTheNextStep : Obligations.PlacedWordRunsAtTheNextStep := by
  intro s w i command
  rw [State.withFetchWord, writeCmd_issue rfl rfl]
  refine ⟨⟨rfl, command⟩, ?_, rfl, rfl, rfl, rfl, rfl⟩
  rw [step_cons rfl]
  exact blockFinish_command command

end Sys2Proof.Machine
end

section
/-! SUPPORT. Element turns of the block (spec/20_memory.md R66, R67): what a list of them leaves for the rest of the command to do, and
how a command in flight ends. -/

namespace Sys2Proof.Machine

/-! ### The elements of a command are separate (spec/20_memory.md R61, R66) -/

/-- The elements of a plan are written to words that share no byte, and the value of each depends on no word of another. -/
structure Plan.Separate (p : Plan) : Prop where
  spaced : p.Spaced p.domain
  value_kept : ∀ (m : Memory) (v : Word) (k j : Nat), m.wf = true → k ∈ p.domain → j ∈ p.domain → j ≠ k →
    p.value (m.write32 (p.addr k) v) j = p.value m j

/-- R58, R72: word `k` of `out` shares no byte with another word of an input that is the same record or disjoint from it. -/
theorem recordAddr_apart {c : Config} {out h : Word} (whole : partialOverlap c out h = false) {j k : Nat} (hj : j < hwords c)
    (hk : k < hwords c) (hjk : j ≠ k) : recordAddr h j + 4 ≤ recordAddr out k ∨ recordAddr out k + 4 ≤ recordAddr h j := by
  simp only [recordAddr]
  obtain rfl | below | above := partialOverlap_false_iff.mp whole <;> omega

/-- After passed checks the elements of every command are separate. -/
theorem planOf_separate {i : Instr} {s : State} (hc : configOk s.cfg = true) (go : (planOf i s).verdict = .go) :
    (planOf i s).Separate := by
  have spaced := planOf_spaced hc go
  refine ⟨spaced, fun m v k j w hk hj hjk => ?_⟩
  have inside := spaced.inside k hk
  have apart := spaced.apart j hj k hk hjk
  cases i with
  | subg => exact congrArg sg (Memory.read32_write32_apart w inside v apart)
  | ctrans g2r g2b r2b => exact congrArg (ct g2r g2b r2b) (Memory.read32_write32_apart w inside v apart)
  | hadd =>
    obtain ⟨registers, -, palettes, ⟨whole0, whole1⟩, -⟩ := haddVerdict_go_iff.mp go
    have bound := (haddPlan_spaced hc registers palettes).2
    exact congrArg₂ add32
      (Memory.read32_write32_apart w inside v (recordAddr_apart whole0 (bound j hj).2 (bound k hk).2 hjk))
      (Memory.read32_write32_apart w inside v (recordAddr_apart whole1 (bound j hj).2 (bound k hk).2 hjk))

/-! ### One element turn -/

theorem elementDone_remaining {p : Plan} {k : Nat} {s : State} (hk : k ∈ p.remaining s) :
    (p.elementDone k s).mem = s.mem.write32 (p.addr k) (p.value s.mem k) := by
  rw [Plan.elementDone, if_pos hk]

theorem elementDone_not_remaining {p : Plan} {k : Nat} {s : State} (hk : k ∉ p.remaining s) : p.elementDone k s = s := by
  rw [Plan.elementDone, if_neg hk]

/-- After a turn on `k` the elements still to be written are the others. -/
theorem mem_remaining_elementDone {p : Plan} {k j : Nat} {s : State} :
    j ∈ p.remaining (p.elementDone k s) ↔ j ∈ p.remaining s ∧ j ≠ k := by
  simp only [Plan.mem_remaining, mem_performed_elementDone]
  constructor
  · rintro ⟨hd, new⟩
    exact ⟨⟨hd, fun old => new (.inr old)⟩, fun e => new (.inl ⟨e, e ▸ hd⟩)⟩
  · rintro ⟨⟨hd, new⟩, hjk⟩
    exact ⟨hd, fun done => done.elim (fun ⟨e, _⟩ => hjk e) new⟩

theorem elementDone_wf {p : Plan} (sep : p.Separate) {k : Nat} {s : State} (w : s.mem.wf = true) :
    (p.elementDone k s).mem.wf = true := by
  by_cases hk : k ∈ p.remaining s
  · rw [elementDone_remaining hk]
    exact Memory.write32_wf w (sep.spaced.inside k (Plan.mem_remaining.mp hk).1) _
  · rwa [elementDone_not_remaining hk]

/-- A turn on `k` leaves the word of every other element alone. -/
theorem elementDone_read32_other {p : Plan} (sep : p.Separate) {j k : Nat} {s : State} (w : s.mem.wf = true) (hj : j ∈ p.domain)
    (hjk : j ≠ k) : (p.elementDone k s).mem.read32 (p.addr j) = s.mem.read32 (p.addr j) := by
  by_cases hk : k ∈ p.remaining s
  · have hd := (Plan.mem_remaining.mp hk).1
    rw [elementDone_remaining hk]
    exact Memory.read32_write32_apart w (sep.spaced.inside k hd) _ (sep.spaced.apart j hj k hd hjk)
  · rw [elementDone_not_remaining hk]

/-- So it does the value that every other element is to get. -/
theorem elementDone_value_other {p : Plan} (sep : p.Separate) {j k : Nat} {s : State} (w : s.mem.wf = true) (hj : j ∈ p.domain)
    (hjk : j ≠ k) : p.value (p.elementDone k s).mem j = p.value s.mem j := by
  by_cases hk : k ∈ p.remaining s
  · rw [elementDone_remaining hk]
    exact sep.value_kept s.mem _ k j w (Plan.mem_remaining.mp hk).1 hj hjk
  · rw [elementDone_not_remaining hk]

/-- A turn changes no byte outside the write set. -/
theorem elementDone_get_outside {p : Plan} (sep : p.Separate) {k : Nat} {s : State} (w : s.mem.wf = true) {x : Nat}
    (outside : ¬ writesByte p x) : (p.elementDone k s).mem.get x = s.mem.get x := by
  by_cases hk : k ∈ p.remaining s
  · have hd := (Plan.mem_remaining.mp hk).1
    rw [elementDone_remaining hk, Memory.get_write32 w (sep.spaced.inside k hd), if_neg fun hx => outside ⟨k, hd, hx⟩]
  · rw [elementDone_not_remaining hk]

/-- R66: writing one element first and the rest afterwards leaves the memory of writing all of them at once. -/
theorem writeAll_elementDone {p : Plan} (sep : p.Separate) (k : Nat) {s : State} (w : s.mem.wf = true) :
    p.writeAll (p.elementDone k s).mem (p.remaining (p.elementDone k s)) (p.elementDone k s).mem =
      p.writeAll s.mem (p.remaining s) s.mem := by
  by_cases hk : k ∈ p.remaining s
  · have in_domain : ∀ j ∈ p.remaining s, j ∈ p.domain := fun j hj => (Plan.mem_remaining.mp hj).1
    have before := sep.spaced.of_subset in_domain
    have after := before.of_subset fun j (hj : j ∈ p.remaining (p.elementDone k s)) => (mem_remaining_elementDone.mp hj).1
    have w' := elementDone_wf sep (k := k) w
    have inside := before.inside k hk
    refine Plan.eq_writeAll before w (Plan.writeAll_wf after.inside w') (fun j hj => ?_) (fun x outside => ?_)
    · by_cases hjk : j = k
      · subst hjk
        have untouched : (p.writeAll (p.elementDone j s).mem (p.remaining (p.elementDone j s)) (p.elementDone j s).mem).read32
            (p.addr j) = (p.elementDone j s).mem.read32 (p.addr j) := by
          refine Memory.read32_congr fun x h1 h2 => Plan.writeAll_get_outside after.inside w' fun i hi => ?_
          obtain ⟨hi, hij⟩ := mem_remaining_elementDone.mp hi
          have apart := before.apart i hi j hj hij
          omega
        rw [untouched, elementDone_remaining hk, Memory.read32_write32_same w inside]
      · rw [Plan.writeAll_read32 after w' (mem_remaining_elementDone.mpr ⟨hj, hjk⟩),
          elementDone_value_other sep w (in_domain j hj) hjk]
    · rw [Plan.writeAll_get_outside after.inside w' fun j hj => outside j (mem_remaining_elementDone.mp hj).1,
        elementDone_remaining hk, Memory.get_write32 w inside, if_neg (outside k hk)]
  · rw [elementDone_not_remaining hk]

/-- R66: one element turn does not change how the command ends. -/
theorem completed_elementDone {p : Plan} (sep : p.Separate) (k : Nat) {s : State} (w : s.mem.wf = true) :
    p.completed (p.elementDone k s) = p.completed s := by
  have mem := writeAll_elementDone sep k w
  obtain ⟨m, q, e⟩ := elementDone_frame p k s
  simp only [Plan.completed, mem]
  rw [e]

/-! ### A list of element turns -/

/-- The state after the block has spent one turn on each element of a list. -/
def Plan.elementsDone (p : Plan) (ks : List Nat) (s : State) : State := ks.foldl (fun u k => p.elementDone k u) s

theorem elementsDone_nil (p : Plan) (s : State) : p.elementsDone [] s = s := rfl

theorem elementsDone_cons (p : Plan) (k : Nat) (ks : List Nat) (s : State) :
    p.elementsDone (k :: ks) s = p.elementsDone ks (p.elementDone k s) := rfl

/-- R66: any element turns, in any order, do not change how the command ends. -/
theorem completed_elementsDone {p : Plan} (sep : p.Separate) (ks : List Nat) {s : State} (w : s.mem.wf = true) :
    p.completed (p.elementsDone ks s) = p.completed s := by
  induction ks generalizing s with
  | nil => rfl
  | cons k ks ih => rw [elementsDone_cons, ih (elementDone_wf sep w), completed_elementDone sep k w]

/-- R61, R223: after element turns the words of the elements named and still to be written have their final value, all others their
old one. -/
theorem elementsDone_read32 {p : Plan} (sep : p.Separate) (ks : List Nat) {s : State} (w : s.mem.wf = true) {k : Nat}
    (hk : k ∈ p.domain) : (p.elementsDone ks s).mem.read32 (p.addr k) =
      if k ∈ ks ∧ k ∈ p.remaining s then p.value s.mem k else s.mem.read32 (p.addr k) := by
  induction ks generalizing s with
  | nil => simp [elementsDone_nil]
  | cons j ks ih =>
    rw [elementsDone_cons, ih (elementDone_wf sep w)]
    by_cases hkj : k = j
    · subst hkj
      rw [if_neg (fun h => (mem_remaining_elementDone.mp h.2).2 rfl)]
      by_cases hr : k ∈ p.remaining s
      · rw [elementDone_remaining hr, Memory.read32_write32_same w (sep.spaced.inside k hk),
          if_pos ⟨List.mem_cons_self .., hr⟩]
      · rw [elementDone_not_remaining hr, if_neg fun h => hr h.2]
    · simp only [elementDone_value_other sep w hk hkj, elementDone_read32_other sep w hk hkj, mem_remaining_elementDone,
        List.mem_cons, hkj, ne_eq, not_false_eq_true, and_true, false_or]

theorem elementsDone_get_outside {p : Plan} (sep : p.Separate) (ks : List Nat) {s : State} (w : s.mem.wf = true) {x : Nat}
    (outside : ¬ writesByte p x) : (p.elementsDone ks s).mem.get x = s.mem.get x := by
  induction ks generalizing s with
  | nil => rfl
  | cons k ks ih => rw [elementsDone_cons, ih (elementDone_wf sep w), elementDone_get_outside sep w outside]

theorem elementsDone_frame (p : Plan) (ks : List Nat) (s : State) :
    ∃ m q, p.elementsDone ks s = { s with mem := m, prog := q } := by
  induction ks generalizing s with
  | nil => exact ⟨s.mem, s.prog, rfl⟩
  | cons k ks ih =>
    obtain ⟨m, q, e⟩ := elementDone_frame p k s
    obtain ⟨m', q', e'⟩ := ih (p.elementDone k s)
    exact ⟨m', q', by rw [elementsDone_cons, e', e]⟩

/-! ### Steps and runs of a command in flight -/

theorem planOf_events (i : Instr) (s : State) (es : List Event) : planOf i { s with events := es } = planOf i s :=
  planOf_congr rfl rfl rfl rfl rfl fun _ => ⟨rfl, rfl⟩

theorem inFlight_elementDone {i : Instr} {s : State} (p : Plan) (k : Nat) (flight : inFlight i s) :
    inFlight i (p.elementDone k s) := by
  obtain ⟨m, q, e⟩ := elementDone_frame p k s
  rw [e]
  exact flight

theorem step_element {i : Instr} {s : State} (flight : inFlight i s) (go : (planOf i s).verdict = .go) (k : Nat) (es : List Event) :
    step { s with events := .element k :: es } = .next { (planOf i s).elementDone k s with events := es } := by
  obtain ⟨busy, command⟩ := flight
  rw [step_cons rfl]
  simp only [handle, busy, if_true]
  rw [blockElement_command (s := { s with events := es }) command, planOf_events, Plan.element, go, elementDone_events]

theorem step_finish {i : Instr} {s : State} (flight : inFlight i s) (go : (planOf i s).verdict = .go) (es : List Event) :
    step { s with events := .finish :: es } = .next { (planOf i s).completed s with events := es } := by
  obtain ⟨busy, command⟩ := flight
  rw [step_cons rfl]
  simp only [handle, busy, if_true]
  rw [blockFinish_command (s := { s with events := es }) command, exec_eq_run, planOf_events, Plan.run_go go]
  rfl

/-- A run through element turns, whatever comes after them. -/
theorem runSteps_elements {i : Instr} {s : State} (inv : MachineInv s) (flight : inFlight i s) (go : (planOf i s).verdict = .go)
    (ks : List Nat) (n : Nat) (es : List Event) :
    runSteps (ks.length + n) { s with events := ks.map Event.element ++ es } =
      runSteps n { (planOf i s).elementsDone ks s with events := es } := by
  induction ks generalizing s with
  | nil => rw [List.length_nil, Nat.zero_add]; rfl
  | cons k ks ih =>
    have plan := planOf_elementDone (k := k) inv.config inv.memory go
    have rest := ih (machineInv_elementDone inv flight.1 go k) (inFlight_elementDone _ k flight) ((congrArg Plan.verdict plan).trans go)
    rw [plan] at rest
    rw [List.length_cons, Nat.add_right_comm]
    exact (runSteps_succ (step_element flight go k _)).trans rest

theorem inFlight_elementsDone {i : Instr} {s : State} (p : Plan) (ks : List Nat) (flight : inFlight i s) :
    inFlight i (p.elementsDone ks s) := by
  obtain ⟨m, q, e⟩ := elementsDone_frame p ks s
  rw [e]
  exact flight

theorem planOf_elementsDone {i : Instr} {s : State} (inv : MachineInv s) (flight : inFlight i s)
    (go : (planOf i s).verdict = .go) (ks : List Nat) : planOf i ((planOf i s).elementsDone ks s) = planOf i s := by
  induction ks generalizing s with
  | nil => rfl
  | cons k ks ih =>
    have plan := planOf_elementDone (k := k) inv.config inv.memory go
    have rest := ih (machineInv_elementDone inv flight.1 go k) (inFlight_elementDone _ k flight)
      ((congrArg Plan.verdict plan).trans go)
    rw [plan] at rest
    exact rest

/-- Settles O48: the run is one of `runSteps_elements`, and by `completed_elementsDone` the command ends as it would have at once. -/
theorem elementOrderIsUnobservable : Obligations.ElementOrderIsUnobservable := by
  intro s i ks rest inv _ flight go
  have plan := planOf_elementsDone inv flight go ks
  have same := completed_elementsDone (planOf_separate inv.config go) ks inv.memory
  have last := step_finish (inFlight_elementsDone (planOf i s) ks flight) ((congrArg Plan.verdict plan).trans go) rest
  rw [runSteps_elements inv flight go, runSteps_one, step_finish flight go, last, plan, same]

/-- Settles O49: after the element turns every word is as `elementsDone_read32` says, and reset leaves memory alone. -/
theorem resetInMidCommandLeavesOldOrNewWords : Obligations.ResetInMidCommandLeavesOldOrNewWords := by
  intro s i ks rest inv _ flight fresh go named
  have sep := planOf_separate inv.config go
  rw [runSteps_elements inv flight go, runSteps_one, step_cons rfl]
  refine ⟨_, rfl, fun k hk => ?_, fun x outside => ?_, rfl, rfl, rfl, rfl, rfl, rfl, rfl, rfl⟩
  · have remaining : k ∈ (planOf i s).remaining s := Plan.mem_remaining.mpr ⟨hk, by simp [fresh]⟩
    have words := elementsDone_read32 sep ks inv.memory hk
    simp only [remaining, and_true] at words
    exact words
  · exact elementsDone_get_outside sep ks inv.memory outside

/-- R32: how a block that was busy with a legal `STATUS` stands after its turn. -/
theorem blockFinish_retired {s t : State} (busy : s.status.busy = true) (legal : s.status.legal = true)
    (turn : blockFinish s = .next t) : t.status.busy = false ∧ t.status.fault = !t.status.done ∧ t.prog = none := by
  obtain ⟨done, fault, -⟩ := Status.legal_busy legal busy
  obtain ⟨i, -, -, rfl⟩ | ⟨c, rfl, -⟩ := blockFinish_next turn
  · simp [fault]
  · simp [done]

theorem step_nil_busy {s : State} (none_left : s.events = []) (busy : s.status.busy = true) : step s = blockFinish s := by
  rw [step_nil none_left, if_pos busy]

/-- Settles O44: with no event left the step is the block's turn, whose answer the verdict of the checks decides. -/
theorem busyBlockRetires : Obligations.BusyBlockRetires := by
  refine ⟨fun s t busy legal none_left hstep => ?_, fun s i ⟨busy, command⟩ none_left => ?_,
    fun s r busy illegal none_left => ?_⟩
  · exact blockFinish_retired busy legal (step_nil_busy none_left busy ▸ hstep)
  · rw [step_nil_busy none_left busy, blockFinish_command command, exec_eq_run]
    exact ⟨fun go => ⟨_, Plan.run_go go, rfl⟩, fun c trap => ⟨_, Plan.run_trap trap, rfl⟩⟩
  · exact ⟨_, (step_nil_busy none_left busy).trans (blockFinish_illegal illegal), rfl⟩

end Sys2Proof.Machine
end

section
/-! SUPPORT. How a command stops on memory that is not plain (spec/20_memory.md R52, R63, R64, R72): what the memory checks answer, and
where `HADD` makes them. -/

namespace Sys2Proof.Machine

theorem Plan.run_stuck {p : Plan} {s : State} {f : Fault} (h : p.verdict = .stuck f) : p.run s = .fault f := by
  simp only [Plan.run, h]

theorem Plan.run_refuse {p : Plan} {s : State} {r : Refusal} (h : p.verdict = .refuse r) : p.run s = .refused r := by
  simp only [Plan.run, h]

/-! ### Pixel commands -/

/-- Past the register checks only the memory of the buffer decides. -/
theorem pixelPlan_verdict {F : Word → Word} {s : State} (registers : pixelTrap s = none) :
    (pixelPlan F s).verdict = memoryVerdict s.cfg (pixelBuffer s) := by
  simp only [pixelPlan, registers]

theorem pixelCount_of_checked {s : State} (registers : pixelTrap s = none) : (pixelCount s).toNat = s.n.toNat :=
  pixelCount_toNat (pixelTrap_none_iff.mp registers).2.1

/-- R55: the buffer of a command that passed its register checks. -/
theorem inRanges_checkedBuffer {s : State} (registers : pixelTrap s = none) {x : Nat} :
    inRanges (pixelBuffer s) x ↔ s.a0.toNat ≤ x ∧ x < s.a0.toNat + 4 * s.n.toNat := by
  rw [inRanges_pixelBuffer, pixelCount_of_checked registers]

theorem checkedBuffer_inside {s : State} (registers : pixelTrap s = none) {x : Nat} (hx : inRanges (pixelBuffer s) x) :
    x < addressSpace := by
  obtain ⟨-, -, top⟩ := pixelTrap_none_iff.mp registers
  rw [inRanges_pixelBuffer] at hx
  simp only [addressSpace]
  omega

/-- Settles O51: past the register checks the answer is that of the memory check on the buffer. -/
theorem bufferOutsidePlainMemoryStops : Obligations.BufferOutsidePlainMemoryStops := by
  intro s i pixel registers
  obtain ⟨F, plan⟩ := planOf_pixel pixel s
  have verdict := pixelPlan_verdict (F := F) registers
  have buffer := fun x => inRanges_checkedBuffer registers (x := x)
  rw [exec_eq_run, plan]
  constructor
  · rintro ⟨g, hg, absent, x, h1, h2, h3, h4⟩
    have hole := memoryVerdict_hole ⟨x, (buffer x).mpr ⟨h3, h4⟩, g, hg, absent, h1, h2⟩
    exact Plan.run_stuck (verdict.trans hole)
  · rintro no_hole ⟨x, h1, h2, device⟩
    have refused := memoryVerdict_device (fun _ => checkedBuffer_inside registers)
      (fun y hy ⟨g, hg, absent, h3, h4⟩ => no_hole g hg absent y h3 h4 ((buffer y).mp hy))
      ⟨x, (buffer x).mpr ⟨h1, h2⟩, device⟩
    exact Plan.run_refuse (verdict.trans refused)

/-! ### `HADD` -/

/-- Log entry 9: palette words outside plain memory stop `HADD` before it reads them. -/
theorem haddVerdict_palette_stops {s : State} (registers : haddTrap s = none)
    (stops : memoryVerdict s.cfg (palRanges s) ≠ .go) : haddVerdict s = memoryVerdict s.cfg (palRanges s) := by
  simp only [haddVerdict, registers]

/-- Past the palette checks the overlap of records is looked at, then their memory (log entry 9). -/
theorem haddVerdict_checked {s : State} (registers : haddTrap s = none) (plain : ∀ x, paletteByte s x → plainAt s.cfg x)
    (palettes : palTrap s = none) : haddVerdict s =
      if partialOverlap s.cfg s.a2 s.a0 || partialOverlap s.cfg s.a2 s.a1 then .refuse .partialOverlap
      else memoryVerdict s.cfg (recordRanges s) := by
  have go : memoryVerdict s.cfg (palRanges s) = .go :=
    memoryVerdict_go_iff.mpr fun x hx => plain x (inRanges_palRanges.mp hx)
  simp only [haddVerdict, registers, go, palettes]

/-- Settles O50: past the palette checks an overlap that is neither equality nor none is refused first. -/
theorem partialOverlapIsRefused : Obligations.PartialOverlapIsRefused := by
  intro s h registers palettes plain0 plain1 input other below above
  have plain : ∀ x, paletteByte s x → plainAt s.cfg x := by
    rintro x ⟨r, rfl | rfl, h1, h2⟩
    · exact plain0 x h1 h2
    · exact plain1 x h1 h2
  have overlap : partialOverlap s.cfg s.a2 h = true := by
    rw [← Bool.not_eq_false, partialOverlap_false_iff]
    rintro (same | apart)
    · exact other same
    · omega
  have verdict := haddVerdict_checked registers plain palettes
  rw [if_pos (by rcases input with rfl | rfl <;> simp [overlap])] at verdict
  exact Plan.run_refuse (p := haddPlan s) verdict

/-- Records that passed the register checks lie in the address space. -/
theorem recordByte_inside {s : State} (registers : haddTrap s = none) {x : Nat} (hx : recordByte s x) : x < addressSpace := by
  obtain ⟨-, h0, h1, h2⟩ := haddTrap_none_iff.mp registers
  obtain ⟨r, rfl | rfl | rfl, -, below⟩ := hx <;> omega

/-- R58: the palette word is the first word of its record. -/
theorem paletteByte_recordByte {s : State} {x : Nat} (hx : paletteByte s x) : recordByte s x := by
  obtain ⟨r, hr, h1, h2⟩ := hx
  refine ⟨r, hr.imp_right .inl, h1, ?_⟩
  simp only [hwords]
  omega

/-- Settles O60: the memory check on the palette words comes before the palette checks, that on the records at the end. -/
theorem histogramOutsidePlainMemoryStops : Obligations.HistogramOutsidePlainMemoryStops := by
  intro s registers
  have stops {v : Verdict} (check : memoryVerdict s.cfg (palRanges s) = v) (hv : v ≠ .go) : (haddPlan s).verdict = v :=
    (haddVerdict_palette_stops registers (check ▸ hv)).trans check
  refine ⟨fun ⟨x, hx, hole⟩ => ?_, fun no_hole ⟨x, hx, device⟩ => ?_, fun plain palettes out0 out1 => ?_⟩
  · have check := memoryVerdict_hole ⟨x, inRanges_palRanges.mpr hx, hole⟩
    exact Plan.run_stuck (stops check Verdict.noConfusion)
  · have check := memoryVerdict_device
      (fun y hy => recordByte_inside registers (paletteByte_recordByte (inRanges_palRanges.mp hy)))
      (fun y hy => no_hole y (inRanges_palRanges.mp hy)) ⟨x, inRanges_palRanges.mpr hx, device⟩
    exact Plan.run_refuse (stops check Verdict.noConfusion)
  · have verdict : (haddPlan s).verdict = memoryVerdict s.cfg (recordRanges s) := by
      have checked := haddVerdict_checked registers plain palettes
      rwa [partialOverlap_false_iff.mpr out0, partialOverlap_false_iff.mpr out1, if_neg (by decide)] at checked
    refine ⟨fun ⟨x, hx, hole⟩ => ?_, fun no_hole ⟨x, hx, device⟩ => ?_⟩
    · have check := memoryVerdict_hole ⟨x, inRanges_recordRanges.mpr hx, hole⟩
      exact Plan.run_stuck (verdict.trans check)
    · have check := memoryVerdict_device (fun y hy => recordByte_inside registers (inRanges_recordRanges.mp hy))
        (fun y hy => no_hole y (inRanges_recordRanges.mp hy)) ⟨x, inRanges_recordRanges.mpr hx, device⟩
      exact Plan.run_refuse (verdict.trans check)

end Sys2Proof.Machine
end

section
/-! SUPPORT. The read set and the write set of a command (spec/20_memory.md R62), and that a command is a function of its read set
(spec/40_common_execution.md R104). -/

namespace Sys2Proof.Machine

/-! ### What a completed command leaves in memory -/

/-- R61, R100: after completion an element that was still to be written holds its value, any other what it held. -/
theorem Plan.completed_read32 {p : Plan} (spaced : p.Spaced p.domain) {s : State} (w : s.mem.wf = true) {k : Nat}
    (hk : k ∈ p.domain) : (p.completed s).mem.read32 (p.addr k) =
      if k ∈ performed s then s.mem.read32 (p.addr k) else p.value s.mem k := by
  have left := spaced.of_subset fun j (hj : j ∈ p.remaining s) => (Plan.mem_remaining.mp hj).1
  rw [completed_mem]
  split
  next old =>
    refine Memory.read32_congr fun x h1 h2 => Plan.writeAll_get_outside left.inside w fun j hj => ?_
    obtain ⟨hj, new⟩ := Plan.mem_remaining.mp hj
    have apart := spaced.apart j hj k hk fun e => new (e ▸ old)
    omega
  next new => exact Plan.writeAll_read32 left w (Plan.mem_remaining.mpr ⟨hk, new⟩)

/-- The counter positions of `HADD` are its elements (R59; log entry 7). -/
theorem wordIndex_mem_haddDomain {s : State} {e : Position} (he : e ∈ counterDomain s.cfg (palette s)) :
    wordIndex s.cfg e ∈ (haddPlan s).domain := List.mem_map_of_mem he

/-- Settles O35: a sum of two numbers below `2^28` does not wrap. -/
theorem counterSumsAreExactWithinTheBound : Obligations.CounterSumsAreExactWithinTheBound := by
  intro s t e config w run completed not_before fresh he bound0 bound1
  rw [exec_eq_run] at run
  obtain ⟨go, rfl⟩ | ⟨c, -, rfl⟩ := Plan.run_next run
  · have sum : ((planOf .hadd s).completed s).mem.read32 (counterAddr s.cfg s.a2 e) =
        s.mem.read32 (counterAddr s.cfg s.a0 e) + s.mem.read32 (counterAddr s.cfg s.a1 e) := by
      have stored := Plan.completed_read32 (planOf_spaced config go) w (wordIndex_mem_haddDomain he)
      rwa [fresh, if_neg List.not_mem_nil] at stored
    simp only [counterBound] at bound0 bound1
    rw [sum, BitVec.toNat_add, Nat.mod_eq_of_lt (by omega)]
    exact ⟨rfl, by omega⟩
  · exact absurd (not_before.symm.trans completed) Bool.false_ne_true

/-! ### The ranges of a footprint -/

theorem inRanges_nil (x : Nat) : ¬ inRanges [] x := by simp [inRanges]

theorem inRanges_append {rs qs : List Range} {x : Nat} : inRanges (rs ++ qs) x ↔ inRanges rs x ∨ inRanges qs x := by
  simp only [inRanges, List.mem_append, or_and_right, exists_or]

theorem pixelPlan_foot {F : Word → Word} {s : State} (registers : pixelTrap s = none) :
    (pixelPlan F s).foot = { reads := pixelBuffer s, writes := pixelBuffer s } := by
  simp only [pixelPlan, registers]

theorem haddFoot_checked {s : State} (registers : haddTrap s = none) (palettes : palTrap s = none) :
    haddFoot s = { reads := palRanges s ++ haddReads s, writes := haddWrites s } := by
  simp only [haddFoot, registers, palettes]

/-- The bytes of the pixels are the bytes of the buffer (R55). -/
theorem writesByte_pixelPlan {F : Word → Word} {s : State} {x : Nat} :
    writesByte (pixelPlan F s) x ↔ inRanges (pixelBuffer s) x := by
  rw [inRanges_pixelBuffer]
  simp only [writesByte, pixelPlan, pixelAddr, List.mem_range]
  constructor
  · rintro ⟨k, hk, h1, h2⟩
    omega
  · intro h
    exact ⟨(x - s.a0.toNat) / 4, by omega, by omega, by omega⟩

/-- A command is `pixel_command(F)` for one pixel function `F` (R101), or it is `HADD`. -/
theorem planOf_cases (i : Instr) : (∃ F, ∀ s, planOf i s = pixelPlan F s) ∨ i = .hadd := by
  cases i with
  | subg => exact .inl ⟨sg, fun _ => rfl⟩
  | ctrans g2r g2b r2b => exact .inl ⟨ct g2r g2b r2b, fun _ => rfl⟩
  | hadd => exact .inr rfl

/-- R62: the write set of a command that passes its checks is the bytes of its elements. -/
theorem inRanges_writes {i : Instr} {s : State} (go : (planOf i s).verdict = .go) {x : Nat} :
    inRanges (planOf i s).foot.writes x ↔ writesByte (planOf i s) x := by
  obtain ⟨F, plan⟩ | rfl := planOf_cases i
  · rw [plan] at go ⊢
    rw [pixelPlan_foot (pixelPlan_go_iff.mp go).1, writesByte_pixelPlan]
  · obtain ⟨registers, -, palettes, -⟩ := haddVerdict_go_iff.mp go
    have foot : (planOf .hadd s).foot = _ := haddFoot_checked registers palettes
    rw [foot]
    exact inRanges_liveRanges

/-- R62: the read set of `HADD` past its checks, by the elements of its plan. -/
theorem inRanges_haddReads {s : State} (go : (haddPlan s).verdict = .go) {x : Nat} :
    inRanges (haddPlan s).foot.reads x ↔ paletteByte s x ∨
      ∃ h, (h = s.a0 ∨ h = s.a1) ∧ ∃ k ∈ (haddPlan s).domain, recordAddr h k ≤ x ∧ x < recordAddr h k + 4 := by
  obtain ⟨registers, -, palettes, -⟩ := haddVerdict_go_iff.mp go
  have foot : (haddPlan s).foot = _ := haddFoot_checked registers palettes
  rw [foot]
  simp only [haddReads, inRanges_append, inRanges_palRanges, inRanges_liveRanges, or_and_right, exists_or, exists_eq_left]

/-- R62, R102: a command whose checks fail is said to write nothing, and `HADD` alone reads, its palette words. -/
theorem foot_trap {i : Instr} {s : State} {c : Cause} (trap : (planOf i s).verdict = .trap c) :
    (planOf i s).foot.writes = [] ∧ ∀ x, inRanges (planOf i s).foot.reads x → i = .hadd ∧ paletteByte s x := by
  obtain ⟨F, plan⟩ | rfl := planOf_cases i
  · have foot : (planOf i s).foot = Footprint.empty := by
      rw [plan] at trap ⊢
      simp only [pixelPlan, pixelPlan_trap_iff.mp trap]
    rw [foot]
    exact ⟨rfl, fun x h => absurd h (inRanges_nil x)⟩
  · obtain registers | ⟨registers, -, palettes⟩ := haddVerdict_trap_iff.mp trap
    · have foot : (planOf .hadd s).foot = Footprint.empty := by simp only [planOf, haddPlan, haddFoot, registers]
      rw [foot]
      exact ⟨rfl, fun x h => absurd h (inRanges_nil x)⟩
    · have foot : (planOf .hadd s).foot = { reads := palRanges s, writes := [] } := by
        simp only [planOf, haddPlan, haddFoot, registers, palettes]
      rw [foot]
      exact ⟨rfl, fun x h => ⟨rfl, inRanges_palRanges.mp h⟩⟩

/-- Settles O38: the write set by `inRanges_writes`, the read sets by `inRanges_checkedBuffer` and `inRanges_haddReads`, a fault by
`foot_trap`. -/
theorem writesStayInsideTheFootprint : Obligations.WritesStayInsideTheFootprint := by
  refine ⟨fun s t i config w run x outside => ?_, fun s i _ go x => inRanges_writes go, fun s i pixel go x => ?_,
    fun s go x => ?_, fun s t i c trap run => ?_⟩
  · rw [exec_eq_run] at run
    obtain ⟨go, -⟩ | ⟨c, -, rfl⟩ := Plan.run_next run
    · exact Plan.run_get_outside run w (fun go => (planOf_spaced config go).inside)
        fun k hk inside => outside ((inRanges_writes go).mpr ⟨k, hk, inside⟩)
    · rfl
  · obtain ⟨F, plan⟩ := planOf_pixel pixel s
    rw [plan] at go ⊢
    have registers := (pixelPlan_go_iff.mp go).1
    rw [pixelPlan_foot registers, inRanges_checkedBuffer registers]
  · have elements (h : Word) : (∃ k ∈ (haddPlan s).domain, recordAddr h k ≤ x ∧ x < recordAddr h k + 4) ↔
        ∃ e ∈ counterDomain s.cfg (palette s), counterAddr s.cfg h e ≤ x ∧ x < counterAddr s.cfg h e + 4 :=
      by simp [haddPlan, counterAddr]
    rw [planOf, inRanges_haddReads go]
    simp only [elements]
    refine or_congr_right ⟨?_, ?_⟩
    · rintro ⟨h, hh, e, he, inside⟩
      exact ⟨e, he, h, hh, inside⟩
    · rintro ⟨e, he, h, hh, inside⟩
      exact ⟨h, hh, e, he, inside⟩
  · obtain ⟨no_writes, reads⟩ := foot_trap trap
    rw [exec_eq_run, Plan.run_trap trap] at run
    exact ⟨Host.Outcome.next.inj run ▸ rfl, fun x => no_writes ▸ inRanges_nil x, reads⟩

/-! ### Two memories with the same read set (R104) -/

section
variable {i : Instr} {s : State} {m : Memory} (kept : ∀ x, inRanges (planOf i s).foot.reads x → m.get x = s.mem.get x)
include kept

/-- The value of an element comes from the read set. -/
theorem value_of_reads (go : (planOf i s).verdict = .go) {k : Nat} (hk : k ∈ (planOf i s).domain) :
    (planOf i s).value m k = (planOf i s).value s.mem k := by
  obtain ⟨F, plan⟩ | rfl := planOf_cases i
  · rw [plan] at kept go hk ⊢
    rw [pixelPlan_foot (pixelPlan_go_iff.mp go).1] at kept
    exact congrArg F (Memory.read32_congr fun x h1 h2 => kept x (writesByte_pixelPlan.mp ⟨k, hk, h1, h2⟩))
  · have input (h : Word) (hh : h = s.a0 ∨ h = s.a1) : m.read32 (recordAddr h k) = s.mem.read32 (recordAddr h k) :=
      Memory.read32_congr fun x h1 h2 => kept x ((inRanges_haddReads go).mpr (.inr ⟨h, hh, k, hk, h1, h2⟩))
    exact congrArg₂ add32 (input s.a0 (.inl rfl)) (input s.a1 (.inr rfl))

/-- A command that passes its checks is the same command on the other memory. -/
theorem planOf_of_reads (go : (planOf i s).verdict = .go) : planOf i { s with mem := m } = planOf i s := by
  obtain same | ⟨⟨c, trap⟩, -⟩ := planOf_mem kept
  · exact same
  · exact absurd (go.symm.trans trap) Verdict.noConfusion

/-- The checks of every command have the same outcome on it. -/
theorem verdict_of_reads : (planOf i { s with mem := m }).verdict = (planOf i s).verdict := by
  obtain ⟨F, plan⟩ | rfl := planOf_cases i
  · rw [plan, plan]
    exact congrArg Plan.verdict (pixelPlan_congr rfl rfl rfl)
  · cases registers : haddTrap s with
    | some c =>
      have fails (u : State) (h : haddTrap u = some c) : (planOf .hadd u).verdict = .trap c := haddVerdict_trap_iff.mpr (.inl h)
      exact (fails { s with mem := m } registers).trans (fails s registers).symm
    | none =>
      have plan : haddPlan { s with mem := m } = haddPlan s := haddPlan_mem fun x hx => by
        obtain ⟨r, hr, inside⟩ := inRanges_palRanges.mpr hx
        exact kept x ⟨r, palRanges_subset_haddFoot registers r hr, inside⟩
      exact congrArg Plan.verdict plan

end

/-- Settles O43: the checks pass on both memories, and then every element gets the same value, or they fail on both. -/
theorem commandIsAFunctionOfItsReadSet : Obligations.CommandIsAFunctionOfItsReadSet := by
  intro s s' t i config w w' cfg a0 a1 a2 n fresh fresh' kept run
  have on_memory : planOf i s' = planOf i { s with mem := s'.mem } :=
    planOf_congr cfg a0 a1 a2 n fun _ => by simp only [palA, palB, a0, a1, and_self]
  have verdict : (planOf i s').verdict = (planOf i s).verdict := on_memory ▸ verdict_of_reads kept
  rw [exec_eq_run] at run ⊢
  obtain ⟨go, rfl⟩ | ⟨c, trap, rfl⟩ := Plan.run_next run
  · have plan : planOf i s' = planOf i s := on_memory.trans (planOf_of_reads kept go)
    have spaced := planOf_spaced config go
    refine ⟨_, Plan.run_go (verdict.trans go), verdict, fun x hx => ?_⟩
    obtain ⟨k, hk, h1, h2⟩ := (inRanges_writes go).mp hx
    refine Memory.get_of_read32 ?_ h1 h2
    rw [plan, Plan.completed_read32 spaced w' hk, Plan.completed_read32 spaced w hk, fresh, fresh',
      if_neg List.not_mem_nil, if_neg List.not_mem_nil, value_of_reads kept go hk]
  · exact ⟨_, Plan.run_trap (verdict.trans trap), verdict, fun x hx => absurd ((foot_trap trap).1 ▸ hx) (inRanges_nil x)⟩

end Sys2Proof.Machine
end

section
/-! SUPPORT. The host's accesses to plain memory (spec/20_memory.md R53, R54, R63, R73): which of them race, what they return and store, and
when the host has its memory back. -/

namespace Sys2Proof.Machine

/-! ### Races (spec/70_reset_and_hazards.md R213, R230) -/

theorem readRaces_iff {s : State} {a size : Nat} :
    readRaces s a size = true ↔ ∃ x, a ≤ x ∧ x < a + size ∧ inRanges s.held.writes x := by
  rw [readRaces, meetsAny_iff]
  exact exists_congr fun x => and_comm.trans and_assoc

theorem writeRaces_iff {s : State} {a size : Nat} :
    writeRaces s a size = true ↔ ∃ x, a ≤ x ∧ x < a + size ∧ (inRanges s.held.reads x ∨ inRanges s.held.writes x) := by
  rw [writeRaces, Bool.or_eq_true, meetsAny_iff, meetsAny_iff, ← exists_or]
  exact exists_congr fun x => by tauto

section
variable {s : State} {a : Nat} {w : Width} (plain : ∀ x, a ≤ x → x < a + w.bytes → plainAt s.cfg x)
include plain

theorem hostRead_race (race : ∃ x, a ≤ x ∧ x < a + w.bytes ∧ inRanges s.held.writes x) :
    hostRead a w s = .refused .dataRace := by
  simp only [hostRead, route_memory_iff.mpr plain, readRaces_iff.mpr race, if_true]

theorem hostRead_free (free : ∀ x, a ≤ x → x < a + w.bytes → ¬ inRanges s.held.writes x) :
    hostRead a w s = .next (note (s.mem.readWidth a w) s) := by
  have no_race : ¬ readRaces s a w.bytes = true := fun race => by
    obtain ⟨x, h1, h2, held⟩ := readRaces_iff.mp race
    exact free x h1 h2 held
  simp only [hostRead, route_memory_iff.mpr plain, if_neg no_race]

theorem hostWrite_race (v : Word)
    (race : ∃ x, a ≤ x ∧ x < a + w.bytes ∧ (inRanges s.held.reads x ∨ inRanges s.held.writes x)) :
    hostWrite a w v s = .refused .dataRace := by
  simp only [hostWrite, route_memory_iff.mpr plain, writeRaces_iff.mpr race, if_true]

theorem hostWrite_free (v : Word)
    (free : ∀ x, a ≤ x → x < a + w.bytes → ¬ inRanges s.held.reads x ∧ ¬ inRanges s.held.writes x) :
    hostWrite a w v s = .next { s with mem := s.mem.writeWidth a v w } := by
  have no_race : ¬ writeRaces s a w.bytes = true := fun race => by
    obtain ⟨x, h1, h2, held⟩ := writeRaces_iff.mp race
    exact held.elim (free x h1 h2).1 (free x h1 h2).2
  simp only [hostWrite, route_memory_iff.mpr plain, if_neg no_race]

end

/-! ### What is handed over -/

/-- R100, R101: running a command leaves what is handed over, and the parameters. -/
theorem blockFinish_held {s t : State} (turn : blockFinish s = .next t) : t.held = s.held ∧ t.cfg = s.cfg := by
  obtain ⟨i, -, -, rfl⟩ | ⟨c, rfl, -⟩ := blockFinish_next turn <;> exact ⟨rfl, rfl⟩

theorem blockElement_held {k : Nat} {s t : State} (turn : blockElement k s = .next t) : t.held = s.held := by
  obtain ⟨i, -, -, rfl⟩ | ⟨c, rfl, -⟩ := blockElement_next turn
  · obtain ⟨m, q, e⟩ := elementDone_frame (planOf i s) k s
    rw [e]
  · rfl

/-- Nothing of `f` is missing in `g`. -/
def Footprint.Within (f g : Footprint) : Prop := (∀ r ∈ f.reads, r ∈ g.reads) ∧ (∀ r ∈ f.writes, r ∈ g.writes)

theorem Footprint.within_of_eq {f g : Footprint} (h : g = f) : f.Within g := h ▸ ⟨fun _ hr => hr, fun _ hr => hr⟩

theorem Footprint.within_join (f g : Footprint) : f.Within (f.join g) :=
  ⟨fun _ => List.mem_append_left _, fun _ => List.mem_append_left _⟩

/-- R230: an issue hands over more; a dropped write nothing. -/
theorem writeCmd_held (w : Word) (s : State) : s.held.Within (writeCmd w s).held := by
  unfold writeCmd
  split
  · exact Footprint.within_of_eq rfl
  · exact Footprint.within_join _ _

/-- R67, R230: the host takes memory back by reading `BUSY = 0`, and in no other way. -/
theorem hostEffect_held {s t : State} (effect : HostEffect s t) : s.held.Within t.held ∨
    (t.held = Footprint.empty ∧ s.status.busy = false ∧ t.seen = s.seen ++ [s.status.word]) := by
  cases effect with
  | command w => exact .inl (writeCmd_held w s)
  | status =>
    unfold observeStatus
    split
    · exact .inl (Footprint.within_of_eq rfl)
    next idle => exact .inr ⟨rfl, by simpa using idle, rfl⟩
  | _ => exact .inl (Footprint.within_of_eq rfl)

/-- R73, R230: the footprint of a command in flight is handed over, and its retirement does not give it back. -/
theorem held_of_flight {s t : State} {i : Instr} (ok : ProgressOk s) (flight : inFlight i s) (ht : t = s ∨ blockFinish s = .next t) :
    (planOf i s).foot.Within t.held := by
  obtain ⟨busy, command⟩ := flight
  have held : t.held = s.held := by
    obtain rfl | turn := ht
    · rfl
    · exact (blockFinish_held turn).1
  rw [held, ← footprintOf_command command]
  exact ⟨ok.reads busy, ok.writes busy⟩

theorem inRanges_mono {rs qs : List Range} (h : ∀ r ∈ rs, r ∈ qs) {x : Nat} : inRanges rs x → inRanges qs x :=
  fun ⟨r, hr, inside⟩ => ⟨r, h r hr, inside⟩

/-- Settles O52: a race is a byte of the access that is handed over; the cases of `step_next` keep what is handed over. -/
theorem hostAccessRacesAreRefused : Obligations.HostAccessRacesAreRefused := by
  refine ⟨fun s t i addr v w ok flight ht plain => ?_, fun s addr v w plain => ?_, fun s t hstep => ?_, fun s config => ?_⟩
  · obtain ⟨reads, writes⟩ := held_of_flight ok flight ht
    refine ⟨fun ⟨x, h1, h2, foot⟩ => ?_, fun ⟨x, h1, h2, foot⟩ => ?_⟩
    · exact hostWrite_race plain v ⟨x, h1, h2, foot.imp (inRanges_mono reads) (inRanges_mono writes)⟩
    · exact hostRead_race plain ⟨x, h1, h2, inRanges_mono writes foot⟩
  · exact ⟨hostRead_free plain, hostRead_race plain, hostWrite_free plain v, hostWrite_race plain v⟩
  · obtain ⟨es, ⟨-, turn⟩ | ⟨a, act⟩ | ⟨k, -, turn⟩ | ⟨-, rfl⟩ | ⟨reset, rfl⟩⟩ := step_next hstep
    · have held := (blockFinish_held turn).1
      exact .inl (Footprint.within_of_eq held)
    · have kept := hostEffect_held (hostAct_next act)
      exact kept.imp_right fun ⟨empty, idle, seen⟩ => ⟨empty, .inr ⟨idle, seen⟩⟩
    · have held := blockElement_held turn
      exact .inl (Footprint.within_of_eq held)
    · exact .inl (Footprint.within_of_eq rfl)
    · exact .inr ⟨rfl, .inl ⟨es, reset⟩⟩
  · refine ⟨_, handle_rd_status config, ?_⟩
    simp only [note_held, observeStatus]
    split <;> rfl

/-! ### Bytes, half words and words (R53, R54) -/

/-- A word of memory holds its bytes from the lowest on. -/
theorem byteOf_read32 (m : Memory) (a : Nat) {j : Nat} (hj : j < 4) : byteOf (m.read32 a) j = m.get (a + j) := by
  obtain ⟨b0, b1, b2, b3⟩ := byteOf_append (m.get (a + 3)) (m.get (a + 2)) (m.get (a + 1)) (m.get a)
  obtain rfl | rfl | rfl | rfl : j = 0 ∨ j = 1 ∨ j = 2 ∨ j = 3 := by omega
  · exact b0
  · exact b1
  · exact b2
  · exact b3

/-- The byte above the `n` bits of a word that start at its byte `o`, together with them. -/
theorem byteOf_append_extract (v : Word) {j o n : Nat} (above : 8 * j = 8 * o + n) :
    byteOf v j ++ v.extractLsb' (8 * o) n = v.extractLsb' (8 * o) (8 + n) :=
  BitVec.extractLsb'_append_extractLsb'_eq_extractLsb' above

/-- A read returns the bytes of its width, zero-extended (log entry 14). -/
theorem readWidth_of_bytes {m : Memory} {a : Nat} {v : Word} {o : Nat} {w : Width}
    (bytes : ∀ j, j < w.bytes → m.get (a + j) = byteOf v (o + j)) :
    m.readWidth a w = (v.extractLsb' (8 * o) (8 * w.bytes)).setWidth 32 := by
  have first : m.get a = v.extractLsb' (8 * o) 8 := bytes 0 (by cases w <;> decide)
  cases w with
  | w8 => rw [Memory.readWidth, first]; rfl
  | w16 =>
    rw [Memory.readWidth, first, bytes 1 (by decide), byteOf_append_extract v (by omega)]
    rfl
  | w32 =>
    have word : m.read32 a = v.extractLsb' (8 * o) 32 := by
      rw [Memory.read32, first, bytes 1 (by decide), bytes 2 (by decide), bytes 3 (by decide), BitVec.append_assoc,
        BitVec.append_assoc, byteOf_append_extract v (by omega), byteOf_append_extract v (by omega),
        byteOf_append_extract v (by omega)]
      rfl
    rw [Memory.readWidth, word]
    exact (BitVec.setWidth_eq _).symm

/-- A claim for each offset below `n` is one for each address of the range. -/
theorem forall_address_of_offset {P : Nat → Prop} {a n : Nat} (h : ∀ j, j < n → P (a + j)) : ∀ x, a ≤ x → x < a + n → P x := by
  intro x h1 h2
  have hx := h (x - a) (by omega)
  rwa [Nat.add_sub_cancel' h1] at hx

/-- R54: a read inside a word of plain memory that no command may write returns the bits of the word that are stored there. -/
theorem busRead_within_word {s : State} {addr p : Word} (word : s.mem.read32 addr.toNat = p)
    (ok : ∀ j, j < 4 → plainAt s.cfg (addr.toNat + j) ∧ ¬ inRanges s.held.writes (addr.toNat + j)) (o : Nat) (w : Width)
    (inside : o + w.bytes ≤ 4) : handle (.host (.busRead (addr + BitVec.ofNat 32 o) w)) s =
      .next { s with seen := s.seen ++ [(p.extractLsb' (8 * o) (8 * w.bytes)).setWidth 32] } := by
  have ok_at := forall_address_of_offset (P := fun x => plainAt s.cfg x ∧ ¬ inRanges s.held.writes x) ok
  have pos : 0 < w.bytes := by cases w <;> decide
  have address : (addr + BitVec.ofNat 32 o).toNat = addr.toNat + o := by
    have top := (ok 3 (by decide)).1.1
    simp only [addressSpace] at top
    simp only [BitVec.toNat_add, BitVec.toNat_ofNat]
    omega
  have value : s.mem.readWidth (addr.toNat + o) w = (p.extractLsb' (8 * o) (8 * w.bytes)).setWidth 32 := by
    refine readWidth_of_bytes fun j hj => ?_
    rw [← word, byteOf_read32 s.mem addr.toNat (by omega), Nat.add_assoc]
  have read : hostRead (addr.toNat + o) w s = _ :=
    hostRead_free (fun x h1 h2 => (ok_at x (by omega) (by omega)).1) fun x h1 h2 => (ok_at x (by omega) (by omega)).2
  rw [value] at read
  simp only [handle, hostAct, address, read]
  rfl

/-- Settles O53: the channels and lanes of a pixel are the bits of its word at their offsets. -/
theorem narrowReadsSeeTheChannels : Obligations.NarrowReadsSeeTheChannels := by
  intro s addr p word ok
  have read := busRead_within_word word ok
  have first (w : Width) (hw : 0 + w.bytes ≤ 4) := read 0 w hw
  rw [BitVec.add_zero addr] at first
  refine ⟨first .w8 (by decide), read 1 .w8 (by decide), read 2 .w8 (by decide), read 3 .w8 (by decide),
    first .w16 (by decide), read 2 .w16 (by decide), (first .w32 (by decide)).trans ?_⟩
  simp [Width.bytes]

/-! ### Stores (R53, R63) -/

/-- A host store leaves the low bytes of its value at the bytes it names. -/
theorem Memory.get_writeWidth_inside {m : Memory} (wf : m.wf = true) {a : Nat} {w : Width} (ha : a + w.bytes ≤ addressSpace)
    (v : Word) {j : Nat} (hj : j < w.bytes) : (m.writeWidth a v w).get (a + j) = byteOf v j := by
  cases w with
  | w8 =>
    obtain rfl : j = 0 := Nat.lt_one_iff.mp hj
    rw [Memory.writeWidth, Memory.get_set wf, if_pos (Nat.add_zero a)]
  | w16 =>
    simp only [Width.bytes] at ha hj
    rw [Memory.writeWidth, Memory.get_set (Memory.set_wf wf (by omega) _), Memory.get_set wf]
    obtain rfl | rfl : j = 0 ∨ j = 1 := by omega
    · rw [if_neg (by omega), if_pos (Nat.add_zero a)]
    · rw [if_pos rfl]
  | w32 =>
    simp only [Width.bytes] at ha hj
    rw [Memory.writeWidth, Memory.get_write32 wf ha, if_pos (by omega), Nat.add_sub_cancel_left]

/-- The low `n` bits of a word, zero-extended. -/
theorem setWidth_lowBits (v : Word) (n : Nat) : (v.extractLsb' 0 n).setWidth 32 = BitVec.ofNat 32 (v.toNat % 2 ^ n) := by
  apply BitVec.eq_of_toNat_eq
  simp only [BitVec.toNat_setWidth, BitVec.extractLsb'_toNat, Nat.shiftRight_zero, BitVec.toNat_ofNat]

/-- R53, R63: a store to plain memory the host holds, and the read of one width at the same address. -/
theorem busWrite_then_busRead {s : State} {addr v : Word} {w : Width} (wf : s.mem.wf = true)
    (plain : ∀ j, j < w.bytes → plainAt s.cfg (addr.toNat + j))
    (free : ∀ j, j < w.bytes → ¬ inRanges s.held.reads (addr.toNat + j) ∧ ¬ inRanges s.held.writes (addr.toNat + j)) :
    ∃ t, handle (.host (.busWrite addr w v)) s = .next t ∧
      handle (.host (.busRead addr w)) t =
        .next { t with seen := s.seen ++ [BitVec.ofNat 32 (v.toNat % 2 ^ (8 * w.bytes))] } ∧
      (∀ j, j < w.bytes → t.mem.get (addr.toNat + j) = v.extractLsb' (8 * j) 8) ∧
      (∀ x, ¬ (addr.toNat ≤ x ∧ x < addr.toNat + w.bytes) → t.mem.get x = s.mem.get x) ∧
      { t with mem := s.mem } = s := by
  have plain := forall_address_of_offset plain
  have free := forall_address_of_offset (P := fun x => ¬ inRanges s.held.reads x ∧ ¬ inRanges s.held.writes x) free
  have top := plain_end_le plain
  have bytes : ∀ j, j < w.bytes → (s.mem.writeWidth addr.toNat v w).get (addr.toNat + j) = byteOf v j :=
    fun j => Memory.get_writeWidth_inside wf top v
  have value := readWidth_of_bytes (o := 0) fun j hj => (bytes j hj).trans (by rw [Nat.zero_add])
  refine ⟨{ s with mem := s.mem.writeWidth addr.toNat v w }, hostWrite_free plain v free, ?_, bytes,
    fun x => Memory.get_writeWidth_outside wf top v, rfl⟩
  have read := hostRead_free (s := { s with mem := s.mem.writeWidth addr.toNat v w }) plain fun x h1 h2 => (free x h1 h2).2
  rw [value, Nat.mul_zero, setWidth_lowBits] at read
  exact read

/-- Settles O54: `busWrite_then_busRead`, of which `mw` and `mr` are the 32-bit case. -/
theorem hostWordsReadBack : Obligations.HostWordsReadBack := by
  refine ⟨fun s addr v wf plain free => ?_, fun s addr v w wf plain free => busWrite_then_busRead wf plain free⟩
  obtain ⟨t, write, read, bytes, outside, frame⟩ := busWrite_then_busRead (w := .w32) (v := v) wf plain free
  have whole : BitVec.ofNat 32 (v.toNat % 2 ^ (8 * Width.w32.bytes)) = v := by
    rw [← setWidth_lowBits]
    simp [Width.bytes]
  rw [whole] at read
  exact ⟨t, write, read, bytes 0 (by decide), bytes 1 (by decide), bytes 2 (by decide), bytes 3 (by decide), outside, frame⟩

end Sys2Proof.Machine
end

section
/-! SUPPORT. Element turns (spec/20_memory.md R66) and the programs of spec/30_encoding.md R92: a host that writes the operand registers,
issues a command and waits for it. -/

namespace Sys2Proof.Machine

/-- Settles O58: an element turn is `Plan.elementDone`, which writes the word of an element still to be written. -/
theorem elementTurnWritesOneWord : Obligations.ElementTurnWritesOneWord := by
  intro s i k inv command go
  have turn : blockElement k s = .next ((planOf i s).elementDone k s) := by
    simp only [blockElement_command command, Plan.element, go]
  rw [turn]
  refine ⟨fun hk new => ?_, fun nothing => ?_⟩
  · have inside := (planOf_spaced inv.config go).inside k hk
    rw [Plan.elementDone, if_pos (Plan.mem_remaining.mpr ⟨hk, new⟩)]
    exact ⟨_, _, rfl, Memory.write32_wf inv.memory inside _, Memory.read32_write32_same inv.memory inside _,
      fun x outside => (Memory.get_write32 inv.memory inside _ x).trans (if_neg outside), fun j => mem_progInsert,
      progInsert_rising inv.rising⟩
  · have not_left : k ∉ (planOf i s).remaining s := fun left => by
      obtain ⟨hk, new⟩ := Plan.mem_remaining.mp left
      exact nothing.elim (fun out => out hk) new
    rw [elementDone_not_remaining not_left]

/-! ### Commands whose contract is kept (spec/70_reset_and_hazards.md R228) -/

theorem pixelPlan_go_iff_contract {F : Word → Word} {s : State} : (pixelPlan F s).verdict = .go ↔ pixelContract s := by
  rw [pixelPlan_go_iff, pixelTrap_none_iff]
  simp only [inRanges_pixelBuffer, pixelContract]
  constructor
  · rintro ⟨⟨aligned, count, top⟩, plain⟩
    rw [pixelCount_toNat count] at plain
    have n := pixelCount_toNat count
    exact ⟨aligned, count, by omega, fun x h1 h2 => plain x ⟨h1, h2⟩⟩
  · rintro ⟨aligned, count, top, plain⟩
    have n := pixelCount_toNat count
    exact ⟨⟨aligned, count, by simp only [pixelCount] at *; omega⟩, fun x ⟨h1, h2⟩ => plain x h1 (n ▸ h2)⟩

theorem haddVerdict_go_iff_contract {s : State} : haddVerdict s = .go ↔ histogramContract s := by
  rw [haddVerdict_go_iff, haddTrap_none_iff, palTrap_none_iff, partialOverlap_false_iff, partialOverlap_false_iff]
  simp only [inRanges_palRanges, inRanges_recordRanges]
  constructor
  · rintro ⟨⟨aligned, top⟩, -, palettes, ⟨out0, out1⟩, plain⟩
    refine ⟨aligned, top, palettes, ?_, plain⟩
    rintro h (rfl | rfl)
    · exact out0
    · exact out1
  · rintro ⟨aligned, top, palettes, out, plain⟩
    exact ⟨⟨aligned, top⟩, fun x hx => plain x (paletteByte_recordByte hx), palettes, ⟨out _ (.inl rfl), out _ (.inr rfl)⟩, plain⟩

/-! ### Words that decode (spec/30_encoding.md R86, R89) -/

theorem decodeWord_encode (i : Instr) : decodeWord (encode i) = .command i := by
  have table : Laws.TableWord.Statement i := by
    cases i with
    | subg => exact Laws.TableWord.subg
    | ctrans g2r g2b r2b => exact Laws.TableWord.ctrans g2r g2b r2b
    | hadd => exact Laws.TableWord.hadd
  have fits := (encode i).isLt
  rw [Laws.TableWord.Statement, decodeTableWord, Nat.mod_eq_of_lt fits, if_pos fits, BitVec.ofNat_toNat, BitVec.setWidth_eq] at table
  cases decoded : decodeWord (encode i) with
  | command j => simp_all
  | illegal r => simp_all

theorem decodeCommand_encode {cap : BitVec 3} {i : Instr} (implemented : i.wellFormed cap = true) :
    decodeCommand cap (encode i) = .command i := by
  simp only [decodeCommand, decodeWord_encode, implemented, if_true]

/-! ### Steps of a program (spec/30_encoding.md R92) -/

/-- R92, R110: while the block is busy a waiting host waits on, and the step is the block's turn. -/
theorem step_wait_busy {s : State} {rest : List Event} (waiting : s.events = .host .wait :: rest) (busy : s.status.busy = true) :
    step s = blockFinish s := by
  rw [step_cons waiting]
  simp only [handle, busy, if_true, ← waiting]

/-- R67 (b), R92: on an idle block `wait` ends, notes `STATUS` and gives the host its memory back. -/
theorem step_wait_idle {s : State} {rest : List Event} (config : configOk s.cfg = true) (waiting : s.events = .host .wait :: rest)
    (idle : s.status.busy = false) :
    step s = .next { s with events := rest, seen := s.seen ++ [s.status.word], held := Footprint.empty } := by
  rw [step_cons waiting]
  have read : hostAct .wait { s with events := rest } = _ := hostRead_status config
  simp only [handle, idle, Bool.false_eq_true, if_false, read, note, observeStatus]

/-- An operand register replaced as a whole (R23). -/
def State.withOperand (s : State) (r : OperandReg) (v : Word) : State :=
  match r with
  | .a0 => { s with a0 := v }
  | .a1 => { s with a1 := v }
  | .a2 => { s with a2 := v }
  | .n => { s with n := v }

/-- R23, R92: on an idle block `wr` replaces the register. -/
theorem step_wr_idle {s : State} (config : configOk s.cfg = true) (idle : s.status.busy = false) (r : OperandReg) (v : Word)
    (es : List Event) : step { s with events := .host (.wr r v) :: es } = .next { s.withOperand r v with events := es } := by
  rw [step_cons rfl, handle_wr (s := { s with events := es }) config]
  cases r <;> simp only [OperandReg.reg, writeReg, idle, Bool.false_eq_true, if_false] <;> rfl

theorem machineInv_withOperand {s : State} (inv : MachineInv s) (r : OperandReg) (v : Word) : MachineInv (s.withOperand r v) := by
  cases r <;> exact ⟨inv.config, inv.memory, inv.status, inv.cap, inv.flight, inv.rising⟩

/-- R36: an idle block has no progress set. -/
theorem prog_of_idle {s : State} (inv : MachineInv s) (idle : s.status.busy = false) : s.prog = none := by
  simpa [idle] using inv.flight

/-- R92, R101, R226: a waiting host sees the command in flight through to `DONE` in two steps and has its memory back. -/
theorem runSteps_wait {i : Instr} {s : State} {rest : List Event} (config : configOk s.cfg = true) (flight : inFlight i s)
    (go : (planOf i s).verdict = .go) (waiting : s.events = .host .wait :: rest) :
    runSteps 2 s = .next { (planOf i s).completed s with
      events := rest, seen := s.seen ++ [s.status.complete.word], held := Footprint.empty } := by
  have turn : step s = .next ((planOf i s).completed s) := by
    rw [step_wait_busy waiting flight.1, blockFinish_command flight.2, exec_eq_run, Plan.run_go go]
  rw [runSteps_succ turn, runSteps_one]
  exact step_wait_idle (s := (planOf i s).completed s) config waiting rfl

/-- The state after a command that completed was issued and waited for. -/
def commandDone (i : Instr) (s : State) (rest : List Event) : State :=
  { (planOf i s).completed s with
    cmd := encode i, status := { busy := false, done := true, fault := false, cause := 0#4 }, events := rest,
    seen := s.seen ++ [0x00000002#32], held := Footprint.empty }

/-- R30, R104: an issue does not change what a command is to do. -/
theorem planOf_writeCmd (i : Instr) (w : Word) (s : State) : planOf i (writeCmd w s) = planOf i s := by
  unfold writeCmd
  split
  · rfl
  · exact planOf_congr rfl rfl rfl rfl rfl fun _ => ⟨rfl, rfl⟩

section
variable {i : Instr} {s : State} (inv : MachineInv s) (idle : s.status.busy = false) (unfaulted : s.status.fault = false)
  (implemented : i.wellFormed s.cap = true) (go : (planOf i s).verdict = .go) (rest : List Event)
include inv idle unfaulted implemented go

theorem runSteps_wait_issued (waiting : s.events = .host .wait :: rest) :
    runSteps 2 (writeCmd (encode i) s) = .next (commandDone i s rest) := by
  have no_progress := prog_of_idle inv idle
  have cause := Status.legal_idle inv.status idle unfaulted
  have issued := writeCmd_issue (w := encode i) idle unfaulted
  have flight : inFlight i (writeCmd (encode i) s) := by
    rw [issued]
    exact ⟨rfl, decodeCommand_encode implemented⟩
  have go' : (planOf i (writeCmd (encode i) s)).verdict = .go := planOf_writeCmd i _ s ▸ go
  rw [runSteps_wait (rest := rest) (by rw [issued]; exact inv.config) flight go' (by rw [issued]; exact waiting),
    planOf_writeCmd, issued]
  simp only [commandDone, Plan.completed, Plan.remaining, performed, no_progress, Status.issue, Status.complete, unfaulted, cause]
  rfl

/-- R67, R92: the last two lines of a `.run` form on an idle, unfaulted block, in three steps. -/
theorem runSteps_issue_wait :
    runSteps 3 { s with events := .host (.command (encode i)) :: .host .wait :: rest } = .next (commandDone i s rest) := by
  have issue : step { s with events := .host (.command (encode i)) :: .host .wait :: rest } =
      .next (writeCmd (encode i) { s with events := .host .wait :: rest }) := by
    rw [step_cons rfl]
    exact handle_command (s := { s with events := .host .wait :: rest }) inv.config (encode i)
  have go' : (planOf i { s with events := .host .wait :: rest }).verdict = .go := (planOf_events i s _).symm ▸ go
  rw [runSteps_succ issue, runSteps_wait_issued (machineInv_events inv (.host .wait :: rest)) idle unfaulted implemented go' rest rfl]
  simp only [commandDone, planOf_events]
  rfl

end

/-! ### The `.run` forms -/

theorem commandDone_word (i : Instr) (s : State) (rest : List Event) : (commandDone i s rest).status.word = 0x00000002#32 := by
  have word : Status.word { busy := false, done := true, fault := false, cause := 0#4 } = 0x00000002#32 := by decide
  exact word

/-- The elements of a command run on an idle block that has written none. -/
theorem commandDone_read32 {i : Instr} {s : State} (inv : MachineInv s) (idle : s.status.busy = false)
    (go : (planOf i s).verdict = .go) (rest : List Event) {k : Nat} (hk : k ∈ (planOf i s).domain) :
    (commandDone i s rest).mem.read32 ((planOf i s).addr k) = (planOf i s).value s.mem k := by
  have word := Plan.completed_read32 (planOf_spaced inv.config go) inv.memory hk
  rwa [performed, prog_of_idle inv idle, if_neg (by simp)] at word

theorem commandDone_get_outside {i : Instr} {s : State} (inv : MachineInv s) (go : (planOf i s).verdict = .go) (rest : List Event)
    {x : Nat} (outside : ¬ writesByte (planOf i s) x) : (commandDone i s rest).mem.get x = s.mem.get x :=
  Plan.run_get_outside (Plan.run_go (s := s) go) inv.memory (fun _ => (planOf_spaced inv.config go).inside)
    fun k hk inside => outside ⟨k, hk, inside⟩

/-- R92, R101: `subg.run` and `ctrans.run`, for the pixel function `F` of the command. -/
theorem runSteps_pixelRun {i : Instr} {F : Word → Word} (plan : ∀ s, planOf i s = pixelPlan F s) {s : State} (inv : MachineInv s)
    (idle : s.status.busy = false) (unfaulted : s.status.fault = false) (implemented : i.wellFormed s.cap = true)
    {base n : Word} (contract : pixelContract { s with a0 := base, n := n }) (rest : List Event) :
    ∃ t, runSteps 5 { s with
        events := [.wr .a0 base, .wr .n n, .command (encode i), .wait].map Event.host ++ rest } = .next t ∧
      t.status.word = 0x00000002#32 ∧ t.cmd = encode i ∧ t.a0 = base ∧ t.n = n ∧ t.a1 = s.a1 ∧ t.a2 = s.a2 ∧
      t.events = rest ∧ t.seen = s.seen ++ [0x00000002#32] ∧ t.held = Footprint.empty ∧
      (∀ k, k < n.toNat → t.mem.read32 (base.toNat + 4 * k) = F (s.mem.read32 (base.toNat + 4 * k))) ∧
      (∀ x, ¬ (base.toNat ≤ x ∧ x < base.toNat + 4 * n.toNat) → t.mem.get x = s.mem.get x) := by
  have inv' := machineInv_withOperand (machineInv_withOperand inv .a0 base) .n n
  have go : (planOf i { s with a0 := base, n := n }).verdict = .go := plan _ ▸ pixelPlan_go_iff_contract.mpr contract
  have run : runSteps 5 { s with
      events := [.wr .a0 base, .wr .n n, .command (encode i), .wait].map Event.host ++ rest } =
      .next (commandDone i { s with a0 := base, n := n } rest) := by
    have a0_written := step_wr_idle inv.config idle .a0 base
    have n_written := step_wr_idle (s := s.withOperand .a0 base) inv.config idle .n n
    exact (runSteps_succ (a0_written _)).trans ((runSteps_succ (n_written _)).trans
      (runSteps_issue_wait inv' idle unfaulted implemented go rest))
  have count : (pixelCount { s with a0 := base, n := n }).toNat = n.toNat := pixelCount_toNat contract.2.1
  refine ⟨_, run, commandDone_word .., rfl, rfl, rfl, rfl, rfl, rfl, rfl, rfl, fun k hk => ?_, fun x outside => ?_⟩
  · have word := commandDone_read32 (s := { s with a0 := base, n := n }) inv' idle go rest (k := k)
    rw [plan] at word
    exact word (List.mem_range.mpr (count.symm ▸ hk))
  · refine commandDone_get_outside (s := { s with a0 := base, n := n }) inv' go rest fun written => outside ?_
    rwa [plan, writesByte_pixelPlan, inRanges_pixelBuffer, count] at written

/-- Settles O55: `runSteps_pixelRun` with the pixel function `SG`. -/
theorem subgRunTransformsTheBuffer : Obligations.SubgRunTransformsTheBuffer :=
  fun _ _ _ rest inv idle unfaulted implemented aligned count top plain =>
    runSteps_pixelRun (fun _ => rfl) inv idle unfaulted implemented ⟨aligned, count, top, plain⟩ rest

/-- Settles O56: `runSteps_pixelRun` with the pixel function `CT` of the multiplier set. -/
theorem ctransRunTransformsTheBuffer : Obligations.CtransRunTransformsTheBuffer :=
  fun _ _ _ _ _ _ rest inv idle unfaulted implemented aligned count top plain =>
    runSteps_pixelRun (fun _ => rfl) inv idle unfaulted implemented ⟨aligned, count, top, plain⟩ rest

/-- Settles O57: three operand writes, then `runSteps_issue_wait`; element `wordIndex e` of the plan is the counter `e`. -/
theorem haddRunAccumulatesTheRecords : Obligations.HaddRunAccumulatesTheRecords := by
  intro s a b out rest inv idle unfaulted implemented contract
  have inv' := machineInv_withOperand (machineInv_withOperand (machineInv_withOperand inv .a0 a) .a1 b) .a2 out
  have go : (planOf .hadd { s with a0 := a, a1 := b, a2 := out }).verdict = .go := haddVerdict_go_iff_contract.mpr contract
  have run : runSteps 6 { s with events := (haddRun a b out).map Event.host ++ rest } =
      .next (commandDone .hadd { s with a0 := a, a1 := b, a2 := out } rest) := by
    have a0_written := step_wr_idle inv.config idle .a0 a
    have a1_written := step_wr_idle (s := s.withOperand .a0 a) inv.config idle .a1 b
    have a2_written := step_wr_idle (s := (s.withOperand .a0 a).withOperand .a1 b) inv.config idle .a2 out
    exact (runSteps_succ (a0_written _)).trans ((runSteps_succ (a1_written _)).trans ((runSteps_succ (a2_written _)).trans
      (runSteps_issue_wait inv' idle unfaulted implemented go rest)))
  refine ⟨_, run, commandDone_word .., rfl, rfl, rfl, rfl, rfl, rfl, rfl, rfl, fun e he => ?_, fun x outside => ?_⟩
  · exact commandDone_read32 (s := { s with a0 := a, a1 := b, a2 := out }) inv' idle go rest (wordIndex_mem_haddDomain he)
  · refine commandDone_get_outside (s := { s with a0 := a, a1 := b, a2 := out }) inv' go rest fun ⟨k, hk, inside⟩ => ?_
    obtain ⟨e, he, rfl⟩ := List.mem_map.mp hk
    exact outside e he inside

end Sys2Proof.Machine
end

section
/-! SUPPORT. The decoder answers a command on the encoding of that command only (spec/30_encoding.md R82 to R86, R89), and the
assembler spells the same words (R91). -/

namespace Sys2Proof.Machine

/-! ### Fields of a command word (spec/30_encoding.md R81 to R84) -/

/-- R83, R84: a word of format M is its multiplier fields above its opcode. -/
theorem encode_fields {w : Word} (opc : opcOf w = 0x02#8) : encode (.ctrans (g2rOf w) (g2bOf w) (r2bOf w)) = w := by
  have bytes : r2bOf w ++ g2bOf w ++ g2rOf w ++ opcOf w = w := word_of_bytes w
  rwa [opc] at bytes

theorem opcOf_encode_ctrans (g2r g2b r2b : Byte) : opcOf (encode (.ctrans g2r g2b r2b)) = 0x02#8 :=
  (byteOf_append r2b g2b g2r 0x02#8).1

/-- R82: a word of format Z is its opcode below a zero `ARG`. -/
theorem zeroArg_append_eq_iff {w : Word} {v : Byte} : 0#24 ++ v = w ↔ opcOf w = v ∧ w.extractLsb' 8 24 = 0#24 := by
  constructor
  · rintro rfl
    exact ⟨BitVec.extractLsb'_append_eq_right, BitVec.extractLsb'_append_eq_left⟩
  · rintro ⟨rfl, arg⟩
    rw [← arg]
    exact BitVec.extractLsb'_append_extractLsb'

theorem encode_subg_eq_iff {w : Word} : encode .subg = w ↔ opcOf w = 0x01#8 ∧ w.extractLsb' 8 24 = 0#24 := zeroArg_append_eq_iff

theorem encode_hadd_eq_iff {w : Word} : encode .hadd = w ↔ opcOf w = 0x03#8 ∧ w.extractLsb' 8 24 = 0#24 := zeroArg_append_eq_iff

/-- R83: the words of `CTRANS` are those with its opcode. -/
theorem exists_encode_ctrans_eq_iff {w : Word} :
    (∃ g2r g2b r2b, encode (.ctrans g2r g2b r2b) = w) ↔ opcOf w = 0x02#8 := by
  constructor
  · rintro ⟨g2r, g2b, r2b, rfl⟩
    exact opcOf_encode_ctrans g2r g2b r2b
  · exact fun opc => ⟨_, _, _, encode_fields opc⟩

/-- R85: the opcode by mask and match. -/
theorem and_opcMask_eq_iff {w : Word} {v : Byte} : w &&& 0x000000FF#32 = v.setWidth 32 ↔ opcOf w = v := by
  have masked : (w &&& 0x000000FF#32).toNat = (opcOf w).toNat := by
    simp [opcOf, Nat.and_two_pow_sub_one_eq_mod w.toNat 8]
  rw [← BitVec.toNat_inj, masked, BitVec.toNat_setWidth_of_le (by decide), BitVec.toNat_inj]

/-! ### The decoder (spec/30_encoding.md R86, R88, R89) -/

theorem encode_of_decodeWord {w : Word} {i : Instr} (decoded : decodeWord w = .command i) : encode i = w := by
  simp only [decodeWord] at decoded
  split at decoded
  next subg =>
    cases decoded
    exact subg.symm
  next =>
    split at decoded
    next opc =>
      cases decoded
      exact encode_fields opc
    next =>
      split at decoded
      next hadd =>
        cases decoded
        exact hadd.symm
      next => split at decoded <;> cases decoded

theorem decodeWord_command_iff {w : Word} {i : Instr} : decodeWord w = .command i ↔ encode i = w :=
  ⟨encode_of_decodeWord, fun encoded => encoded ▸ decodeWord_encode i⟩

/-- R88: the words that are ILLEGAL on every block are those that encode no command. -/
theorem exists_decodeWord_illegal_iff {w : Word} : (∃ r, decodeWord w = .illegal r) ↔ ∀ i, encode i ≠ w := by
  simp only [ne_eq, ← decodeWord_command_iff]
  cases decodeWord w <;> simp

/-- R88: those with a reserved `OPC`, and those of format Z with a non-zero `ARG`. -/
theorem exists_decodeWord_illegal_iff_fields {w : Word} : (∃ r, decodeWord w = .illegal r) ↔
    ((opcOf w ≠ 0x01#8 ∧ opcOf w ≠ 0x02#8 ∧ opcOf w ≠ 0x03#8) ∨
      ((opcOf w = 0x01#8 ∨ opcOf w = 0x03#8) ∧ w.extractLsb' 8 24 ≠ 0#24)) := by
  have by_command : (∀ i, encode i ≠ w) ↔
      encode .subg ≠ w ∧ ¬ (∃ g2r g2b r2b, encode (.ctrans g2r g2b r2b) = w) ∧ encode .hadd ≠ w := by
    constructor
    · exact fun no_command => ⟨no_command .subg, fun ⟨_, _, _, encoded⟩ => no_command (.ctrans _ _ _) encoded, no_command .hadd⟩
    · rintro ⟨subg, ctrans, hadd⟩ i encoded
      cases i with
      | subg => exact subg encoded
      | ctrans g2r g2b r2b => exact ctrans ⟨g2r, g2b, r2b, encoded⟩
      | hadd => exact hadd encoded
  rw [exists_decodeWord_illegal_iff, by_command, exists_encode_ctrans_eq_iff, ne_eq, ne_eq, encode_subg_eq_iff, encode_hadd_eq_iff]
  by_cases subg : opcOf w = 0x01#8
  · simp [subg]
  · by_cases hadd : opcOf w = 0x03#8
    · simp [hadd]
    · simp [subg, hadd]

/-- R89: the decoder of a block answers a command that `decodeWord` answers and the block implements. -/
theorem decodeCommand_command_iff {cap : BitVec 3} {w : Word} {i : Instr} :
    decodeCommand cap w = .command i ↔ decodeWord w = .command i ∧ i.wellFormed cap = true := by
  unfold decodeCommand
  cases decodeWord w with
  | illegal r => simp
  | command j =>
    by_cases implemented : j.wellFormed cap = true
    · simp only [implemented, if_true, Decoded.command.injEq]
      exact ⟨fun same => ⟨same, same ▸ implemented⟩, And.left⟩
    · simp only [implemented, if_false, reduceCtorEq, Decoded.command.injEq, false_iff]
      exact fun ⟨same, implemented'⟩ => implemented (same ▸ implemented')

theorem decodeCommand_not_implemented {cap : BitVec 3} {w : Word} {i : Instr} (decoded : decodeWord w = .command i)
    (cleared : i.wellFormed cap = false) : decodeCommand cap w = .illegal .notImplemented := by
  simp [decodeCommand, decoded, cleared]

theorem decodeCommand_illegal {w : Word} {r : Illegal} (illegal : decodeWord w = .illegal r) (cap : BitVec 3) :
    decodeCommand cap w = .illegal r := by
  simp only [decodeCommand, illegal]

/-- R89: with `CAP = 0x7` every command is implemented. -/
theorem wellFormed_full (i : Instr) : i.wellFormed 0x7#3 = true := by
  cases i <;> simp [Instr.wellFormed, Instr.capBit]

theorem decodeCommand_full (w : Word) : decodeCommand 0x7#3 w = decodeWord w := by
  cases decoded : decodeWord w with
  | command i => exact decodeCommand_command_iff.mpr ⟨decoded, wellFormed_full i⟩
  | illegal r => exact decodeCommand_illegal decoded _

/-- Settles O2: the decoder answers implemented commands only, and each on its encoding only. -/
theorem decodeInvertsEncode : Obligations.DecodeInvertsEncode := fun cap w i => by
  rw [decodeCommand_command_iff, decodeWord_command_iff, and_comm]

/-- Settles O3: `encode` of each command by its fields, and `and_opcMask_eq_iff` for the mask of format M. -/
theorem opcodeMapRowsByMaskAndMatch : Obligations.OpcodeMapRowsByMaskAndMatch := by
  intro w
  have whole : w &&& 0xFFFFFFFF#32 = w := BitVec.and_allOnes
  have format_m : w &&& 0x000000FF#32 = 0x00000002#32 ↔ opcOf w = 0x02#8 := and_opcMask_eq_iff (v := 0x02#8)
  rw [whole, format_m]
  simp only [decodeWord_command_iff]
  refine ⟨eq_comm, exists_encode_ctrans_eq_iff, encode_fields, eq_comm, fun subg ctrans hadd => ?_, .reservedOpcode, by decide⟩
  exact exists_decodeWord_illegal_iff_fields.mpr (.inl ⟨subg, ctrans, hadd⟩)

/-- Settles O5: the issue takes any word, and the block's turn on an illegal one is `raiseFault` with cause 1. -/
theorem illegalWordIsIssuedThenFaults : Obligations.IllegalWordIsIssuedThenFaults := by
  refine ⟨fun w => exists_decodeWord_illegal_iff_fields, fun s w r illegal idle unfaulted => ?_⟩
  rw [writeCmd_issue idle unfaulted]
  exact ⟨rfl, rfl, blockFinish_illegal (decodeCommand_illegal illegal s.cap)⟩

/-- Settles O1: the decoder evaluated on each word. -/
theorem sampleWordsDecodeAsListed : Obligations.SampleWordsDecodeAsListed := by
  unfold Obligations.SampleWordsDecodeAsListed
  decide

/-- Settles O4: the bit of the statement is the one `Instr.wellFormed` looks at. -/
theorem clearedCapabilityBitMakesACommandIllegal : Obligations.ClearedCapabilityBitMakesACommandIllegal := by
  refine ⟨fun cap w i decoded => ⟨fun cleared => ?_, fun set => ?_⟩, decodeCommand_full⟩
  · exact decodeCommand_not_implemented decoded cleared
  · exact decodeCommand_command_iff.mpr ⟨decoded, set⟩

/-! ### The assembler (spec/30_encoding.md R91) -/

theorem toNat_append_byte {n : Nat} (x : BitVec n) (v : Byte) : (x ++ v).toNat = x.toNat * 2 ^ 8 + v.toNat := by
  rw [BitVec.toNat_append, ← Nat.shiftLeft_add_eq_or_of_lt v.isLt, Nat.shiftLeft_eq]

theorem toNat_encode_ctrans (g2r g2b r2b : Byte) : (encode (.ctrans g2r g2b r2b)).toNat =
    r2b.toNat * 2 ^ 24 + g2b.toNat * 2 ^ 16 + g2r.toNat * 2 ^ 8 + 0x02 := by
  rw [encode, toNat_append_byte, toNat_append_byte, toNat_append_byte]
  have opc : (0x02#8).toNat = 2 := rfl
  omega

/-- The field of an operand is its value modulo 256. -/
theorem toNat_asmField (x : AsmOperand) : ((asmField x).toNat : Int) = x.value % 256 := by
  have nonneg := Int.emod_nonneg x.value (b := 256) (by decide)
  rw [asmField, BitVec.toNat_ofInt]
  exact Int.toNat_of_nonneg nonneg

theorem assemble_ctrans (x y z : AsmOperand) : assemble (.ctrans x y z) =
    if x.wellFormed = true ∧ y.wellFormed = true ∧ z.wellFormed = true then
      some (encode (.ctrans (asmField x) (asmField y) (asmField z))) else none := by
  simp only [assemble, Bool.and_eq_true, and_assoc]

/-- Settles O6: operands in range assemble to the encoding of their fields, whose number is `toNat_encode_ctrans`. -/
theorem assembledWordsFollowTheFormula : Obligations.AssembledWordsFollowTheFormula := by
  refine ⟨by decide, by decide, fun x y z hx hy hz => ?_, fun x y z out_of_range => ?_⟩
  · refine ⟨encode (.ctrans (asmField x) (asmField y) (asmField z)), ?_, ?_, decodeWord_encode _⟩
    · rw [assemble_ctrans, if_pos ⟨hx, hy, hz⟩]
    · rw [toNat_encode_ctrans, ← toNat_asmField x, ← toNat_asmField y, ← toNat_asmField z]
      push_cast
      rfl
  · rw [assemble_ctrans, if_neg out_of_range]

end Sys2Proof.Machine
end

section
/-! SUPPORT. The turn of a busy block (spec/40_common_execution.md R100, R110), and the checks that fault, in their order (R101, R102;
spec/43_histogram_accumulate.md R162, R168). -/

namespace Sys2Proof.Machine

/-! ### The turn that runs the command -/

theorem handle_finish_busy {s : State} (busy : s.status.busy = true) : handle .finish s = blockFinish s := by
  simp only [handle, busy, if_true]

/-- Settles O7: each of the three events is the block's turn, which runs the command that `CMD` holds. -/
theorem stepRunsTheCommandInFlight : Obligations.StepRunsTheCommandInFlight := by
  intro s i rest ⟨busy, command⟩
  refine ⟨fun none_left => ?_, fun finish_first => ?_, fun waiting => ?_⟩
  · rw [step_nil_busy none_left busy, blockFinish_command command]
  · rw [step_cons finish_first, handle_finish_busy (s := { s with events := rest }) busy,
      blockFinish_command (s := { s with events := rest }) command]
  · rw [step_wait_busy waiting busy, blockFinish_command command]

/-! ### The faults of the pixel commands -/

theorem exec_of_trap {i : Instr} {s : State} {c : Cause} (trap : (planOf i s).verdict = .trap c) :
    exec i s = .next (raiseFault c s) := (exec_eq_run i s).trans (Plan.run_trap trap)

theorem exec_of_pixelTrap {i : Instr} (pixel : i = .subg ∨ ∃ g2r g2b r2b, i = .ctrans g2r g2b r2b) {s : State} {c : Cause}
    (failed : pixelTrap s = some c) : exec i s = .next (raiseFault c s) := by
  obtain ⟨F, plan⟩ := planOf_pixel pixel s
  exact exec_of_trap (plan ▸ pixelPlan_trap_iff.mpr failed)

section
variable {s : State}

theorem pixelTrap_misaligned (misaligned : s.a0.toNat % 4 ≠ 0) : pixelTrap s = some .misaligned := if_pos misaligned

theorem pixelTrap_negCount (aligned : s.a0.toNat % 4 = 0) (negative : s.n.msb = true) : pixelTrap s = some .negCount := by
  have count : pixelCount s < 0 := BitVec.toInt_neg_of_msb_true negative
  rw [pixelTrap, if_neg (not_not.mpr aligned), if_pos count]

theorem pixelTrap_addrRange (aligned : s.a0.toNat % 4 = 0) (nonneg : s.n.msb = false)
    (past_top : 2 ^ 32 < s.a0.toNat + 4 * s.n.toNat) : pixelTrap s = some .addrRange := by
  have count : pixelCount s = s.n.toNat := BitVec.toInt_eq_toNat_of_msb nonneg
  rw [pixelTrap, if_neg (not_not.mpr aligned), if_neg (by omega), if_pos (by omega)]

end

/-- Settles O19: the register checks of a pixel command in their order; the first that fails is the fault it takes. -/
theorem pixelCommandsFaultInOrder : Obligations.PixelCommandsFaultInOrder := fun _ _ pixel =>
  ⟨fun misaligned => exec_of_pixelTrap pixel (pixelTrap_misaligned misaligned),
    fun aligned negative => exec_of_pixelTrap pixel (pixelTrap_negCount aligned negative),
    fun aligned nonneg past_top => exec_of_pixelTrap pixel (pixelTrap_addrRange aligned nonneg past_top)⟩

/-! ### The faults of `HADD` -/

theorem exec_hadd_of_haddTrap {s : State} {c : Cause} (failed : haddTrap s = some c) : exec .hadd s = .next (raiseFault c s) :=
  exec_of_trap (haddVerdict_trap_iff.mpr (.inl failed))

/-- Log entry 9: the palette words are looked at once they are known to be plain memory. -/
theorem exec_hadd_of_palTrap {s : State} {c : Cause} (registers : haddTrap s = none)
    (plain : ∀ x, paletteByte s x → plainAt s.cfg x) (failed : palTrap s = some c) : exec .hadd s = .next (raiseFault c s) :=
  exec_of_trap (haddVerdict_trap_iff.mpr (.inr ⟨registers, fun x hx => plain x (inRanges_palRanges.mp hx), failed⟩))

section
variable {s : State}

theorem haddTrap_misaligned (misaligned : s.a0.toNat % 4 ≠ 0 ∨ s.a1.toNat % 4 ≠ 0 ∨ s.a2.toNat % 4 ≠ 0) :
    haddTrap s = some .misaligned := if_pos misaligned

theorem haddTrap_addrRange (aligned : s.a0.toNat % 4 = 0 ∧ s.a1.toNat % 4 = 0 ∧ s.a2.toNat % 4 = 0)
    (past_top : 2 ^ 32 < s.a0.toNat + 4 * hwords s.cfg ∨ 2 ^ 32 < s.a1.toNat + 4 * hwords s.cfg ∨
      2 ^ 32 < s.a2.toNat + 4 * hwords s.cfg) : haddTrap s = some .addrRange := by
  rw [haddTrap, if_neg (by omega), if_pos past_top]

theorem palTrap_badPal (above : s.cfg.pmax < (palA s).toNat ∨ s.cfg.pmax < (palB s).toNat) : palTrap s = some .badPal :=
  if_pos above

theorem palTrap_palMismatch (legalA : (palA s).toNat ≤ s.cfg.pmax) (legalB : (palB s).toNat ≤ s.cfg.pmax)
    (differ : palA s ≠ palB s) : palTrap s = some .palMismatch := by
  rw [palTrap, if_neg (by omega), if_pos differ]

end

/-- Settles O20: the register checks of `HADD` in their order, then, on palette words in plain memory, the palette checks. -/
theorem histogramAddFaultsInOrder : Obligations.HistogramAddFaultsInOrder := by
  intro s
  refine ⟨fun misaligned => exec_hadd_of_haddTrap (haddTrap_misaligned misaligned), fun aligned0 aligned1 aligned2 past_top => ?_,
    fun aligned0 aligned1 aligned2 top0 top1 top2 plain0 plain1 => ?_⟩
  · exact exec_hadd_of_haddTrap (haddTrap_addrRange ⟨aligned0, aligned1, aligned2⟩ past_top)
  · have registers : haddTrap s = none := haddTrap_none_iff.mpr ⟨⟨aligned0, aligned1, aligned2⟩, top0, top1, top2⟩
    have plain : ∀ x, paletteByte s x → plainAt s.cfg x := by
      rintro x ⟨h, rfl | rfl, h1, h2⟩
      · exact plain0 x h1 h2
      · exact plain1 x h1 h2
    exact ⟨fun above => exec_hadd_of_palTrap registers plain (palTrap_badPal above),
      fun legalA legalB differ => exec_hadd_of_palTrap registers plain (palTrap_palMismatch legalA legalB differ)⟩

end Sys2Proof.Machine
end

section
/-! SUPPORT. Completion of a command whose contract is kept (spec/40_common_execution.md R101, spec/10_state.md R32): the answer, the
results and the frame. -/

namespace Sys2Proof.Machine

/-- R100, R101: past its checks a plan answers a next state; its elements hold their results, all other bytes are as before. -/
theorem Plan.run_completes {p : Plan} {s : State} (go : p.verdict = .go) (spaced : p.Spaced p.domain) (w : s.mem.wf = true) :
    ∃ m : Memory, p.run s = .next { s with status := { s.status with busy := false, done := true }, mem := m, prog := none } ∧
      m.wf = true ∧
      (∀ k ∈ p.domain, m.read32 (p.addr k) = if k ∈ performed s then s.mem.read32 (p.addr k) else p.value s.mem k) ∧
      (∀ x, ¬ writesByte p x → m.get x = s.mem.get x) := by
  have run := Plan.run_go go (s := s)
  refine ⟨(p.completed s).mem, run, ?_, fun k hk => Plan.completed_read32 spaced w hk, fun x outside => ?_⟩
  · exact Plan.writeAll_wf (fun k hk => spaced.inside k (Plan.mem_remaining.mp hk).1) w
  · exact Plan.run_get_outside run w (fun _ => spaced.inside) fun k hk inside => outside ⟨k, hk, inside⟩

/-- R101: `pixel_command(F)` on a buffer that keeps the contract of R228. -/
theorem exec_pixel_completes {i : Instr} {F : Word → Word} {s : State} (plan : planOf i s = pixelPlan F s) (w : s.mem.wf = true)
    (contract : pixelContract s) :
    ∃ m : Memory, exec i s = .next { s with status := { s.status with busy := false, done := true }, mem := m, prog := none } ∧
      m.wf = true ∧
      (∀ k, k < s.n.toNat → m.read32 (s.a0.toNat + 4 * k) =
        if k ∈ performed s then s.mem.read32 (s.a0.toNat + 4 * k) else F (s.mem.read32 (s.a0.toNat + 4 * k))) ∧
      (∀ x, ¬ (s.a0.toNat ≤ x ∧ x < s.a0.toNat + 4 * s.n.toNat) → m.get x = s.mem.get x) := by
  have go : (pixelPlan F s).verdict = .go := pixelPlan_go_iff_contract.mpr contract
  have registers := (pixelPlan_go_iff.mp go).1
  obtain ⟨m, run, wf, words, outside⟩ := Plan.run_completes go (pixelPlan_spaced registers) w
  refine ⟨m, (exec_eq_run i s).trans (plan ▸ run), wf, fun k hk => ?_, fun x out => ?_⟩
  · exact words k (List.mem_range.mpr (pixelCount_of_checked registers ▸ hk))
  · exact outside x fun written => out ((inRanges_checkedBuffer registers).mp (writesByte_pixelPlan.mp written))

/-- Settles O29: `exec_pixel_completes` with the pixel function `SG`. -/
theorem subtractGreenCompletes : Obligations.SubtractGreenCompletes := fun _ w aligned count top plain =>
  exec_pixel_completes (F := sg) rfl w ⟨aligned, count, top, plain⟩

/-- Settles O30: `exec_pixel_completes` with the pixel function `CT` of the multiplier set. -/
theorem colorTransformCompletes : Obligations.ColorTransformCompletes := fun _ _ _ _ w aligned count top plain =>
  exec_pixel_completes rfl w ⟨aligned, count, top, plain⟩

/-- Settles O31: `Plan.run_completes`; element `wordIndex e` of the plan is the counter `e`. -/
theorem histogramAddCompletes : Obligations.HistogramAddCompletes := by
  intro s config w aligned0 aligned1 aligned2 top0 top1 top2 legal equal out0 out1 plain0 plain1 plain2
  have contract : histogramContract s := by
    refine ⟨⟨aligned0, aligned1, aligned2⟩, ⟨top0, top1, top2⟩, ⟨legal, equal⟩, ?_, ?_⟩
    · rintro h (rfl | rfl)
      · exact out0
      · exact out1
    · rintro x ⟨h, rfl | rfl | rfl, h1, h2⟩
      · exact plain0 x h1 h2
      · exact plain1 x h1 h2
      · exact plain2 x h1 h2
  have go : (planOf .hadd s).verdict = .go := haddVerdict_go_iff_contract.mpr contract
  obtain ⟨m, run, wf, words, outside⟩ := Plan.run_completes go (planOf_spaced config go) w
  refine ⟨m, run, wf, fun e he => words _ (wordIndex_mem_haddDomain he), fun x apart => outside x ?_⟩
  rintro ⟨k, hk, inside⟩
  obtain ⟨e, he, rfl⟩ := List.mem_map.mp hk
  exact apart e he inside

end Sys2Proof.Machine
end

section
/-! SUPPORT. The color arithmetic (spec/41_subtract_green.md R121, R122; spec/42_color_transform.md R136 to R144): the lanes of the vector
datapath hold the channels of the per-pixel functions. -/

namespace Sys2Proof.Machine

/-! ### Channels and lanes of a word (spec/00_scope.md R9 to R11) -/

@[simp] theorem alpha_and (x y : Word) : alpha (x &&& y) = alpha x &&& alpha y := BitVec.extractLsb'_and
@[simp] theorem red_and (x y : Word) : red (x &&& y) = red x &&& red y := BitVec.extractLsb'_and
@[simp] theorem green_and (x y : Word) : green (x &&& y) = green x &&& green y := BitVec.extractLsb'_and
@[simp] theorem blue_and (x y : Word) : blue (x &&& y) = blue x &&& blue y := BitVec.extractLsb'_and

@[simp] theorem lane16_append_one (x y : Half) : lane16 (x ++ y) 1 = x := BitVec.extractLsb'_append_eq_left
@[simp] theorem lane16_append_zero (x y : Half) : lane16 (x ++ y) 0 = y := BitVec.extractLsb'_append_eq_right

/-- Red is the low byte of the upper lane, blue that of the lower one. -/
@[simp] theorem red_append (x y : Half) : red (x ++ y) = x.extractLsb' 0 8 := BitVec.extractLsb'_append_eq_of_le (by decide)
@[simp] theorem blue_append (x y : Half) : blue (x ++ y) = y.extractLsb' 0 8 := BitVec.extractLsb'_append_eq_of_add_le (by decide)

theorem lane16_one (p : Word) : lane16 p 1 = alpha p ++ red p := (byteOf_append_extract p (j := 3) (o := 2) (n := 8) rfl).symm

theorem lane16_zero (p : Word) : lane16 p 0 = green p ++ blue p := (byteOf_append_extract p (j := 1) (o := 0) (n := 8) rfl).symm

/-- A shift by one byte moves the low byte of a lane up. -/
theorem shiftLeft_byte (x : Half) : x <<< 8 = x.extractLsb' 0 8 ++ 0x00#8 := BitVec.shiftLeft_eq_concat_of_lt (by decide)

/-! ### `SG` (R121, R122) -/

theorem greenSpread_eq_pix (p : Word) : greenSpread p = pix 0x00#8 (green p) 0x00#8 (green p) := rfl

/-- R122: the byte lanes form `SG`. -/
theorem sub8x4_greenSpread (p : Word) : sub8x4 p (greenSpread p) = sg p := by
  apply pixel_ext <;> simp [sg, greenSpread_eq_pix]

/-! ### The multiply-high (R136, R139, R140) -/

/-- R136: the multiplier lane is the multiplier in the high byte, shifted down by 5. -/
theorem m16_eq_sshiftRight (m : Byte) : m16 m = (m ++ 0x00#8).sshiftRight 5 := by
  have low : (m.signExtend 16).extractLsb' 0 8 = m := by
    rw [BitVec.signExtend_eq_append_of_le (by decide)]
    exact BitVec.extractLsb'_append_eq_right
  rw [m16, shiftLeft_byte, low]

theorem toInt_highByte (c : Byte) : (c ++ 0x00#8).toInt = 256 * c.toInt := BitVec.toInt_append_zero

theorem toInt_m16 (m : Byte) : (m16 m).toInt = 8 * m.toInt := by
  rw [m16_eq_sshiftRight, BitVec.toInt_sshiftRight, toInt_highByte, Int.shiftRight_eq_div_pow]
  omega

/-- R139, R140, R144: on a channel in the high byte of its lane the multiply-high gives the delta. -/
theorem mulhi16_m16 (c m : Byte) : mulhi16 (c ++ 0x00#8) (m16 m) = BitVec.ofInt 16 (delta m c) := by
  have product : (c ++ 0x00#8).toInt * (m16 m).toInt = 2048 * (m.toInt * c.toInt) := by
    rw [toInt_highByte, toInt_m16]
    ring
  have quotient : shiftFloor (2048 * (m.toInt * c.toInt)) 16 = delta m c := by
    simp only [shiftFloor, delta]
    omega
  rw [mulhi16, product, quotient]

/-- The low byte of a lane keeps a number modulo 256. -/
theorem lowByte_ofInt (d : Int) : (BitVec.ofInt 16 d).extractLsb' 0 8 = BitVec.ofInt 8 d := by
  apply BitVec.eq_of_toNat_eq
  simp only [BitVec.extractLsb'_toNat, BitVec.toNat_ofInt, Nat.shiftRight_zero]
  omega

/-! ### The stages of `CT` (R138 to R142) -/

/-- R138: green in the high byte of both lanes. -/
theorem lane16_ctC (p : Word) : lane16 (ctC p) 1 = green p ++ 0x00#8 ∧ lane16 (ctC p) 0 = green p ++ 0x00#8 := by
  have mask : green 0xFF00FF00#32 = BitVec.allOnes 8 ∧ blue 0xFF00FF00#32 = 0x00#8 := by decide
  have kept : lane16 (ctAp p) 0 = green p ++ 0x00#8 := by
    rw [lane16_zero, ctAp, green_and, blue_and, mask.1, mask.2, BitVec.and_allOnes, BitVec.and_zero]
  rw [ctC, lane16_append_one, lane16_append_zero, and_self, kept]

/-- R139: the green deltas of red and blue. -/
theorem ctD_eq (g2r g2b : Byte) (p : Word) :
    ctD g2r g2b p = BitVec.ofInt 16 (delta g2r (green p)) ++ BitVec.ofInt 16 (delta g2b (green p)) := by
  obtain ⟨upper, lower⟩ := lane16_ctC p
  rw [ctD, mulhi16x2, upper, lower, mrb, lane16_append_one, lane16_append_zero, mulhi16_m16, mulhi16_m16]

/-- R140: the red delta of blue, in the lower lane. -/
theorem ctGs_eq (r2b : Byte) (p : Word) : ctGs r2b p = 0x0000#16 ++ BitVec.ofInt 16 (delta r2b (red p)) := by
  have lane : lane16 p 1 <<< 8 = red p ++ 0x00#8 := by
    rw [shiftLeft_byte, lane16_one]
    exact congrArg (· ++ 0x00#8) BitVec.extractLsb'_append_eq_right
  have shift (x : Word) : x >>> 16 = 0x0000#16 ++ lane16 x 1 := BitVec.ushiftRight_eq_extractLsb'_of_lt (by decide)
  rw [ctGs, shift, ctF, ctE, shl16x2, mb2, mulhi16x2]
  simp only [lane16_append_one, lane, mulhi16_m16]

/-- R142: the mask lets red and blue through and clears alpha and green. -/
theorem channels_ctI (g2r g2b r2b : Byte) (p : Word) :
    alpha (ctI g2r g2b r2b p) = 0x00#8 ∧ red (ctI g2r g2b r2b p) = red (ctH g2r g2b r2b p) ∧
      green (ctI g2r g2b r2b p) = 0x00#8 ∧ blue (ctI g2r g2b r2b p) = blue (ctH g2r g2b r2b p) := by
  have mask : alpha 0x00FF00FF#32 = 0x00#8 ∧ red 0x00FF00FF#32 = BitVec.allOnes 8 ∧ green 0x00FF00FF#32 = 0x00#8 ∧
      blue 0x00FF00FF#32 = BitVec.allOnes 8 := by decide
  obtain ⟨mask_alpha, mask_red, mask_green, mask_blue⟩ := mask
  simp only [ctI, alpha_and, red_and, green_and, blue_and, mask_alpha, mask_red, mask_green, mask_blue, BitVec.and_zero,
    BitVec.and_allOnes, and_self]

/-- R141: what is subtracted from red. -/
theorem red_ctH (g2r g2b r2b : Byte) (p : Word) : red (ctH g2r g2b r2b p) = BitVec.ofInt 8 (delta g2r (green p)) := by
  rw [ctH, red_add8x4, ctGs_eq, ctD_eq, red_append, red_append, lowByte_ofInt]
  exact BitVec.zero_add _

/-- R141: what is subtracted from blue. -/
theorem blue_ctH (g2r g2b r2b : Byte) (p : Word) :
    blue (ctH g2r g2b r2b p) = BitVec.ofInt 8 (delta r2b (red p)) + BitVec.ofInt 8 (delta g2b (green p)) := by
  rw [ctH, blue_add8x4, ctGs_eq, ctD_eq, blue_append, blue_append, lowByte_ofInt, lowByte_ofInt]

/-! ### The closed form (R144) -/

theorem ofInt_toNat_sub (c : Byte) (d : Int) : BitVec.ofInt 8 (c.toNat - d) = c - BitVec.ofInt 8 d := by
  rw [Int.sub_eq_add_neg, BitVec.ofInt_add, BitVec.ofInt_natCast, BitVec.ofNat_toNat, BitVec.setWidth_eq, BitVec.ofInt_neg,
    BitVec.sub_eq_add_neg]

/-- R144: the stages give the closed form, channel by channel. -/
theorem ct_eq_ctClosed (g2r g2b r2b : Byte) (p : Word) : ct g2r g2b r2b p = ctClosed g2r g2b r2b p := by
  obtain ⟨in_alpha, in_red, in_green, in_blue⟩ := channels_ctI g2r g2b r2b p
  apply pixel_ext
  · rw [ct, alpha_sub8x4, in_alpha, ctClosed, alpha_pix, BitVec.sub_zero]
  · rw [ct, red_sub8x4, in_red, red_ctH, ctClosed, red_pix, ofInt_toNat_sub]
  · rw [ct, green_sub8x4, in_green, ctClosed, green_pix, BitVec.sub_zero]
  · rw [ct, blue_sub8x4, in_blue, blue_ctH, ctClosed, blue_pix, Int.sub_sub, ofInt_toNat_sub, BitVec.ofInt_add, BitVec.add_comm]

end Sys2Proof.Machine
end

section
/-! SUPPORT. The vector path of R105 (spec/40_common_execution.md R105 to R108): whole groups and then the tail leave the memory that the
pixels written one by one leave. -/

namespace Sys2Proof.Machine

/-! ### Consecutive words -/

theorem writeWords_wf {m : Memory} (w : m.wf = true) {a : Nat} {vs : List Word} (fits : a + 4 * vs.length ≤ addressSpace) :
    (writeWords m a vs).wf = true := by
  induction vs generalizing m a with
  | nil => exact w
  | cons v vs ih =>
    rw [List.length_cons] at fits
    exact ih (Memory.write32_wf w (by omega) v) (by omega)

theorem writeWords_get_outside {m : Memory} (w : m.wf = true) {a : Nat} {vs : List Word} (fits : a + 4 * vs.length ≤ addressSpace)
    {x : Nat} (outside : ¬ (a ≤ x ∧ x < a + 4 * vs.length)) : (writeWords m a vs).get x = m.get x := by
  induction vs generalizing m a with
  | nil => rfl
  | cons v vs ih =>
    rw [List.length_cons] at fits outside
    rw [writeWords, ih (Memory.write32_wf w (by omega) v) (by omega) (by omega), Memory.get_write32 w (by omega),
      if_neg (by omega)]

theorem writeWords_read32 {m : Memory} (w : m.wf = true) {a : Nat} {vs : List Word} (fits : a + 4 * vs.length ≤ addressSpace)
    {j : Nat} (hj : j < vs.length) : (writeWords m a vs).read32 (a + 4 * j) = vs[j] := by
  induction vs generalizing m a j with
  | nil => exact absurd hj (Nat.not_lt_zero j)
  | cons v vs ih =>
    rw [List.length_cons] at fits hj
    have w' := Memory.write32_wf w (a := a) (by omega) v
    have fits' : a + 4 + 4 * vs.length ≤ addressSpace := by omega
    cases j with
    | zero =>
      have first : (writeWords (m.write32 a v) (a + 4) vs).read32 a = (m.write32 a v).read32 a :=
        Memory.read32_congr fun x _ below => writeWords_get_outside w' fits' (by omega)
      rw [writeWords, Nat.mul_zero, Nat.add_zero a, first, Memory.read32_write32_same w (by omega), List.getElem_cons_zero]
    | succ j =>
      rw [writeWords, List.getElem_cons_succ, ← ih w' fits' (by omega)]
      congr 1
      omega

/-! ### Stretches of pixels -/

/-- `m'` is `m` with `F` applied to the pixels `lo .. hi - 1` of the buffer at `a`, and to nothing else. -/
structure MapsPixels (F : Word → Word) (a lo hi : Nat) (m m' : Memory) : Prop where
  wf : m'.wf = true
  inside : ∀ k, lo ≤ k → k < hi → m'.read32 (a + 4 * k) = F (m.read32 (a + 4 * k))
  outside : ∀ x, ¬ (a + 4 * lo ≤ x ∧ x < a + 4 * hi) → m'.get x = m.get x

section
variable {F : Word → Word} {a : Nat} {m : Memory}

theorem MapsPixels.refl (w : m.wf = true) (lo : Nat) : MapsPixels F a lo lo m m :=
  ⟨w, fun k h1 h2 => by omega, fun _ _ => rfl⟩

theorem MapsPixels.read32_outside {lo hi k : Nat} {m' : Memory} (h : MapsPixels F a lo hi m m') (hk : k < lo ∨ hi ≤ k) :
    m'.read32 (a + 4 * k) = m.read32 (a + 4 * k) :=
  Memory.read32_congr fun x h1 h2 => h.outside x (by omega)

/-- R105: two stretches side by side are one stretch, because neither touches a pixel of the other. -/
theorem MapsPixels.trans {lo mid hi : Nat} {m1 m2 : Memory} (h1 : MapsPixels F a lo mid m m1) (h2 : MapsPixels F a mid hi m1 m2)
    (le1 : lo ≤ mid) (le2 : mid ≤ hi) : MapsPixels F a lo hi m m2 := by
  refine ⟨h2.wf, fun k above below => ?_, fun x out => ?_⟩
  · by_cases hk : k < mid
    · rw [h2.read32_outside (.inl hk), h1.inside k above hk]
    · rw [h2.inside k (by omega) below, h1.read32_outside (.inr (by omega))]
  · rw [h2.outside x (by omega), h1.outside x (by omega)]

/-- The tail path on one pixel (R107). -/
def pixelStep (F : Word → Word) (a : Nat) (m : Memory) (k : Nat) : Memory := m.write32 (a + 4 * k) (F (m.read32 (a + 4 * k)))

/-- The vector path on group `k` (R105), read whole before it is written. -/
def groupStep (G : List Word → List Word) (vpix a : Nat) (m : Memory) (k : Nat) : Memory :=
  writeWords m (a + 4 * (k * vpix)) (G (readWords m (a + 4 * (k * vpix)) vpix))

theorem vectorWalk_eq (G : List Word → List Word) (F : Word → Word) (vpix a n : Nat) (m : Memory) : vectorWalk G F vpix a n m =
    (List.range (n % vpix)).foldl (fun m j => pixelStep F a m (n / vpix * vpix + j))
      ((List.range (n / vpix)).foldl (groupStep G vpix a) m) := rfl

theorem mapsPixels_pixelStep (w : m.wf = true) {k : Nat} (fits : a + 4 * (k + 1) ≤ addressSpace) :
    MapsPixels F a k (k + 1) m (pixelStep F a m k) := by
  have top : a + 4 * k + 4 ≤ addressSpace := by omega
  refine ⟨Memory.write32_wf w top _, fun j h1 h2 => ?_, fun x out => ?_⟩
  · obtain rfl : j = k := by omega
    exact Memory.read32_write32_same w top _
  · rw [pixelStep, Memory.get_write32 w top, if_neg (by omega)]

theorem mapsPixels_groupStep {G : List Word → List Word} (group : ∀ V, G V = V.map F) (w : m.wf = true) {vpix k : Nat}
    (fits : a + 4 * (k * vpix + vpix) ≤ addressSpace) :
    MapsPixels F a (k * vpix) (k * vpix + vpix) m (groupStep G vpix a m k) := by
  have length : (G (readWords m (a + 4 * (k * vpix)) vpix)).length = vpix := by simp [group, readWords]
  have fits' : a + 4 * (k * vpix) + 4 * (G (readWords m (a + 4 * (k * vpix)) vpix)).length ≤ addressSpace := by omega
  refine ⟨writeWords_wf w fits', fun i above below => ?_, fun x out => writeWords_get_outside w fits' (by omega)⟩
  obtain ⟨j, rfl⟩ := Nat.exists_eq_add_of_le above
  have word := writeWords_read32 w fits' (j := j) (by omega)
  rw [groupStep, Nat.mul_add, ← Nat.add_assoc, word]
  simp [group, readWords]

/-- `count` stretches of `len` pixels one after the other. -/
theorem mapsPixels_foldl {f : Memory → Nat → Memory} {lo len : Nat} (count : Nat)
    (each : ∀ k, k < count → ∀ m : Memory, m.wf = true → MapsPixels F a (lo + k * len) (lo + k * len + len) m (f m k))
    (w : m.wf = true) : MapsPixels F a lo (lo + count * len) m ((List.range count).foldl f m) := by
  induction count with
  | zero => simpa using MapsPixels.refl w lo
  | succ count ih =>
    have before := ih fun k hk => each k (by omega)
    have last := each count (by omega) _ before.wf
    rw [List.range_succ, List.foldl_append, Nat.succ_mul, ← Nat.add_assoc]
    exact before.trans last (by omega) (by omega)

/-- R105 to R107: groups and tail together cover each pixel once, whatever the width. -/
theorem vectorWalk_mapsPixels {G : List Word → List Word} (group : ∀ V, G V = V.map F) (vpix : Nat) {n : Nat}
    (fits : a + 4 * n ≤ addressSpace) (w : m.wf = true) : MapsPixels F a 0 n m (vectorWalk G F vpix a n m) := by
  have split : n / vpix * vpix + n % vpix = n := Nat.div_add_mod' n vpix
  have groups : MapsPixels F a 0 (n / vpix * vpix) m ((List.range (n / vpix)).foldl (groupStep G vpix a) m) := by
    refine Nat.zero_add (n / vpix * vpix) ▸ mapsPixels_foldl (n / vpix) (fun k hk m w => ?_) w
    have within : (k + 1) * vpix ≤ n / vpix * vpix := Nat.mul_le_mul_right vpix hk
    rw [Nat.succ_mul] at within
    rw [Nat.zero_add]
    exact mapsPixels_groupStep group w (by omega)
  have tail := mapsPixels_foldl (F := F) (a := a) (f := fun m j => pixelStep F a m (n / vpix * vpix + j)) (lo := n / vpix * vpix)
    (len := 1) (n % vpix) (fun j hj m w => by
      rw [Nat.mul_one]
      exact mapsPixels_pixelStep w (by omega)) groups.wf
  rw [Nat.mul_one, split] at tail
  rw [vectorWalk_eq]
  exact groups.trans tail (Nat.zero_le _) (by omega)

end

/-! ### The memory a command leaves -/

/-- A pixel command that starts on a fresh buffer and completes leaves exactly the memory with its function applied to every pixel. -/
theorem mem_of_mapsPixels {F : Word → Word} {s : State} (registers : pixelTrap s = none) (fresh : performed s = [])
    (w : s.mem.wf = true) {m : Memory} (maps : MapsPixels F s.a0.toNat 0 s.n.toNat s.mem m) :
    m = ((pixelPlan F s).completed s).mem := by
  have count := pixelCount_of_checked registers
  have pixels : ∀ k, k ∈ (pixelPlan F s).remaining s ↔ k < s.n.toNat := fun k => by
    rw [Plan.mem_remaining, fresh, ← count]
    simp [pixelPlan]
  have spaced := (pixelPlan_spaced (F := F) registers).of_subset fun k hk => (Plan.mem_remaining (s := s).mp hk).1
  refine Plan.eq_writeAll spaced w maps.wf (fun k hk => maps.inside k (Nat.zero_le k) ((pixels k).mp hk)) fun x out => ?_
  refine maps.outside x fun hx => out ((x - s.a0.toNat) / 4) ((pixels _).mpr (by omega)) ?_
  simp only [pixelPlan, pixelAddr]
  omega

/-- R108: for every vector width the walk of R105 leaves the memory the pixel command leaves. -/
theorem mem_eq_vectorWalk {i : Instr} {F : Word → Word} {G : List Word → List Word} {s t : State}
    (plan : planOf i s = pixelPlan F s) (group : ∀ V, G V = V.map F) (vpix : Nat) (w : s.mem.wf = true) (fresh : performed s = [])
    (registers : pixelTrap s = none) (run : exec i s = .next t) :
    t.mem = vectorWalk G F vpix s.a0.toNat s.n.toNat s.mem := by
  obtain ⟨-, count, top⟩ := pixelTrap_none_iff.mp registers
  have fits : s.a0.toNat + 4 * s.n.toNat ≤ addressSpace := by
    have number := pixelCount_toNat count
    simp only [addressSpace]
    omega
  rw [exec_eq_run, plan] at run
  obtain ⟨-, rfl⟩ | ⟨c, trap, -⟩ := Plan.run_next run
  · exact (mem_of_mapsPixels registers fresh w (vectorWalk_mapsPixels group vpix fits w)).symm
  · rw [pixelPlan_trap_iff, registers] at trap
    cases trap

/-- Settles O40: `mem_eq_vectorWalk`; on every pixel of a group the byte lanes of R122 form `SG`. -/
theorem subtractGreenVectorPathIsBitIdentical : Obligations.SubtractGreenVectorPathIsBitIdentical := by
  intro s t vpix _ w fresh registers run
  have group (V : List Word) : sgGroup V = V.map sg := List.map_congr_left fun p _ => sub8x4_greenSpread p
  exact mem_eq_vectorWalk rfl group vpix w fresh registers run

/-- Settles O41: `mem_eq_vectorWalk`; the closed form of the tail is the pipeline of the groups. -/
theorem colorTransformVectorPathIsBitIdentical : Obligations.ColorTransformVectorPathIsBitIdentical := by
  intro s t vpix g2r g2b r2b _ w fresh registers run
  have closed : ctClosed g2r g2b r2b = ct g2r g2b r2b := funext fun p => (ct_eq_ctClosed g2r g2b r2b p).symm
  rw [closed]
  exact mem_eq_vectorWalk rfl (fun _ => rfl) vpix w fresh registers run

end Sys2Proof.Machine
end

section
/-! SUPPORT. What the per-pixel transforms do to each channel (spec/41_subtract_green.md R121, R126, R128;
spec/42_color_transform.md R135, R143), and that `SG` is undone by its inverse. -/

namespace Sys2Proof.Machine

/-! ### The channels of `SG` and of its inverse (R121, R128) -/

@[simp] theorem alpha_sg (p : Word) : alpha (sg p) = alpha p := alpha_pix ..
@[simp] theorem red_sg (p : Word) : red (sg p) = red p - green p := red_pix ..
@[simp] theorem green_sg (p : Word) : green (sg p) = green p := green_pix ..
@[simp] theorem blue_sg (p : Word) : blue (sg p) = blue p - green p := blue_pix ..

@[simp] theorem alpha_sgInverse (q : Word) : alpha (sgInverse q) = alpha q := alpha_pix ..
@[simp] theorem red_sgInverse (q : Word) : red (sgInverse q) = red q + green q := red_pix ..
@[simp] theorem green_sgInverse (q : Word) : green (sgInverse q) = green q := green_pix ..
@[simp] theorem blue_sgInverse (q : Word) : blue (sgInverse q) = blue q + green q := blue_pix ..

/-- R128: green is unchanged by `SG`, so the inverse adds back to red and blue what was subtracted. -/
theorem sgInverse_sg (p : Word) : sgInverse (sg p) = p := by
  rw [sgInverse, alpha_sg, red_sg, green_sg, blue_sg, BitVec.sub_add_cancel, BitVec.sub_add_cancel, pix_channels]

theorem sg_sgInverse (q : Word) : sg (sgInverse q) = q := by
  rw [sg, alpha_sgInverse, red_sgInverse, green_sgInverse, blue_sgInverse, BitVec.add_sub_cancel, BitVec.add_sub_cancel,
    pix_channels]

/-! ### The channels `CT` keeps (R135, R144) -/

@[simp] theorem alpha_ct (g2r g2b r2b : Byte) (p : Word) : alpha (ct g2r g2b r2b p) = alpha p := by
  rw [ct_eq_ctClosed, ctClosed, alpha_pix]

@[simp] theorem green_ct (g2r g2b r2b : Byte) (p : Word) : green (ct g2r g2b r2b p) = green p := by
  rw [ct_eq_ctClosed, ctClosed, green_pix]

/-! ### The statements -/

/-- Settles O21: `sub8x4_greenSpread`, the vector temporary of R122 being the pixel with green at red and blue. -/
theorem subtractGreenLanesGiveTheChannels : Obligations.SubtractGreenLanesGiveTheChannels := sub8x4_greenSpread

/-- Settles O22: `SG` by its channels, `CT` by those of its closed form. -/
theorem transformsKeepAlphaAndGreen : Obligations.TransformsKeepAlphaAndGreen :=
  ⟨fun p => ⟨alpha_sg p, green_sg p⟩, fun g2r g2b r2b p => ⟨alpha_ct g2r g2b r2b p, green_ct g2r g2b r2b p⟩⟩

/-- Settles O23: `sgInverse` undoes `sg` on either side. -/
theorem subtractGreenIsReversible : Obligations.SubtractGreenIsReversible := fun p => ⟨sgInverse_sg p, sg_sgInverse p⟩

end Sys2Proof.Machine
end

section
/-! SUPPORT. The color transform channel by channel (spec/42_color_transform.md R136, R139, R143 to R150): the range of the multiply-high,
the inverse of `CT`, and what zero multipliers do. -/

namespace Sys2Proof.Machine

/-! ### Ranges (R136, R139, R140) -/

theorem toInt_byte_bounds (x : Byte) : -128 ≤ x.toInt ∧ x.toInt ≤ 127 := ⟨x.le_toInt, BitVec.toInt_le⟩

/-- R139: the least delta is at `-128 * 127`, the greatest at `-128 * -128`. -/
theorem delta_bounds (m c : Byte) : -508 ≤ delta m c ∧ delta m c ≤ 512 := by
  have greatest : m.toInt * c.toInt ≤ 16384 := BitVec.toInt_mul_toInt_le
  have least : -16256 ≤ m.toInt * c.toInt := by
    obtain ⟨m_low, m_high⟩ := toInt_byte_bounds m
    obtain ⟨c_low, c_high⟩ := toInt_byte_bounds c
    linarith only [mul_nonneg (sub_nonneg.mpr m_low) (sub_nonneg.mpr c_low),
      mul_nonneg (sub_nonneg.mpr m_high) (sub_nonneg.mpr c_high)]
  simp only [delta, shiftFloor]
  omega

/-- R139: a lane holds every delta exactly. -/
theorem toInt_mulhi16_m16 (c m : Byte) : (mulhi16 (c ++ 0x00#8) (m16 m)).toInt = delta m c := by
  obtain ⟨low, high⟩ := delta_bounds m c
  rw [mulhi16_m16]
  exact BitVec.toInt_ofInt_eq_self (by decide) (by omega) (by omega)

/-! ### The channels of `CT` and of its inverse (R144, R150) -/

theorem red_ct (g2r g2b r2b : Byte) (p : Word) :
    red (ct g2r g2b r2b p) = red p - BitVec.ofInt 8 (delta g2r (green p)) := by
  rw [ct_eq_ctClosed, ctClosed, red_pix, ofInt_toNat_sub]

theorem blue_ct (g2r g2b r2b : Byte) (p : Word) :
    blue (ct g2r g2b r2b p) = blue p - BitVec.ofInt 8 (delta g2b (green p) + delta r2b (red p)) := by
  rw [ct_eq_ctClosed, ctClosed, blue_pix, Int.sub_sub, ofInt_toNat_sub]

theorem ofInt_toNat_add (c : Byte) (d : Int) : BitVec.ofInt 8 (c.toNat + d) = c + BitVec.ofInt 8 d := by
  rw [BitVec.ofInt_add, BitVec.ofInt_natCast, BitVec.ofNat_toNat, BitVec.setWidth_eq]

@[simp] theorem alpha_ctInverse (g2r g2b r2b : Byte) (q : Word) : alpha (ctInverse g2r g2b r2b q) = alpha q := alpha_pix ..

@[simp] theorem green_ctInverse (g2r g2b r2b : Byte) (q : Word) : green (ctInverse g2r g2b r2b q) = green q := green_pix ..

theorem red_ctInverse (g2r g2b r2b : Byte) (q : Word) :
    red (ctInverse g2r g2b r2b q) = red q + BitVec.ofInt 8 (delta g2r (green q)) := by
  rw [ctInverse, red_pix, ofInt_toNat_add]

/-- R150: blue is recovered with the red recovered before it. -/
theorem blue_ctInverse (g2r g2b r2b : Byte) (q : Word) : blue (ctInverse g2r g2b r2b q) =
    blue q + BitVec.ofInt 8 (delta g2b (green q) + delta r2b (red (ctInverse g2r g2b r2b q))) := by
  rw [ctInverse, blue_pix, red_pix, Int.add_assoc, ofInt_toNat_add]

/-! ### The inverse (R150) -/

/-- Green is unchanged by `CT`, so the inverse adds back to red what was subtracted. -/
theorem red_ctInverse_ct (g2r g2b r2b : Byte) (p : Word) : red (ctInverse g2r g2b r2b (ct g2r g2b r2b p)) = red p := by
  rw [red_ctInverse, red_ct, green_ct, BitVec.sub_add_cancel]

/-- Red is recovered first; then the two deltas added to blue are those that were subtracted. -/
theorem ctInverse_ct (g2r g2b r2b : Byte) (p : Word) : ctInverse g2r g2b r2b (ct g2r g2b r2b p) = p := by
  apply pixel_ext
  · rw [alpha_ctInverse, alpha_ct]
  · rw [red_ctInverse_ct]
  · rw [green_ctInverse, green_ct]
  · rw [blue_ctInverse, red_ctInverse_ct, blue_ct, green_ct, BitVec.sub_add_cancel]

theorem ct_ctInverse (g2r g2b r2b : Byte) (q : Word) : ct g2r g2b r2b (ctInverse g2r g2b r2b q) = q := by
  apply pixel_ext
  · rw [alpha_ct, alpha_ctInverse]
  · rw [red_ct, green_ctInverse, red_ctInverse, BitVec.add_sub_cancel]
  · rw [green_ct, green_ctInverse]
  · rw [blue_ct, green_ctInverse, blue_ctInverse, BitVec.add_sub_cancel]

/-! ### Zero multipliers (R147) -/

@[simp] theorem delta_zero (c : Byte) : delta 0#8 c = 0 := by simp [delta, shiftFloor]

theorem red_ct_zero (g2b r2b : Byte) (p : Word) : red (ct 0#8 g2b r2b p) = red p := by
  rw [red_ct, delta_zero]
  exact BitVec.sub_zero _

theorem blue_ct_zero (g2r : Byte) (p : Word) : blue (ct g2r 0#8 0#8 p) = blue p := by
  rw [blue_ct, delta_zero, delta_zero]
  exact BitVec.sub_zero _

theorem ct_zero (p : Word) : ct 0#8 0#8 0#8 p = p :=
  pixel_ext (alpha_ct ..) (red_ct_zero ..) (green_ct ..) (blue_ct_zero ..)

/-- A command whose elements get the values they already have leaves the memory, as data, as it was. -/
theorem Plan.completed_mem_of_fixed {p : Plan} {s : State} (spaced : p.Spaced p.domain) (w : s.mem.wf = true)
    (fixed : ∀ k ∈ p.domain, p.value s.mem k = s.mem.read32 (p.addr k)) : (p.completed s).mem = s.mem := by
  have sub : ∀ k ∈ p.remaining s, k ∈ p.domain := fun k hk => (Plan.mem_remaining.mp hk).1
  have unchanged : s.mem = p.writeAll s.mem (p.remaining s) s.mem :=
    Plan.eq_writeAll (spaced.of_subset sub) w w (fun k hk => (fixed k (sub k hk)).symm) fun _ _ => rfl
  rw [completed_mem, ← unchanged]

/-- R147: `CTRANS` with all three multipliers zero, whether it completes or faults. -/
theorem exec_ctrans_zero_mem {s t : State} (w : s.mem.wf = true) (run : exec (.ctrans 0#8 0#8 0#8) s = .next t) :
    t.mem = s.mem := by
  rw [exec_eq_run] at run
  obtain ⟨go, rfl⟩ | ⟨c, -, rfl⟩ := Plan.run_next run
  · exact Plan.completed_mem_of_fixed (pixelPlan_spaced (pixelPlan_go_iff.mp go).1) w fun _ _ => ct_zero _
  · exact raiseFault_mem c s

/-! ### The statements -/

/-- Settles O24: `toInt_m16`; the range is eight times that of a byte. -/
theorem multiplierLaneIsEightTimesTheMultiplier : Obligations.MultiplierLaneIsEightTimesTheMultiplier := by
  intro m
  have lane := toInt_m16 m
  obtain ⟨low, high⟩ := toInt_byte_bounds m
  exact ⟨lane, by omega, by omega⟩

/-- Settles O25: the lane holds `delta`, which is the floor of the product by 32. -/
theorem multiplyHighLaneHoldsTheDelta : Obligations.MultiplyHighLaneHoldsTheDelta := by
  intro c m
  rw [toInt_mulhi16_m16]
  exact ⟨rfl, delta_bounds m c⟩

/-- Settles O26: `ct_eq_ctClosed`, channel by channel. -/
theorem colorPipelineEqualsClosedForm : Obligations.ColorPipelineEqualsClosedForm := ct_eq_ctClosed

/-- Settles O27: `ctInverse` undoes `ct` on either side. -/
theorem colorTransformIsReversible : Obligations.ColorTransformIsReversible := fun g2r g2b r2b p =>
  ⟨ctInverse_ct g2r g2b r2b p, ct_ctInverse g2r g2b r2b p⟩

/-- Settles O28: a zero multiplier has delta zero; with all three zero every pixel is rewritten with itself. -/
theorem zeroMultipliersChangeNothing : Obligations.ZeroMultipliersChangeNothing :=
  ⟨red_ct_zero, blue_ct_zero, fun _ _ => exec_ctrans_zero_mem⟩

end Sys2Proof.Machine
end

section
/-! SUPPORT. What `HADD` leaves of the three records (spec/43_histogram_accumulate.md R170, R172): the words it does not write, the order
of its inputs, and what one accumulation hands to the next. -/

namespace Sys2Proof.Machine

/-! ### What `HADD` does not write (R170) -/

/-- R58: the elements of `HADD` lie behind the palette word and inside the record. -/
theorem haddDomain_bounds {s : State} (config : configOk s.cfg = true) (go : (haddPlan s).verdict = .go) :
    ∀ k ∈ (haddPlan s).domain, 1 ≤ k ∧ k < hwords s.cfg := by
  obtain ⟨registers, -, palettes, -⟩ := haddVerdict_go_iff.mp go
  exact (haddPlan_spaced config registers palettes).2

section
variable {s t : State} (config : configOk s.cfg = true) (w : s.mem.wf = true) (run : exec .hadd s = .next t)
include config w run

/-- A command that faults changes no memory, so a byte is to be kept only when the checks pass. -/
theorem exec_hadd_get_kept {x : Nat} (outside : (haddPlan s).verdict = .go → ∀ k ∈ (haddPlan s).domain,
    ¬ (recordAddr s.a2 k ≤ x ∧ x < recordAddr s.a2 k + 4)) : t.mem.get x = s.mem.get x := by
  obtain ⟨go, -⟩ | ⟨c, -, rfl⟩ := Plan.run_next run
  · exact Plan.run_get_outside run w (fun go => (planOf_spaced (i := .hadd) config go).inside) (outside go)
  · rfl

/-- A word of `out` that is no live counter is as before. -/
theorem exec_hadd_word_kept {k : Nat} (not_live : k ∉ (haddPlan s).domain) :
    t.mem.read32 (recordAddr s.a2 k) = s.mem.read32 (recordAddr s.a2 k) := by
  refine Memory.read32_congr fun x above below => exec_hadd_get_kept config w run fun _ j hj inside => not_live ?_
  simp only [recordAddr] at *
  obtain rfl : k = j := by omega
  exact hj

/-- A record that is disjoint from `out` is as before. -/
theorem exec_hadd_record_kept {h : Word} (apart : (haddPlan s).verdict = .go → recordsDisjoint s.cfg s.a2 h) {x : Nat}
    (above : h.toNat ≤ x) (below : x < h.toNat + 4 * hwords s.cfg) : t.mem.get x = s.mem.get x := by
  refine exec_hadd_get_kept config w run fun go k hk inside => ?_
  have bound := haddDomain_bounds config go k hk
  have apart := apart go
  simp only [recordAddr, recordsDisjoint] at *
  omega

theorem exec_hadd_record_word_kept {h : Word} (apart : recordsDisjoint s.cfg s.a2 h) {k : Nat} (hk : k < hwords s.cfg) :
    t.mem.read32 (recordAddr h k) = s.mem.read32 (recordAddr h k) :=
  Memory.read32_congr fun x above below =>
    exec_hadd_record_kept config w run (fun _ => apart) (by simp only [recordAddr] at above; omega)
      (by simp only [recordAddr] at below; omega)

end

/-- R72: an input that passed the overlap check is `out` or disjoint from it. -/
theorem recordsDisjoint_of_whole {c : Config} {out h : Word} (whole : partialOverlap c out h = false) (other : h ≠ out) :
    recordsDisjoint c out h := (partialOverlap_false_iff.mp whole).resolve_left other.symm

/-- Settles O34: the palette word and the padding of `out` are no elements, and an input that is not `out` is disjoint from it. -/
theorem histogramAddLeavesPaletteAndPadding : Obligations.HistogramAddLeavesPaletteAndPadding := by
  intro s t config w run
  refine ⟨?_, fun i live cap => ?_, fun other x => ?_, fun other x => ?_⟩
  · exact exec_hadd_word_kept config w run (k := 0) (by rw [mem_haddDomain]; omega)
  · have address : s.a2.toNat + 4 + 4 * i = recordAddr s.a2 (1 + i) := by simp only [recordAddr]; omega
    rw [address]
    exact exec_hadd_word_kept config w run (by rw [mem_haddDomain]; omega)
  · refine exec_hadd_record_kept config w run fun go => ?_
    obtain ⟨-, -, -, ⟨whole, -⟩, -⟩ := haddVerdict_go_iff.mp go
    exact recordsDisjoint_of_whole whole other
  · refine exec_hadd_record_kept config w run fun go => ?_
    obtain ⟨-, -, -, ⟨-, whole⟩, -⟩ := haddVerdict_go_iff.mp go
    exact recordsDisjoint_of_whole whole other

/-! ### The order of the inputs (R172) -/

/-- The same command with its inputs exchanged. -/
def swapInputs (s : State) : State := { s with a0 := s.a1, a1 := s.a0 }

theorem haddTrap_swapInputs (s : State) : haddTrap (swapInputs s) = haddTrap s := by
  simp only [haddTrap, swapInputs, or_left_comm]

theorem palTrap_swapInputs (s : State) : palTrap (swapInputs s) = palTrap s :=
  if_congr or_comm rfl (if_congr ne_comm rfl rfl)

/-- The memory check does not look at the order of the ranges. -/
theorem memoryVerdict_perm {c : Config} {rs qs : List Range} (perm : rs.Perm qs) : memoryVerdict c rs = memoryVerdict c qs := by
  simp only [memoryVerdict, perm.any_eq]

theorem haddVerdict_swapInputs (s : State) : haddVerdict (swapInputs s) = haddVerdict s := by
  have palettes : memoryVerdict s.cfg (palRanges (swapInputs s)) = memoryVerdict s.cfg (palRanges s) :=
    memoryVerdict_perm (.swap ..)
  have records : memoryVerdict s.cfg (recordRanges (swapInputs s)) = memoryVerdict s.cfg (recordRanges s) :=
    memoryVerdict_perm (.swap ..)
  have config : (swapInputs s).cfg = s.cfg := rfl
  simp only [haddVerdict, haddTrap_swapInputs, palTrap_swapInputs, config, palettes, records]
  simp only [swapInputs, Bool.or_comm]

/-- R162: past the checks both inputs have the palette word that fixes the elements. -/
theorem completed_swapInputs {s : State} (go : (haddPlan s).verdict = .go) :
    (haddPlan (swapInputs s)).completed (swapInputs s) = swapInputs ((haddPlan s).completed s) := by
  obtain ⟨-, -, palettes, -⟩ := haddVerdict_go_iff.mp go
  have palette : palette (swapInputs s) = palette s := congrArg BitVec.toNat (palTrap_none_iff.mp palettes).2
  have domain : (haddPlan (swapInputs s)).domain = (haddPlan s).domain := by simp only [haddPlan, palette]; rfl
  have value : (haddPlan (swapInputs s)).value = (haddPlan s).value := funext₂ fun _ _ => BitVec.add_comm ..
  have remaining : (haddPlan (swapInputs s)).remaining (swapInputs s) = (haddPlan s).remaining s := by
    simp only [Plan.remaining, domain]; rfl
  simp only [Plan.completed, Plan.writeAll, remaining, value]
  rfl

theorem Plan.run_fault_iff {p : Plan} {s : State} {f : Fault} : p.run s = .fault f ↔ p.verdict = .stuck f := by
  cases h : p.verdict <;> simp [Plan.run, h]

theorem Plan.run_refused_iff {p : Plan} {s : State} {r : Refusal} : p.run s = .refused r ↔ p.verdict = .refuse r := by
  cases h : p.verdict <;> simp [Plan.run, h]

/-- Settles O36: the checks are the same, and `add32` is commutative. -/
theorem histogramAddCommutes : Obligations.HistogramAddCommutes := by
  intro s
  have verdict : (haddPlan (swapInputs s)).verdict = (haddPlan s).verdict := haddVerdict_swapInputs s
  refine ⟨fun t run => ?_, fun f run => ?_, fun r run => ?_⟩
  · obtain ⟨go, rfl⟩ | ⟨c, trap, rfl⟩ := Plan.run_next run
    · exact (Plan.run_go (verdict.trans go)).trans (congrArg _ (completed_swapInputs go))
    · exact Plan.run_trap (verdict.trans trap)
  · exact Plan.run_stuck (verdict.trans (Plan.run_fault_iff.mp run))
  · exact Plan.run_refuse (verdict.trans (Plan.run_refused_iff.mp run))

/-! ### The result of an accumulation -/

section
variable {s t : State} (config : configOk s.cfg = true) (w : s.mem.wf = true) (fresh : performed s = [])
  (not_before : s.status.done = false) (run : exec .hadd s = .next t) (completed : t.status.done = true)
include not_before run completed

/-- Only completion sets `DONE` (R32, R195). -/
theorem exec_hadd_completed : (haddPlan s).verdict = .go ∧ t = (haddPlan s).completed s := by
  obtain done | ⟨c, -, rfl⟩ := Plan.run_next run
  · exact done
  · exact absurd (not_before.symm.trans completed) Bool.false_ne_true

include config w

theorem exec_hadd_wf : t.mem.wf = true := by
  obtain ⟨go, rfl⟩ := exec_hadd_completed not_before run completed
  exact Plan.writeAll_wf (fun k hk => (planOf_spaced (i := .hadd) config go).inside k (Plan.mem_remaining.mp hk).1) w

include fresh

/-- R168: an accumulation that nothing has begun stores the sums of the input counters as they were. -/
theorem exec_hadd_sum {e : Position} (he : e ∈ counterDomain s.cfg (palette s)) :
    t.mem.read32 (counterAddr s.cfg s.a2 e) =
      s.mem.read32 (counterAddr s.cfg s.a0 e) + s.mem.read32 (counterAddr s.cfg s.a1 e) := by
  obtain ⟨go, rfl⟩ := exec_hadd_completed not_before run completed
  have stored := Plan.completed_read32 (planOf_spaced (i := .hadd) config go) w (wordIndex_mem_haddDomain he)
  rwa [fresh, if_neg List.not_mem_nil] at stored

end

/-- Settles O37: both commands store the sums of the same counters, because they differ in `out` only. -/
theorem aliasedAccumulateMatchesAFreshOutput : Obligations.AliasedAccumulateMatchesAFreshOutput := by
  intro s t u out config w fresh not_before _ run_fresh done_fresh run_in_place done_in_place e he
  exact (exec_hadd_sum (s := { s with a2 := out }) config w fresh not_before run_in_place done_in_place he).trans
    (exec_hadd_sum config w fresh not_before run_fresh done_fresh he).symm

/-! ### Two accumulations one after the other (R172, S5) -/

section
variable {s t : State} {a b out : Word} (config : configOk s.cfg = true) (w : s.mem.wf = true)
  (run : exec .hadd (accumulating a b out s) = .next t) (completed : t.status.done = true)

include run in
theorem accumulating_cfg : t.cfg = s.cfg := (Plan.run_sameBesidesResult run).1

include run completed

/-- R162: an accumulation that completes had equal palette words in its inputs. -/
theorem accumulating_palettes : s.mem.read32 b.toNat = s.mem.read32 a.toNat := by
  obtain ⟨go, -⟩ := exec_hadd_completed rfl run completed
  obtain ⟨-, -, palettes, -⟩ := haddVerdict_go_iff.mp go
  exact (palTrap_none_iff.mp palettes).2

include config w

theorem accumulating_wf : t.mem.wf = true := exec_hadd_wf (s := accumulating a b out s) config w rfl run completed

theorem accumulating_sum {e : Position} (he : e ∈ counterDomain s.cfg (s.mem.read32 a.toNat).toNat) :
    t.mem.read32 (counterAddr s.cfg out e) =
      s.mem.read32 (counterAddr s.cfg a e) + s.mem.read32 (counterAddr s.cfg b e) :=
  exec_hadd_sum (s := accumulating a b out s) config w rfl rfl run completed he

/-- R170: palette word and live counters of a record that shares no byte with `out` are there for the next accumulation. -/
theorem accumulating_kept {h : Word} (apart : recordsDisjoint s.cfg out h) : t.mem.read32 h.toNat = s.mem.read32 h.toNat ∧
    ∀ e ∈ counterDomain s.cfg (s.mem.read32 a.toNat).toNat,
      t.mem.read32 (counterAddr s.cfg h e) = s.mem.read32 (counterAddr s.cfg h e) := by
  obtain ⟨go, -⟩ := exec_hadd_completed rfl run completed
  have kept {k : Nat} (hk : k < hwords s.cfg) : t.mem.read32 (recordAddr h k) = s.mem.read32 (recordAddr h k) :=
    exec_hadd_record_word_kept (s := accumulating a b out s) config w run apart hk
  refine ⟨kept (k := 0) (by simp only [hwords]; omega), fun e he => kept ?_⟩
  exact (haddDomain_bounds (s := accumulating a b out s) config go _ (wordIndex_mem_haddDomain he)).2

end

/-- Settles O59: the second accumulation reads the sums of the first in `x` and the other input as it was, and its palette check makes
the palette word of `x` the common one. -/
theorem histogramAddAssociates : Obligations.HistogramAddAssociates := by
  intro s t t' u u' a b c x y config w apart_a apart_c run_t done_t run_t' done_t' run_u done_u run_u' done_u' e he
  have cfg_t := accumulating_cfg run_t
  have cfg_u := accumulating_cfg run_u
  have b_palette := accumulating_palettes run_t done_t
  have c_palette := accumulating_palettes run_u done_u
  obtain ⟨c_palette_kept, c_kept⟩ := accumulating_kept config w run_t done_t apart_c
  obtain ⟨a_palette_kept, a_kept⟩ := accumulating_kept config w run_u done_u apart_a
  have x_palette : t.mem.read32 x.toNat = s.mem.read32 a.toNat := by
    rw [← accumulating_palettes run_t' done_t', c_palette_kept, c_palette, b_palette]
  have left := accumulating_sum (cfg_t ▸ config) (accumulating_wf config w run_t done_t) run_t' done_t' (e := e)
  have right := accumulating_sum (cfg_u ▸ config) (accumulating_wf config w run_u done_u) run_u' done_u' (e := e)
  rw [cfg_t, x_palette, c_kept e he] at left
  rw [cfg_u, a_palette_kept, a_kept e (b_palette ▸ he)] at right
  rw [left he, right he, accumulating_sum config w run_t done_t he, accumulating_sum config w run_u done_u (b_palette ▸ he),
    BitVec.add_assoc]

end Sys2Proof.Machine
end

section
/-! SUPPORT. The adder paths of `HADD` (spec/43_histogram_accumulate.md R163 to R167, R171): chunks and single counters write the elements
one after the other, and separate elements written one after the other are the elements written at once. -/

namespace Sys2Proof.Machine

/-! ### Elements one after the other (R66) -/

/-- The elements of a list one at a time, each from the memory as it then stands. -/
def Plan.inTurn (p : Plan) (ks : List Nat) (m : Memory) : Memory := ks.foldl (fun m k => m.write32 (p.addr k) (p.value m k)) m

theorem Plan.inTurn_cons (p : Plan) (k : Nat) (ks : List Nat) (m : Memory) :
    p.inTurn (k :: ks) m = p.inTurn ks (m.write32 (p.addr k) (p.value m k)) := rfl

theorem Plan.inTurn_append (p : Plan) (js ks : List Nat) (m : Memory) : p.inTurn (js ++ ks) m = p.inTurn ks (p.inTurn js m) :=
  List.foldl_append ..

theorem Plan.inTurn_wf {p : Plan} {ks : List Nat} {m : Memory} (inside : ∀ k ∈ ks, p.addr k + 4 ≤ addressSpace) (w : m.wf = true) :
    (p.inTurn ks m).wf = true := by
  induction ks generalizing m with
  | nil => exact w
  | cons k ks ih =>
    rw [List.forall_mem_cons] at inside
    exact ih inside.2 (Memory.write32_wf w inside.1 _)

/-- Only the values that are written matter to the writes. -/
theorem Plan.writeAll_congr {p : Plan} {m0 m1 : Memory} {ks : List Nat} (m : Memory) (same : ∀ k ∈ ks, p.value m0 k = p.value m1 k) :
    p.writeAll m0 ks m = p.writeAll m1 ks m :=
  List.foldl_ext _ _ m fun _ k hk => by rw [same k hk]

/-- R66: distinct elements that are separate may be written one after the other, or all from the memory before the first. -/
theorem Plan.inTurn_eq_writeAll {p : Plan} (sep : p.Separate) {ks : List Nat} (sub : ∀ k ∈ ks, k ∈ p.domain) (nodup : ks.Nodup)
    {m : Memory} (w : m.wf = true) : p.inTurn ks m = p.writeAll m ks m := by
  induction ks generalizing m with
  | nil => rfl
  | cons k ks ih =>
    obtain ⟨hk, sub⟩ := List.forall_mem_cons.mp sub
    obtain ⟨new, nodup⟩ := List.nodup_cons.mp nodup
    rw [Plan.inTurn_cons, Plan.writeAll_cons, ih sub nodup (Memory.write32_wf w (sep.spaced.inside k hk) _)]
    exact Plan.writeAll_congr _ fun j hj => sep.value_kept m _ k j w hk (sub j hj) fun e => new (e ▸ hj)

/-- A list of all elements, each once, written one after the other leaves the memory of the completed command. -/
theorem Plan.completed_mem_eq_inTurn {p : Plan} (sep : p.Separate) {s : State} (w : s.mem.wf = true) (fresh : performed s = [])
    {ks : List Nat} (nodup : ks.Nodup) (all : ∀ k, k ∈ ks ↔ k ∈ p.domain) : (p.completed s).mem = p.inTurn ks s.mem := by
  have left (k : Nat) : k ∈ p.remaining s ↔ k ∈ ks := by simp [Plan.mem_remaining, fresh, all]
  have spaced := sep.spaced.of_subset fun k hk => (all k).mp hk
  have spaced_left := spaced.of_subset fun k hk => (left k).mp hk
  rw [Plan.inTurn_eq_writeAll sep (fun k hk => (all k).mp hk) nodup w, completed_mem]
  refine Plan.eq_writeAll spaced w (Plan.writeAll_wf spaced_left.inside w) (fun k hk => ?_) fun x outside => ?_
  · exact Plan.writeAll_read32 spaced_left w ((left k).mpr hk)
  · exact Plan.writeAll_get_outside spaced_left.inside w fun k hk => outside k ((left k).mp hk)

/-! ### The adders (R163 to R167) -/

/-- R163: whichever record accumulates, an adder forms the sum that `HADD` stores. -/
theorem adderSum_eq_value (s : State) (m : Memory) (k : Nat) :
    adderSum (aliasCase s.a0 s.a1 s.a2) s.a0 s.a1 m k = (haddPlan s).value m k := by
  unfold aliasCase
  split
  · exact BitVec.add_comm ..
  · split <;> rfl

theorem foldl_scalarStep (s : State) (ks : List Nat) (m : Memory) :
    ks.foldl (scalarStep (aliasCase s.a0 s.a1 s.a2) s.a0 s.a1 s.a2) m = (haddPlan s).inTurn ks m :=
  List.foldl_ext _ _ m fun m k _ => congrArg (m.write32 _) (adderSum_eq_value s m k)

/-- Consecutive words of `out` are consecutive elements. -/
theorem writeWords_eq_writeAll (s : State) (m0 : Memory) (k len : Nat) (m : Memory) :
    writeWords m (recordAddr s.a2 k) ((List.range' k len).map ((haddPlan s).value m0)) =
      (haddPlan s).writeAll m0 (List.range' k len) m := by
  induction len generalizing k m with
  | zero => rfl
  | succ len ih => exact ih (k + 1) _

/-- R164, R165: a chunk reads its counters before it writes, and this is no different from one counter at a time. -/
theorem chunkStep_eq_inTurn {s : State} (sep : (haddPlan s).Separate) {k len : Nat}
    (sub : ∀ j ∈ List.range' k len, j ∈ (haddPlan s).domain) {m : Memory} (w : m.wf = true) :
    chunkStep (aliasCase s.a0 s.a1 s.a2) s.a0 s.a1 s.a2 len m k = (haddPlan s).inTurn (List.range' k len) m := by
  have sums : (List.range len).map (fun j => adderSum (aliasCase s.a0 s.a1 s.a2) s.a0 s.a1 m (k + j)) =
      (List.range' k len).map ((haddPlan s).value m) := by
    rw [List.range'_eq_map_range, List.map_map]
    exact List.map_congr_left fun j _ => adderSum_eq_value s m (k + j)
  rw [Plan.inTurn_eq_writeAll sep sub List.nodup_range' w, ← writeWords_eq_writeAll, ← sums]
  rfl

theorem foldl_chunkStep {s : State} (sep : (haddPlan s).Separate) {len : Nat} {starts : List Nat}
    (sub : ∀ j ∈ starts.flatMap (List.range' · len), j ∈ (haddPlan s).domain) {m : Memory} (w : m.wf = true) :
    starts.foldl (chunkStep (aliasCase s.a0 s.a1 s.a2) s.a0 s.a1 s.a2 len) m =
      (haddPlan s).inTurn (starts.flatMap (List.range' · len)) m := by
  induction starts generalizing m with
  | nil => rfl
  | cons k starts ih =>
    rw [List.flatMap_cons, List.forall_mem_append] at sub
    have w' := Plan.inTurn_wf (fun j hj => sep.spaced.inside j (sub.1 j hj)) w
    rw [List.foldl_cons, List.flatMap_cons, Plan.inTurn_append, chunkStep_eq_inTurn sep sub.1 w, ih sub.2 w']

/-- R164: the chunks of a fixed array cover it word by word, because `NFIX` is a multiple of `CHUNK`. -/
theorem flatMap_chunkStarts {c : Config} (config : configOk c = true) (start : Nat) :
    (chunkStarts c start).flatMap (List.range' · c.chunk) = List.range' start c.nfix := by
  have chunks (count : Nat) : ((List.range count).map fun k => start + k * c.chunk).flatMap (List.range' · c.chunk) =
      List.range' start (count * c.chunk) := by
    induction count with
    | zero => simp
    | succ count ih => simp [List.range_succ, ih, Nat.succ_mul]
  rw [chunkStarts, chunks, Nat.div_mul_cancel (Nat.dvd_of_mod_eq_zero (configOk_chunk config).2.1)]

/-- The words of the record in the order in which the adders of R164 to R167 come to them. -/
def walkWords (c : Config) (p : Nat) : List Nat :=
  (List.range' (wordIndex c (.lit, 0)) c.nfix ++ List.range' (wordIndex c (.red, 0)) c.nfix ++
    List.range' (wordIndex c (.blue, 0)) c.nfix ++ List.range' (wordIndex c (.alpha, 0)) c.nfix) ++
  (List.range' (wordIndex c (.lit, c.nfix)) (litLen c p - c.nfix) ++ List.range' (wordIndex c (.dist, 0)) c.ndist)

theorem wordIndex_range (c : Config) (x : Part) (i len : Nat) :
    ((List.range len).map fun j => wordIndex c (x, i + j)) = List.range' (wordIndex c (x, i)) len := by
  rw [List.range'_eq_map_range]
  cases x <;> simp [wordIndex, Nat.add_assoc]

section
variable {s : State} (config : configOk s.cfg = true) (go : (haddPlan s).verdict = .go)
include config go

theorem litLen_bounds : s.cfg.nfix ≤ litLen s.cfg (palette s) ∧ litLen s.cfg (palette s) ≤ litCap s.cfg := by
  obtain ⟨-, -, palettes, -⟩ := haddVerdict_go_iff.mp go
  have within_lit := (configOk_chunk config).2.2
  exact ⟨by simp only [litLen]; omega, configOk_litLen config (palTrap_none_iff.mp palettes).1⟩

/-- R171: the walk comes to every element of `HADD`. -/
theorem mem_walkWords {k : Nat} : k ∈ walkWords s.cfg (palette s) ↔ k ∈ (haddPlan s).domain := by
  obtain ⟨above, below⟩ := litLen_bounds config go
  simp only [mem_haddDomain, walkWords, List.mem_append, List.mem_range'_1, wordIndex]
  omega

/-- R171: it comes to each once. -/
theorem nodup_walkWords : (walkWords s.cfg (palette s)).Nodup := by
  obtain ⟨above, below⟩ := litLen_bounds config go
  simp only [walkWords, List.nodup_append, List.nodup_range' (step := 1), List.mem_append, List.mem_range'_1, wordIndex, true_and]
  and_intros
  all_goals
    intro j hj k hk
    omega

theorem haddWalk_eq_inTurn {m : Memory} (w : m.wf = true) :
    haddWalk s.cfg (palette s) s.a0 s.a1 s.a2 m = (haddPlan s).inTurn (walkWords s.cfg (palette s)) m := by
  have sep : (haddPlan s).Separate := planOf_separate (i := .hadd) config go
  have fixed := flatMap_chunkStarts config
  have dist : ((List.range s.cfg.ndist).map fun j => wordIndex s.cfg (.dist, j)) =
      List.range' (wordIndex s.cfg (.dist, 0)) s.cfg.ndist := by
    simpa only [Nat.zero_add] using wordIndex_range s.cfg .dist 0 s.cfg.ndist
  rw [haddWalk, foldl_scalarStep, foldl_chunkStep sep _ w]
  · simp only [walkWords, Plan.inTurn_append, List.flatMap_append, fixed, wordIndex_range, dist]
  · intro j hj
    simp only [List.flatMap_append, fixed] at hj
    exact (mem_walkWords config go).mp (List.mem_append_left _ hj)

end

/-- Settles O42: the walk is the elements one after the other, and they are separate. -/
theorem histogramAdderPathsAgree : Obligations.HistogramAdderPathsAgree := by
  intro s t config w fresh go run
  have sep : (haddPlan s).Separate := planOf_separate (i := .hadd) config go
  obtain rfl := Host.Outcome.next.inj ((Plan.run_go go).symm.trans run)
  rw [haddWalk_eq_inTurn config go w]
  exact Plan.completed_mem_eq_inTurn sep w fresh (nodup_walkWords config go) fun k => mem_walkWords config go

end Sys2Proof.Machine
end

section
/-! SUPPORT. Faults (spec/60_exceptions.md R190 to R197): when a command completes instead, what taking a fault changes, and what a
faulted block still does. -/

namespace Sys2Proof.Machine

/-! ### Commands that complete (spec/60_exceptions.md R190, spec/70_reset_and_hazards.md R213, R228) -/

/-- R228: the checks of a command pass exactly under the preconditions of its row. -/
theorem planOf_go_iff_contract {i : Instr} {s : State} : (planOf i s).verdict = .go ↔ contractKept i s := by
  cases i with
  | subg => exact pixelPlan_go_iff_contract
  | ctrans g2r g2b r2b => exact pixelPlan_go_iff_contract
  | hadd => exact haddVerdict_go_iff_contract

/-- R32, R195: a fault leaves `DONE` as it was, so a command that sets `DONE` has passed its checks. -/
theorem Plan.go_of_run_done {p : Plan} {s t : State} (cleared : s.status.done = false) (run : p.run s = .next t)
    (done : t.status.done = true) : p.verdict = .go := by
  obtain ⟨go, -⟩ | ⟨c, -, rfl⟩ := Plan.run_next run
  · exact go
  · rw [raiseFault_status, Status.raise_done, cleared] at done
    contradiction

/-- Settles O39: passed checks are the kept contract, and with `DONE` cleared they alone lead to `DONE`. -/
theorem commandsCompleteExactlyUnderTheContract : Obligations.CommandsCompleteExactlyUnderTheContract := by
  intro s i cleared
  rw [← planOf_go_iff_contract, exec_eq_run]
  constructor
  · exact fun go => ⟨_, Plan.run_go go, rfl⟩
  · rintro ⟨t, run, status⟩
    exact Plan.go_of_run_done cleared run (congrArg Status.done status)

/-! ### A faulted block (spec/60_exceptions.md R196) -/

/-- R23, R31: a read of any register notes its value. -/
theorem handle_rd_notes {s : State} (config : configOk s.cfg = true) (r : Reg) :
    ∃ t, handle (.host (.rd r)) s = .next t ∧ t.seen = s.seen ++ [readReg r s] := by
  by_cases status : r = .status
  · subst status
    exact ⟨_, handle_rd_status config, (note_observeStatus s.status.word s).1⟩
  · exact ⟨_, handle_rd config r status, rfl⟩

/-- Settles O17: a command is dropped for the fault; all else is what a block with `BUSY = 0` does. -/
theorem faultedBlockTakesNoCommand : Obligations.FaultedBlockTakesNoCommand := by
  intro s config idle faulted
  obtain ⟨-, operand_written, -, -⟩ := operandRegisterAccess
  refine ⟨fun w => ?_, fun v => operand_written s v config idle, handle_rd_notes config, handle_finish_idle idle,
    fun k => handle_element_idle k idle⟩
  rw [handle_command config, writeCmd_dropped (.inr faulted)]

/-! ### Taking a fault (spec/60_exceptions.md R195) -/

theorem blockElement_of_trap {s : State} {i : Instr} {c : Cause} (k : Nat) (command : decodeCommand s.cap s.cmd = .command i)
    (trap : (planOf i s).verdict = .trap c) : blockElement k s = .next (raiseFault c s) := by
  simp only [blockElement_command command, Plan.element, trap]

/-- R88: an element turn on an illegal word is spent on its fault, as a whole turn is. -/
theorem blockElement_illegal {s : State} {r : Illegal} (k : Nat) (illegal : decodeCommand s.cap s.cmd = .illegal r) :
    blockElement k s = .next (raiseFault .illegalCmd s) := by
  simp only [blockElement, illegal]

/-- Settles O18: every one of these turns answers `raiseFault`, which writes `STATUS` and ends the flight; issue clears `DONE`. -/
theorem faultEntryChangesOnlyStatus : Obligations.FaultEntryChangesOnlyStatus := by
  refine ⟨fun s i c trap => exec_of_trap trap, fun s i c k command trap => blockElement_of_trap k command trap,
    fun s r k illegal => ⟨blockFinish_illegal illegal, blockElement_illegal k illegal⟩, fun s w idle unfaulted => ?_⟩
  rw [writeCmd_issue idle unfaulted, Status.issue_done]

end Sys2Proof.Machine
end

section
/-! SUPPORT. A recorded fault stays until the platform resets the block (spec/70_reset_and_hazards.md R221). -/

namespace Sys2Proof.Machine

/-- R195: a legal status with a fault recorded is that of a block with no command in flight. -/
theorem Status.idle_of_fault {x : Status} (legal : x.legal = true) (fault : x.fault = true) : x.busy = false := by
  refine Bool.eq_false_iff.mpr fun busy => ?_
  obtain ⟨-, unfaulted, -⟩ := Status.legal_busy legal busy
  simp [fault] at unfaulted

@[simp] theorem observeStatus_status (s : State) : (observeStatus s).status = s.status := by
  unfold observeStatus
  split <;> rfl

/-- R28, R30, R31: the host changes `STATUS` by issuing a command alone, and a faulted block drops it. -/
theorem hostEffect_status_of_fault {s t : State} (effect : HostEffect s t) (fault : s.status.fault = true) :
    t.status = s.status := by
  cases effect with
  | command w => rw [writeCmd_dropped (.inr fault)]
  | status => rw [note_status, observeStatus_status]
  | _ => rfl

/-- A faulted block has no turn to take, so what is left to a step but a reset is the host, which leaves `STATUS` as it was. -/
theorem step_status_of_fault {s t : State} (legal : s.status.legal = true) (fault : s.status.fault = true)
    (hstep : step s = .next t) (no_reset : ∀ rest, s.events ≠ .reset :: rest) : t.status = s.status := by
  have not_busy := Bool.eq_false_iff.mp (Status.idle_of_fault legal fault)
  obtain ⟨es, ⟨busy, -⟩ | ⟨a, act⟩ | ⟨k, busy, -⟩ | ⟨-, rfl⟩ | ⟨reset, -⟩⟩ := step_next hstep
  · exact absurd busy not_busy
  · exact hostEffect_status_of_fault (s := { s with events := es }) (hostAct_next act) fault
  · exact absurd busy not_busy
  · rfl
  · exact absurd reset (no_reset es)

/-- Settles O16: any other step leaves the whole of a faulted `STATUS` as it was, and a reset clears it. -/
theorem onlyResetClearsAFault : Obligations.OnlyResetClearsAFault := by
  refine ⟨fun s t legal fault hstep no_reset => ?_, fun s rest next_event => ⟨_, step_cons next_event, rfl, rfl⟩⟩
  rw [step_status_of_fault legal fault hstep no_reset]
  exact ⟨fault, rfl⟩

end Sys2Proof.Machine
end
